-- ==== Sys2Proof/Word.lean ====
section
/-! DEFINITION. The words and value types of the block: spec/00_scope.md R7 (widths), R9 (unsigned values),
R10 (bit sequences), R18 (symbols). Nothing in the block is signed. -/

namespace Sys2Proof

/-- One byte of PMEM or UMEM (R46, R48). -/
abbrev Byte := BitVec 8

/-- The 32-bit data field: a count of FT, a status register, the `rdata` of a response (R7 `DATA_W`). -/
abbrev Data := BitVec 32

/-- One command word (R7 `CMD_W`, R90). -/
abbrev CommandWord := BitVec 64

/-- A node's frequency (R7 `NODEFREQ_W`, R37). -/
abbrev NodeFreq := BitVec 41

/-- A symbol: 0 to 255 are the byte values, 256 is the sentinel (R18). -/
abbrev SymbolId := Fin 257

/-- A bit sequence, oldest bit first; `true` is the bit 1 (R10). -/
abbrev Code := List Bool

end Sys2Proof
end

