-- ==== Sys2Proof/Syntax.lean ====
section
/-! DEFINITION. The 19 commands, one constructor per row of spec/opcode_table.json (spec/30_encoding.md R94).
A command's arguments are the fields its format uses (R91), in the order `s`, `i`, `d` of R110, each taken whole
and unsigned (R97). -/

namespace Sys2Proof

/-- A command. `i` is a symbol, a node index or a status-register number, `s` a selector, `d` a data value. -/
inductive Instr where
  /-- NOP (R170). -/
  | nop
  /-- RDSR i: read status register i (R171). -/
  | rdsr (i : BitVec 16)
  /-- RESET (R172). -/
  | reset
  /-- CLRFREQ (R121). -/
  | clrfreq
  /-- SETFREQ i, d: set the count of byte value i to d (R122). -/
  | setfreq (i : BitVec 16) (d : BitVec 32)
  /-- RDFREQ i: read the count of symbol i (R123). -/
  | rdfreq (i : BitVec 16)
  /-- BUILD: build the tree from the present frequency table (R124). -/
  | build
  /-- RDNODE s, i: read field s of node i (R132). -/
  | rdnode (s : BitVec 8) (i : BitVec 16)
  /-- GENCODES: derive the code table from the present tree (R141). -/
  | gencodes
  /-- RDCLEN i: read the code length of symbol i (R145). -/
  | rdclen (i : BitVec 16)
  /-- RDCODE s, i: read word s of the code of symbol i (R146). -/
  | rdcode (s : BitVec 8) (i : BitVec 16)
  /-- PKRESET: empty the packer (R151). -/
  | pkreset
  /-- PUSHBIT d: append one bit (R152). -/
  | pushbit (d : BitVec 32)
  /-- PUSHSYM i: append the code of symbol i (R153). -/
  | pushsym (i : BitVec 16)
  /-- RDPK d: read one packed byte (R154). -/
  | rdpk (d : BitVec 32)
  /-- UPRESET: empty the unpacker (R161). -/
  | upreset
  /-- UPBYTE d: append one byte to the buffer (R162). -/
  | upbyte (d : BitVec 32)
  /-- UPREWIND: restart the sequence (R163). -/
  | uprewind
  /-- NEXTBIT: return the next bit (R164). -/
  | nextbit
deriving DecidableEq, Repr

/-- The name of a command in R94 and in spec/opcode_table.json. -/
def Instr.mnemonic : Instr → String
  | .nop => "NOP"
  | .rdsr _ => "RDSR"
  | .reset => "RESET"
  | .clrfreq => "CLRFREQ"
  | .setfreq _ _ => "SETFREQ"
  | .rdfreq _ => "RDFREQ"
  | .build => "BUILD"
  | .rdnode _ _ => "RDNODE"
  | .gencodes => "GENCODES"
  | .rdclen _ => "RDCLEN"
  | .rdcode _ _ => "RDCODE"
  | .pkreset => "PKRESET"
  | .pushbit _ => "PUSHBIT"
  | .pushsym _ => "PUSHSYM"
  | .rdpk _ => "RDPK"
  | .upreset => "UPRESET"
  | .upbyte _ => "UPBYTE"
  | .uprewind => "UPREWIND"
  | .nextbit => "NEXTBIT"

end Sys2Proof
end

