-- ==== Sys2Proof/WellFormed.lean ====
section
/-! DEFINITION. Well-formed commands: every operand lies in the FIXED legal range the spec gives its field
(spec/30_encoding.md R94 "fields used", spec/60_exceptions.md R206). A command outside its range still has an
encoding and still runs: it ends with E_BAD_OPERAND (R97). The state-dependent ranges of R98 (RDNODE's `i`,
RDPK's `d`) are no property of the command and are checked by the meanings. -/

namespace Sys2Proof

/-- The fixed legal ranges of R206, one line a command. -/
def Instr.wellFormed : Instr → Bool
  | .nop => true
  | .rdsr i => decide (i.toNat ≤ 14)
  | .reset => true
  | .clrfreq => true
  | .setfreq i _ => decide (i.toNat ≤ 255)
  | .rdfreq i => decide (i.toNat ≤ 256)
  | .build => true
  | .rdnode s _ => decide (s.toNat ≤ 6)
  | .gencodes => true
  | .rdclen i => decide (i.toNat ≤ 256)
  | .rdcode s i => decide (i.toNat ≤ 256) && decide (s.toNat ≤ 7)
  | .pkreset => true
  | .pushbit d => decide (d.toNat ≤ 1)
  | .pushsym i => decide (i.toNat ≤ 256)
  | .rdpk _ => true
  | .upreset => true
  | .upbyte d => decide (d.toNat ≤ 255)
  | .uprewind => true
  | .nextbit => true

/-- `Instr.wellFormed` as a proposition. -/
abbrev Instr.WellFormed (i : Instr) : Prop := i.wellFormed = true

end Sys2Proof
end

