-- ==== Sys2Proof/Decode.lean ====
section
/-! DEFINITION. The decoder of a command word and, after it, the encoder (spec/30_encoding.md R90 to R103). A
command word is one 64-bit number moved whole (R63), so "any bytes" is any 64-bit value. -/

namespace Sys2Proof

/-- `op = cmd[63:56]` (R90). -/
def opField (w : CommandWord) : BitVec 8 := w.extractLsb' 56 8

/-- `s = cmd[55:48]` (R90). -/
def sField (w : CommandWord) : BitVec 8 := w.extractLsb' 48 8

/-- `i = cmd[47:32]` (R90). -/
def iField (w : CommandWord) : BitVec 16 := w.extractLsb' 32 16

/-- `d = cmd[31:0]` (R90). -/
def dField (w : CommandWord) : BitVec 32 := w.extractLsb' 0 32

/-- Why a word is no command. Both reasons are answered with E_ILLEGAL_CMD (R95). -/
inductive DecodeError where
  /-- `op` is none of the 19 opcodes (R101). -/
  | unknownOpcode (op : BitVec 8)
  /-- The opcode is one of the 19 and a field its format does not use is not zero (R102). -/
  | nonzeroUnusedField (op : BitVec 8)
deriving DecidableEq, Repr

/-- Format `Z`: uses no field (R91). -/
def formatZ (w : CommandWord) (i : Instr) : Except DecodeError Instr :=
  if sField w = 0 ∧ iField w = 0 ∧ dField w = 0 then .ok i else .error (.nonzeroUnusedField (opField w))

/-- Format `I`: uses `i` (R91). -/
def formatI (w : CommandWord) (mk : BitVec 16 → Instr) : Except DecodeError Instr :=
  if sField w = 0 ∧ dField w = 0 then .ok (mk (iField w)) else .error (.nonzeroUnusedField (opField w))

/-- Format `SI`: uses `s` and `i` (R91). -/
def formatSI (w : CommandWord) (mk : BitVec 8 → BitVec 16 → Instr) : Except DecodeError Instr :=
  if dField w = 0 then .ok (mk (sField w) (iField w)) else .error (.nonzeroUnusedField (opField w))

/-- Format `ID`: uses `i` and `d` (R91). -/
def formatID (w : CommandWord) (mk : BitVec 16 → BitVec 32 → Instr) : Except DecodeError Instr :=
  if sField w = 0 then .ok (mk (iField w) (dField w)) else .error (.nonzeroUnusedField (opField w))

/-- Format `D`: uses `d` (R91). -/
def formatD (w : CommandWord) (mk : BitVec 32 → Instr) : Except DecodeError Instr :=
  if sField w = 0 ∧ iField w = 0 then .ok (mk (dField w)) else .error (.nonzeroUnusedField (opField w))

/-- The decoding procedure of R95 steps (1) and (2) over the opcode map of R94. -/
def decode (w : CommandWord) : Except DecodeError Instr :=
  match opField w with
  | 0x00#8 => formatZ w .nop
  | 0x01#8 => formatI w .rdsr
  | 0x02#8 => formatZ w .reset
  | 0x10#8 => formatZ w .clrfreq
  | 0x11#8 => formatID w .setfreq
  | 0x12#8 => formatI w .rdfreq
  | 0x13#8 => formatZ w .build
  | 0x14#8 => formatSI w .rdnode
  | 0x20#8 => formatZ w .gencodes
  | 0x21#8 => formatI w .rdclen
  | 0x22#8 => formatSI w .rdcode
  | 0x30#8 => formatZ w .pkreset
  | 0x31#8 => formatD w .pushbit
  | 0x32#8 => formatI w .pushsym
  | 0x33#8 => formatD w .rdpk
  | 0x40#8 => formatZ w .upreset
  | 0x41#8 => formatD w .upbyte
  | 0x42#8 => formatZ w .uprewind
  | 0x43#8 => formatZ w .nextbit
  | op => .error (.unknownOpcode op)

/-- The word with the fields `op`, `s`, `i`, `d` (R90): the concatenation of R9, most significant first. -/
def assemble (op s : BitVec 8) (i : BitVec 16) (d : BitVec 32) : CommandWord :=
  (op ++ s ++ i ++ d : BitVec (8 + 8 + 16 + 32))

/-- The word of a command: its opcode (R94), its operands in their fields and zero in the fields its format does
not use (R91). -/
def encode : Instr → CommandWord
  | .nop => assemble 0x00#8 0 0 0
  | .rdsr i => assemble 0x01#8 0 i 0
  | .reset => assemble 0x02#8 0 0 0
  | .clrfreq => assemble 0x10#8 0 0 0
  | .setfreq i d => assemble 0x11#8 0 i d
  | .rdfreq i => assemble 0x12#8 0 i 0
  | .build => assemble 0x13#8 0 0 0
  | .rdnode s i => assemble 0x14#8 s i 0
  | .gencodes => assemble 0x20#8 0 0 0
  | .rdclen i => assemble 0x21#8 0 i 0
  | .rdcode s i => assemble 0x22#8 s i 0
  | .pkreset => assemble 0x30#8 0 0 0
  | .pushbit d => assemble 0x31#8 0 0 d
  | .pushsym i => assemble 0x32#8 0 i 0
  | .rdpk d => assemble 0x33#8 0 0 d
  | .upreset => assemble 0x40#8 0 0 0
  | .upbyte d => assemble 0x41#8 0 0 d
  | .uprewind => assemble 0x42#8 0 0 0
  | .nextbit => assemble 0x43#8 0 0 0

/-- The `mask` and `match` columns of spec/opcode_table.json, by mnemonic (R91, R96, R100). The model does not
decode by this table; that the decoder agrees with it is a statement (`Obligations.DecoderFollowsMaskMatchTable`). -/
def maskMatchTable : List (String × CommandWord × CommandWord) :=
  [ ("NOP",      0xFFFFFFFFFFFFFFFF#64, 0x0000000000000000#64),
    ("RDSR",     0xFFFF0000FFFFFFFF#64, 0x0100000000000000#64),
    ("RESET",    0xFFFFFFFFFFFFFFFF#64, 0x0200000000000000#64),
    ("CLRFREQ",  0xFFFFFFFFFFFFFFFF#64, 0x1000000000000000#64),
    ("SETFREQ",  0xFFFF000000000000#64, 0x1100000000000000#64),
    ("RDFREQ",   0xFFFF0000FFFFFFFF#64, 0x1200000000000000#64),
    ("BUILD",    0xFFFFFFFFFFFFFFFF#64, 0x1300000000000000#64),
    ("RDNODE",   0xFF000000FFFFFFFF#64, 0x1400000000000000#64),
    ("GENCODES", 0xFFFFFFFFFFFFFFFF#64, 0x2000000000000000#64),
    ("RDCLEN",   0xFFFF0000FFFFFFFF#64, 0x2100000000000000#64) ] ++
  [ ("RDCODE",   0xFF000000FFFFFFFF#64, 0x2200000000000000#64),
    ("PKRESET",  0xFFFFFFFFFFFFFFFF#64, 0x3000000000000000#64),
    ("PUSHBIT",  0xFFFFFFFF00000000#64, 0x3100000000000000#64),
    ("PUSHSYM",  0xFFFF0000FFFFFFFF#64, 0x3200000000000000#64),
    ("RDPK",     0xFFFFFFFF00000000#64, 0x3300000000000000#64),
    ("UPRESET",  0xFFFFFFFFFFFFFFFF#64, 0x4000000000000000#64),
    ("UPBYTE",   0xFFFFFFFF00000000#64, 0x4100000000000000#64),
    ("UPREWIND", 0xFFFFFFFFFFFFFFFF#64, 0x4200000000000000#64),
    ("NEXTBIT",  0xFFFFFFFFFFFFFFFF#64, 0x4300000000000000#64) ]

/-- The command word that a table row's bits make: the row's `nbits` bits, all bits above them zero. -/
def tableWord (nbits w : Nat) : CommandWord := BitVec.ofNat 64 (w % 2 ^ nbits)

/-- What the decoder reads from an instruction whose bits are `w`, numbered as spec/opcode_table.json numbers
them: a command is one 64-bit word, bit 0 its least significant bit. -/
def decodeTableWord (nbits w : Nat) : Option Instr :=
  match decode (tableWord nbits w) with
  | .ok i => some i
  | .error _ => none

end Sys2Proof
end

