-- ==== Sys2Proof/Config.lean ====
section
/-! DEFINITION. What an instance of the block fixes: the two open parameters (spec/00_scope.md R8) and the
named constants of R7, R17 and R27. Nothing else is open (R6), so there is no free value. -/

namespace Sys2Proof

/-- The parameters of one instance (R8): the capacities in bytes of the packer's memory PMEM and of the
unpacker's memory UMEM. They never change, not even on reset (R36). -/
structure Params where
  pbufBytes : Nat
  ubufBytes : Nat
deriving DecidableEq, Repr

/-- The constraints of R8. -/
def Params.ok (p : Params) : Bool :=
  decide (1 ≤ p.pbufBytes) && decide (p.pbufBytes ≤ 2 ^ 28) &&
  decide (1 ≤ p.ubufBytes) && decide (p.ubufBytes ≤ 2 ^ 28)

/-- The defaults of R8. -/
def Params.default : Params := { pbufBytes := 65536, ubufBytes := 65536 }

namespace Config

/-- `EOS`, the sentinel's symbol number (R7). -/
def eos : SymbolId := 256

/-- `NONE`, how an absent link or symbol reads out (R17). -/
def noneWord : Data := 0xFFFFFFFF#32

/-- The constant of SR.ID (R27). -/
def srId : Data := 0x48554631#32

/-- `MAXNODE`, the capacity of the node arena (R7, R37). -/
def maxNode : Nat := 513

/-- `MAXCODELEN`, the longest possible code in bits (R7, R43). -/
def maxCodeLen : Nat := 256

end Config

end Sys2Proof
end

