-- ==== Sys2Proof/Machine/State.lean ====
section
/-! DEFINITION. The state of one instance of the block (spec/10_state.md R51), its port to the host, the reasons
a step can stop, and the state after reset (R52). Plain data throughout. -/

namespace Sys2Proof.Machine

/-- The nine error codes of spec/60_exceptions.md R200. The block raises six of them: E_EMPTY_INPUT is
unreachable (R129), E_TRUNCATED and E_INVALID_TABLE belong to the host sequences (R203, R204). -/
inductive ErrCode where
  | emptyInput
  | outOfRange
  | truncated
  | invalidTable
  | illegalCmd
  | badOperand
  | sequence
  | noCode
  | capacity
deriving DecidableEq, Repr

/-- A response word as the pair (`err`, `rdata`), as spec/30_encoding.md R92 allows. `err = 0` is success. -/
structure Response where
  err : BitVec 8
  rdata : Data
deriving DecidableEq, Repr

/-- What the host can do to the block (spec/70_reset_and_hazards.md R241, R230): present a command word, or reset
it between two commands. -/
inductive HostEvent where
  | command (w : CommandWord)
  | hardReset
deriving DecidableEq, Repr

/-- What a node is beside its frequency and parent (R37): a leaf has a symbol and no children, an internal node
the arena indices of its two children and no symbol. -/
inductive NodeBody where
  | leaf (sym : SymbolId)
  | internal (left right : Nat)
deriving DecidableEq, Repr

/-- One entry of the node arena (R37); the root has no parent. -/
structure Node where
  body : NodeBody
  freq : NodeFreq
  parent : Option Nat
deriving DecidableEq, Repr

/-- A private byte memory as its cells in canonical form (`Memory.wf` in Machine/Ops.lean): addresses strictly
rising, and no cell that holds what an unlisted address reads as. -/
abbrev Memory := List Host.Cell

/-- The whole state: the tuple of R51, the instance's parameters (R8) and the port to the host. -/
structure State where
  /-- PBUF_BYTES and UBUF_BYTES (R8); read as SR.PK_CAP and SR.UP_CAP (R36). No step changes them; that they are a
  field is the model's choice (log entry 1, DESIGN CHOICE). -/
  params : Params
  /-- FT[0] to FT[255] (R20). FT[256] is hardwired and so not stored (R21). -/
  ft : Vector Data 256
  /-- TREE_VALID (R45). -/
  treeValid : Bool
  /-- CT_VALID (R45). -/
  ctValid : Bool
  /-- SR.NLEAF (R31). -/
  nleaf : Data
  /-- SR.NNODE (R32). -/
  nnode : Data
  /-- SR.ROOT (R33). -/
  root : Data
  /-- NODE (R37): entry j of the list is NODE[j]. The list holds the entries the last BUILD wrote (log
  entry 10, DEDUCED). -/
  nodes : List Node
  /-- CT (R42): `CT[s].code`, whose length is `CT[s].len`. -/
  ct : Vector Code 257
  /-- SR.PK_BITCNT (R34). -/
  pkBitcnt : Data
  /-- PMEM (R46). -/
  pmem : Memory
  /-- SR.UP_LEN (R35). -/
  upLen : Data
  /-- SR.UP_POS (R35). -/
  upPos : Data
  /-- UMEM (R48). -/
  umem : Memory
  /-- SR.ERRFLAGS (R28). -/
  errflags : BitVec 9
  /-- SR.LASTERR (R29). -/
  lasterr : BitVec 8
  /-- SR.ECMD_LO (R30). -/
  ecmdLo : Data
  /-- SR.ECMD_HI (R30). -/
  ecmdHi : Data
  /-- The port, towards the block: what the host presents, in its issue order (R71). Each step takes the first (log
  entry 4, DESIGN CHOICE). -/
  input : List HostEvent
  /-- The port, towards the host: the response of the last command; none after a hard reset (R230; log entry
  4, DESIGN CHOICE). -/
  resp : Option Response
deriving DecidableEq, Repr

/-- Why the machine stops. The spec gives every command a defined outcome in every state (R95, U5), so a fault
answers only an access that the state's own invariants rule out (`StateInv` in Safety.lean); each is safe, since no run
of the hardware is in such a state. An error of the spec is no fault: it is a response (`ErrCode`). Log entry
5, DEDUCED. -/
inductive Fault where
  /-- PMEM has no byte at this address (R68). Raised by the packer's accesses, in a state whose PK_BITCNT exceeds
  8 × PBUF_BYTES. Safe. -/
  | noPmemByte (addr : Nat)
  /-- UMEM has no byte at this address (R69). Raised by the unpacker's accesses, in a state whose UP_LEN exceeds
  UBUF_BYTES. Safe. -/
  | noUmemByte (addr : Nat)
  /-- NODE has no entry at this index (R37). Raised by RDNODE and GENCODES, in a state whose tree is not one that
  BUILD made. Safe. -/
  | noNode (index : Nat)
  /-- GENCODES met a path longer than the arena has nodes (R143). Raised only where NODE is not a tree. Safe. -/
  | treeNotFinite
deriving DecidableEq, Repr

/-- Why a command has no meaning. No command is refused. -/
inductive Refusal where
  /-- The command of this mnemonic is not modelled. Raised by nothing. Safe. -/
  | notModelled (mnemonic : String)
deriving DecidableEq, Repr

/-- The state after a hard reset of an instance with parameters `p` that has executed nothing (R52). NODE, CT, PMEM
and UMEM are not observable then (R232; log entry 2, DESIGN CHOICE). -/
def State.resetWith (p : Params) : State :=
  { params := p
    ft := Vector.replicate 256 0
    treeValid := false
    ctValid := false
    nleaf := 0
    nnode := 0
    root := 0
    nodes := []
    ct := Vector.replicate 257 []
    pkBitcnt := 0
    pmem := []
    upLen := 0
    upPos := 0
    umem := []
    errflags := 0
    lasterr := 0
    ecmdLo := 0
    ecmdHi := 0
    input := []
    resp := none }

/-- The machine right after reset, with the default parameters of R8 (log entry 1, DESIGN CHOICE). -/
def State.reset : State := State.resetWith Params.default

end Sys2Proof.Machine
end

