-- ==== Sys2Proof/Machine/Flags.lean ====
section
/-! DEFINITION. The block's flags: the error codes and the sticky bit each owns in SR.ERRFLAGS
(spec/60_exceptions.md R200, spec/10_state.md R28), and the four computed fields of SR.STATUS (R26). -/

namespace Sys2Proof.Machine

/-- The number of an error code (R200). -/
def ErrCode.code : ErrCode → BitVec 8
  | .emptyInput => 1#8
  | .outOfRange => 2#8
  | .truncated => 3#8
  | .invalidTable => 4#8
  | .illegalCmd => 5#8
  | .badOperand => 6#8
  | .sequence => 7#8
  | .noCode => 8#8
  | .capacity => 9#8

/-- The bit of SR.ERRFLAGS that belongs to an error code: bit (code − 1) (R28). -/
def ErrCode.flag (e : ErrCode) : BitVec 9 := 1#9 <<< (e.code.toNat - 1)

/-- STATUS bit 2, ERR_ANY (R26). -/
def errAny (s : State) : Bool := s.errflags != 0#9

/-- STATUS bit 3, UP_EXHAUSTED: `SR.UP_POS = 8 × SR.UP_LEN` (R26). -/
def upExhausted (s : State) : Bool := s.upPos.toNat == 8 * s.upLen.toNat

/-- One flag at its bit position of a status register. -/
def flagBit (b : Bool) (pos : Nat) : Data := (if b then 1#32 else 0#32) <<< pos

/-- SR.STATUS, computed at read; bits 31 to 4 are 0 (R26, R171). -/
def statusWord (s : State) : Data :=
  flagBit s.treeValid 0 ||| flagBit s.ctValid 1 ||| flagBit (errAny s) 2 ||| flagBit (upExhausted s) 3

end Sys2Proof.Machine
end

