-- ==== Sys2Proof/Machine/Operands.lean ====
section
/-! DEFINITION. Operand forms: which symbol an index field names, the bit order inside a byte, the read-out form
of an absent link, of a node's fields and of a code (spec/20_memory.md R60 to R63, spec/30_encoding.md R97 to R99,
R104, spec/00_scope.md R17). -/

namespace Sys2Proof.Machine

/-- The symbol that an index field names: 0 to 256, or none (R97, R206). -/
def symbolOf (i : BitVec 16) : Option SymbolId :=
  if h : i.toNat < 257 then some ⟨i.toNat, h⟩ else none

/-- The byte value that SETFREQ's index field names: 0 to 255, or none; the sentinel is no byte value (R21, R122). -/
def byteSymbolOf (i : BitVec 16) : Option (Fin 256) :=
  if h : i.toNat < 256 then some ⟨i.toNat, h⟩ else none

/-- The address of the byte that carries bit number `k` of a stream (R62). -/
def streamAddr (k : Nat) : Nat := k / 8

/-- The bit position, in its byte, of bit number `k` of a stream: most significant first (R60, R62). -/
def streamPos (k : Nat) : Nat := 7 - k % 8

/-- `b << pos`: the byte with bit `b` at position `pos` and 0 elsewhere (R156). -/
def bitAt (b : Bool) (pos : Nat) : Byte := (if b then 1#8 else 0#8) <<< pos

/-- `(B >> pos) & 1` of a byte (R62, R164). -/
def bitOf (B : Byte) (pos : Nat) : Bool := (B >>> pos) &&& 1#8 == 1#8

/-- A one-bit result as `rdata`: 0 or 1 (R164). -/
def bitData (b : Bool) : Data := if b then 1#32 else 0#32

/-- How a node index that may be absent reads out (R17, R37). -/
def linkData : Option Nat → Data
  | some j => BitVec.ofNat 32 j
  | none => Config.noneWord

/-- RDNODE's selectors 0 to 6 (R99, R132) for a node; `isRoot` says that it is NODE[ROOT]. Any other number selects
nothing. -/
def nodeField (sel : Nat) (nd : Node) (isRoot : Bool) : Option Data :=
  match sel with
  | 0 => some (match nd.body with | .leaf _ => 0 | .internal _ _ => 1)
  | 1 => some (match nd.body with | .leaf sym => BitVec.ofNat 32 sym.val | .internal _ _ => Config.noneWord)
  | 2 => some (nd.freq.extractLsb' 0 32)
  | 3 => some ((nd.freq.extractLsb' 32 9).zeroExtend 32)
  | 4 => some (match nd.body with | .leaf _ => Config.noneWord | .internal l _ => linkData (some l))
  | 5 => some (match nd.body with | .leaf _ => Config.noneWord | .internal _ r => linkData (some r))
  | 6 => some (if isRoot then Config.noneWord else linkData nd.parent)
  | _ => none

/-- Word number `n` of a code, left-aligned (R104, R146): bit `31 - k` is bit `32 n + k` of the code where the code
has one, else 0. -/
def codeWord (c : Code) (n : Nat) : Data :=
  (List.range 32).foldl
    (fun w k => if c.getD (32 * n + k) false then w ||| (1#32 <<< (31 - k)) else w) 0#32

end Sys2Proof.Machine
end

