-- ==== Sys2Proof/Machine/Ops.lean ====
section
/-! DEFINITION. The shared operations: byte memories and their bounds (spec/20_memory.md R65 to R69), the register
files (spec/10_state.md R20, R25, R42), answering a command (spec/30_encoding.md R92, R93), error entry
(spec/60_exceptions.md R211), invalidation (R45), reset (spec/70_reset_and_hazards.md R230) and taking the host's next
event (R71, R241). -/

namespace Sys2Proof.Machine

/-! ### Byte memories -/

/-- What an address that no cell lists reads as. The spec gives PMEM and UMEM no reset contents (R232), and no command
can observe the difference (log entry 2). DESIGN CHOICE. -/
def Memory.unlisted : Byte := 0#8

/-- The canonical form from address `lo` on: addresses rise strictly and no cell holds the unlisted value. -/
def Memory.wfFrom : Nat → Memory → Bool
  | _, [] => true
  | lo, (a, b) :: m => decide (lo ≤ a) && (b != Memory.unlisted) && Memory.wfFrom (a + 1) m

/-- The canonical form of a memory. -/
def Memory.wf (m : Memory) : Bool := Memory.wfFrom 0 m

/-- The byte at an address (R12 `MemRead`, n = 1). -/
def Memory.read : Memory → Nat → Byte
  | [], _ => Memory.unlisted
  | (a', b) :: m, a => if a' = a then b else Memory.read m a

/-- The memory with one byte written (R12 `MemWrite`, n = 1); it keeps the canonical form. -/
def Memory.write : Memory → Nat → Byte → Memory
  | [], a, v => if v = Memory.unlisted then [] else [(a, v)]
  | (a', b) :: m, a, v =>
    if a < a' then (if v = Memory.unlisted then (a', b) :: m else (a, v) :: (a', b) :: m)
    else if a = a' then (if v = Memory.unlisted then m else (a, v) :: m)
    else (a', b) :: Memory.write m a v

/-- `PMEM[a]`: the addresses are 0 to PBUF_BYTES − 1 (R46, R68). -/
def State.pmemRead (s : State) (a : Nat) : Except Fault Byte :=
  if a < s.params.pbufBytes then .ok (Memory.read s.pmem a) else .error (.noPmemByte a)

/-- `PMEM[a] <- v` (R46, R68). -/
def State.pmemWrite (s : State) (a : Nat) (v : Byte) : Except Fault State :=
  if a < s.params.pbufBytes then .ok { s with pmem := Memory.write s.pmem a v } else .error (.noPmemByte a)

/-- `UMEM[a]`: the addresses are 0 to UBUF_BYTES − 1 (R48, R69). -/
def State.umemRead (s : State) (a : Nat) : Except Fault Byte :=
  if a < s.params.ubufBytes then .ok (Memory.read s.umem a) else .error (.noUmemByte a)

/-- `UMEM[a] <- v` (R48, R69). -/
def State.umemWrite (s : State) (a : Nat) (v : Byte) : Except Fault State :=
  if a < s.params.ubufBytes then .ok { s with umem := Memory.write s.umem a v } else .error (.noUmemByte a)

/-! ### Register files -/

/-- `FT[n]` (R20); FT[256] is hardwired to 1 (R21). -/
def State.ftRead (s : State) (n : SymbolId) : Data :=
  if h : n.val < 256 then s.ft[n.val] else 1#32

/-- `FT[b] <- d`, for a byte value only (R21, R22). -/
def State.ftWrite (s : State) (b : Fin 256) (d : Data) : State :=
  { s with ft := s.ft.set b.val d b.isLt }

/-- `CT[n].code`; its length is `CT[n].len` (R42). -/
def State.ctRead (s : State) (n : SymbolId) : Code := s.ct[n.val]

/-- SR.PK_BYTELEN, computed at read: ceil(PK_BITCNT / 8) (R34). -/
def State.pkByteLen (s : State) : Nat := (s.pkBitcnt.toNat + 7) / 8

/-- Status register number `n` (R25, R171); numbers above 14 name none. -/
def State.srRead (s : State) (n : Nat) : Option Data :=
  match n with
  | 0 => some Config.srId
  | 1 => some (statusWord s)
  | 2 => some (s.errflags.zeroExtend 32)
  | 3 => some (s.lasterr.zeroExtend 32)
  | 4 => some s.ecmdLo
  | 5 => some s.ecmdHi
  | 6 => some s.nleaf
  | 7 => some s.nnode
  | 8 => some s.root
  | 9 => some s.pkBitcnt
  | 10 => some (BitVec.ofNat 32 s.pkByteLen)
  | 11 => some s.upLen
  | 12 => some s.upPos
  | 13 => some (BitVec.ofNat 32 s.params.pbufBytes)
  | 14 => some (BitVec.ofNat 32 s.params.ubufBytes)
  | _ => none

/-! ### Answering a command -/

/-- The 64-bit response word (R92): 24 zero bits, `err`, `rdata`. -/
def Response.word (r : Response) : BitVec 64 := (0#24 ++ r.err ++ r.rdata : BitVec (24 + 8 + 32))

/-- `return v` (R13, R93): the command ends successfully with `rdata = v`. -/
def respond (v : Data) (s : State) : Host.Outcome State Fault Refusal :=
  .next { s with resp := some { err := 0, rdata := v } }

/-- ERROR ENTRY (R211), the block's one exception: the command word `cmd` ends with error `e`. Nothing but the four
error registers changes (R212), the response carries the code and `rdata = 0`. There is no handler, no mode change
(R214) and no return from it (R215). -/
def errorEntry (e : ErrCode) (cmd : CommandWord) (s : State) : State :=
  { s with
    errflags := s.errflags ||| e.flag
    lasterr := e.code
    ecmdLo := cmd.extractLsb' 0 32
    ecmdHi := cmd.extractLsb' 32 32
    resp := some { err := e.code, rdata := 0 } }

/-- `raise e` in the rule of command `i` (R13). The word of a decoded command is its encoding, since every field it
does not use is zero (log entry 6, DEDUCED). -/
def raise (e : ErrCode) (i : Instr) (s : State) : Host.Outcome State Fault Refusal :=
  .next (errorEntry e (encode i) s)

/-- A word that is no command ends with E_ILLEGAL_CMD (R95, R205); the reason makes no difference to the outcome. -/
def illegalCommand (_why : DecodeError) (w : CommandWord) (s : State) : Host.Outcome State Fault Refusal :=
  .next (errorEntry .illegalCmd w s)

/-- Go on with a state, or stop with the fault of the access that has none. -/
def orFault (r : Except Fault State) (k : State → Host.Outcome State Fault Refusal) :
    Host.Outcome State Fault Refusal :=
  match r with
  | .ok t => k t
  | .error f => .fault f

/-! ### Invalidation and reset -/

/-- What every write of FT does beside it: the tree and the code table become invalid (R31 to R33, R45, R74). -/
def invalidate (s : State) : State :=
  { s with treeValid := false, ctValid := false, nleaf := 0, nnode := 0, root := 0 }

/-- All of FT to zero (R52, R121). -/
def zeroFt : Vector Data 256 := Vector.replicate 256 0#32

/-- The reset values of R52, over the state the block is in. NODE, CT, PMEM and UMEM keep what they hold: R65 says
that they are not cleared, and they are no longer observable (R232; log entry 2, DESIGN CHOICE). The parameters stay (R36), and so does what the
host has still to present. -/
def resetState (s : State) : State :=
  { s with
    ft := zeroFt
    treeValid := false, ctValid := false
    nleaf := 0, nnode := 0, root := 0
    pkBitcnt := 0
    upLen := 0, upPos := 0
    errflags := 0, lasterr := 0, ecmdLo := 0, ecmdHi := 0 }

/-- A hard reset: the effect of RESET, and no response (R230). -/
def hardReset (s : State) : State := { resetState s with resp := none }

/-! ### The port -/

/-- Take the first thing the host presents off the port, if there is one (R71, R241). -/
def takeEvent (s : State) : Option (HostEvent × State) :=
  match s.input with
  | [] => none
  | e :: es => some (e, { s with input := es })

/-- The host presents `e` before anything else it has to present. -/
def State.present (s : State) (e : HostEvent) : State := { s with input := e :: s.input }

end Sys2Proof.Machine
end

