-- ==== Sys2Proof/Machine/BitPacker.lean ====
section
/-! DEFINITION. BPK, the bit packer: PKRESET, PUSHBIT, PUSHSYM, RDPK (spec/42_bit_packer.md R151 to R156). -/

namespace Sys2Proof.Machine

/-- `PkAppend(b)` (R156): a bit that starts a byte writes the whole byte, any other is or-ed into its place. -/
def pkAppend (b : Bool) (s : State) : Except Fault State :=
  let k := s.pkBitcnt.toNat
  let counted (t : State) : State := { t with pkBitcnt := BitVec.ofNat 32 (k + 1) }
  if k % 8 = 0 then (s.pmemWrite (streamAddr k) (bitAt b 7)).map counted
  else
    match s.pmemRead (streamAddr k) with
    | .error f => .error f
    | .ok old => (s.pmemWrite (streamAddr k) (old ||| bitAt b (streamPos k))).map counted

/-- `PkAppend` of each bit in order (R153). -/
def pkAppendAll : Code → State → Except Fault State
  | [], s => .ok s
  | b :: bs, s =>
    match pkAppend b s with
    | .error f => .error f
    | .ok t => pkAppendAll bs t

/-- PKRESET (R151). -/
def execPkreset (s : State) : Host.Outcome State Fault Refusal := respond 0 { s with pkBitcnt := 0 }

/-- PUSHBIT d (R152). -/
def execPushbit (d : BitVec 32) (s : State) : Host.Outcome State Fault Refusal :=
  if d.toNat > 1 then raise .badOperand (.pushbit d) s
  else if s.pkBitcnt.toNat = 8 * s.params.pbufBytes then raise .capacity (.pushbit d) s
  else orFault (pkAppend (decide (d.toNat = 1)) s) (respond 0)

/-- PUSHSYM i (R153). -/
def execPushsym (i : BitVec 16) (s : State) : Host.Outcome State Fault Refusal :=
  match symbolOf i with
  | none => raise .badOperand (.pushsym i) s
  | some n =>
    if s.ctValid = false then raise .sequence (.pushsym i) s
    else if (s.ctRead n).length = 0 then raise .noCode (.pushsym i) s
    else if s.pkBitcnt.toNat + (s.ctRead n).length > 8 * s.params.pbufBytes then raise .capacity (.pushsym i) s
    else orFault (pkAppendAll (s.ctRead n) s) (respond 0)

/-- RDPK d (R154). -/
def execRdpk (d : BitVec 32) (s : State) : Host.Outcome State Fault Refusal :=
  if d.toNat ≥ s.pkByteLen then raise .badOperand (.rdpk d) s
  else
    match s.pmemRead d.toNat with
    | .error f => .fault f
    | .ok b => respond (b.zeroExtend 32) s

end Sys2Proof.Machine
end

