-- ==== Sys2Proof/Machine/BitUnpacker.lean ====
section
/-! DEFINITION. BUP, the bit unpacker: UPRESET, UPBYTE, UPREWIND, NEXTBIT (spec/43_bit_unpacker.md R161 to R165). -/

namespace Sys2Proof.Machine

/-- UPRESET (R161). -/
def execUpreset (s : State) : Host.Outcome State Fault Refusal := respond 0 { s with upLen := 0, upPos := 0 }

/-- UPBYTE d (R162). -/
def execUpbyte (d : BitVec 32) (s : State) : Host.Outcome State Fault Refusal :=
  if d.toNat > 255 then raise .badOperand (.upbyte d) s
  else if s.upLen.toNat = s.params.ubufBytes then raise .capacity (.upbyte d) s
  else
    orFault (s.umemWrite s.upLen.toNat (d.extractLsb' 0 8)) fun t =>
      respond 0 { t with upLen := BitVec.ofNat 32 (s.upLen.toNat + 1) }

/-- UPREWIND (R163). -/
def execUprewind (s : State) : Host.Outcome State Fault Refusal := respond 0 { s with upPos := 0 }

/-- NEXTBIT (R164). -/
def execNextbit (s : State) : Host.Outcome State Fault Refusal :=
  if s.upPos.toNat ≥ 8 * s.upLen.toNat then raise .outOfRange .nextbit s
  else
    match s.umemRead (streamAddr s.upPos.toNat) with
    | .error f => .fault f
    | .ok B =>
      respond (bitData (bitOf B (streamPos s.upPos.toNat))) { s with upPos := BitVec.ofNat 32 (s.upPos.toNat + 1) }

end Sys2Proof.Machine
end

