-- ==== Sys2Proof/Machine/CodeTable.lean ====
section
/-! DEFINITION. CTG, the code table generator: GENCODES, RDCLEN, RDCODE (spec/41_code_table_generator.md R141 to
R146). -/

namespace Sys2Proof.Machine

/-- The code table in which no symbol has a code (R141). -/
def emptyTable : Vector Code 257 := Vector.replicate 257 []

/-- `walk(j, p)` of R141: depth first, the left child's path gets a 0 and the right child's a 1, and each leaf's path
is its symbol's code. `fuel` bounds the depth (log entry 10, DEDUCED). -/
def walk (nodes : List Node) : Nat → Nat → Code → Vector Code 257 → Except Fault (Vector Code 257)
  | 0, _, _, _ => .error .treeNotFinite
  | fuel + 1, j, p, ct =>
    match nodes[j]? with
    | none => .error (.noNode j)
    | some nd =>
      match nd.body with
      | .leaf sym => .ok (ct.set sym.val p sym.isLt)
      | .internal l r =>
        match walk nodes fuel l (p ++ [false]) ct with
        | .error f => .error f
        | .ok ct1 => walk nodes fuel r (p ++ [true]) ct1

/-- The code table of the tree with this root (R141); a single leaf gets the one-bit code 0 (R142). No path of a
tree is longer than its number of nodes (R143). -/
def genCodes (nodes : List Node) (root : Nat) : Except Fault (Vector Code 257) :=
  match nodes[root]? with
  | none => .error (.noNode root)
  | some nd =>
    match nd.body with
    | .leaf sym => .ok (emptyTable.set sym.val [false] sym.isLt)
    | .internal _ _ => walk nodes nodes.length root [] emptyTable

/-- GENCODES (R141). -/
def execGencodes (s : State) : Host.Outcome State Fault Refusal :=
  if s.treeValid = false then raise .sequence .gencodes s
  else
    match genCodes s.nodes s.root.toNat with
    | .error f => .fault f
    | .ok ct => respond 0 { s with ct := ct, ctValid := true }

/-- RDCLEN i (R145). -/
def execRdclen (i : BitVec 16) (s : State) : Host.Outcome State Fault Refusal :=
  match symbolOf i with
  | none => raise .badOperand (.rdclen i) s
  | some n =>
    if s.ctValid = false then raise .sequence (.rdclen i) s
    else respond (BitVec.ofNat 32 (s.ctRead n).length) s

/-- RDCODE s, i (R146). -/
def execRdcode (sel : BitVec 8) (i : BitVec 16) (s : State) : Host.Outcome State Fault Refusal :=
  match symbolOf i with
  | none => raise .badOperand (.rdcode sel i) s
  | some n =>
    if sel.toNat > 7 then raise .badOperand (.rdcode sel i) s
    else if s.ctValid = false then raise .sequence (.rdcode sel i) s
    else if (s.ctRead n).length = 0 then raise .noCode (.rdcode sel i) s
    else respond (codeWord (s.ctRead n) sel.toNat) s

end Sys2Proof.Machine
end

