-- ==== Sys2Proof/Machine/System.lean ====
section
/-! DEFINITION. The system commands NOP, RDSR and RESET (spec/44_system_commands.md R170 to R172). -/

namespace Sys2Proof.Machine

/-- NOP (R170). -/
def execNop (s : State) : Host.Outcome State Fault Refusal := respond 0 s

/-- RDSR i (R171). -/
def execRdsr (i : BitVec 16) (s : State) : Host.Outcome State Fault Refusal :=
  match s.srRead i.toNat with
  | none => raise .badOperand (.rdsr i) s
  | some v => respond v s

/-- RESET (R172). -/
def execReset (s : State) : Host.Outcome State Fault Refusal := respond 0 (resetState s)

end Sys2Proof.Machine
end

