-- ==== Sys2Proof/Machine/TreeBuilder.lean ====
section
/-! DEFINITION. HTB, the Huffman tree builder: CLRFREQ, SETFREQ, RDFREQ, BUILD, RDNODE (spec/40_tree_builder.md
R121 to R133). -/

namespace Sys2Proof.Machine

/-! ### BUILD's algorithm (R124) -/

/-- A leaf as step 1 makes it. -/
def leafNode (sym : SymbolId) (freq : NodeFreq) : Node := { body := .leaf sym, freq := freq, parent := none }

/-- The leaves of the byte values, in ascending order of byte value; a zero count makes none (R23, R125). -/
def byteLeaves (ft : Vector Data 256) : List Node :=
  (List.finRange 256).filterMap fun b =>
    if ft[b.val] = 0#32 then none else some (leafNode b.castSucc (ft[b.val].zeroExtend 41))

/-- Step 1: the leaves in arrival order, the sentinel's last with frequency 1 (R125). -/
def leaves (ft : Vector Data 256) : List Node := byteLeaves ft ++ [leafNode Config.eos 1#41]

/-- `NODE[j].freq` as a number. -/
def freqAt (nodes : List Node) (j : Nat) : Nat :=
  match nodes[j]? with
  | some nd => nd.freq.toNat
  | none => 0

/-- The queue order (R126): by frequency, and among equal frequencies by arrival, which is the index (R39). -/
def popsBefore (nodes : List Node) (a b : Nat) : Bool :=
  decide (freqAt nodes a < freqAt nodes b) || (decide (freqAt nodes a = freqAt nodes b) && decide (a < b))

/-- The index that pops first among `best` and those of `q`. -/
def firstOf (nodes : List Node) : Nat → List Nat → Nat
  | best, [] => best
  | best, j :: q => firstOf nodes (if popsBefore nodes j best then j else best) q

/-- `popmin(Q)`: the index removed and the queue without it (R124); none when the queue is empty. -/
def popmin (nodes : List Node) (q : List Nat) : Option (Nat × List Nat) :=
  match q with
  | [] => none
  | j :: js => some (firstOf nodes j js, (j :: js).erase (firstOf nodes j js))

/-- `NODE[j].parent <- n`. -/
def setParent (nodes : List Node) (j n : Nat) : List Node :=
  nodes.modify j fun nd => { nd with parent := some n }

/-- The merge of R124 and R127: the node removed first becomes the left child, the one removed second the right, and
the new node, at the next free index, has the sum of their frequencies. -/
def mergePair (nodes : List Node) (a b : Nat) : List Node :=
  setParent (setParent nodes a nodes.length) b nodes.length ++
    [{ body := .internal a b, freq := BitVec.ofNat 41 (freqAt nodes a + freqAt nodes b), parent := none }]

/-- Step 3: merge while more than one node is queued. A pass leaves one node fewer in the queue, so the number of
leaves bounds the passes (R128; log entry 10, DEDUCED). -/
def mergeLoop : Nat → List Node → List Nat → List Node × List Nat
  | 0, nodes, q => (nodes, q)
  | fuel + 1, nodes, q =>
    match popmin nodes q with
    | none => (nodes, q)
    | some (a, q1) =>
      match popmin nodes q1 with
      | none => (nodes, q)
      | some (b, q2) => mergeLoop fuel (mergePair nodes a b) (q2 ++ [nodes.length])

/-- Steps 2 and 3: the finished arena and what is left in the queue. -/
def buildTree (ft : Vector Data 256) : List Node × List Nat :=
  mergeLoop (leaves ft).length (leaves ft) (List.range (leaves ft).length)

/-- Step 4: the index of the root, the one element left in the queue. -/
def rootOf (q : List Nat) : Nat :=
  match q with
  | j :: _ => j
  | [] => 0

/-! ### The commands -/

/-- CLRFREQ (R121). -/
def execClrfreq (s : State) : Host.Outcome State Fault Refusal :=
  respond 0 (invalidate { s with ft := zeroFt })

/-- SETFREQ i, d (R122). -/
def execSetfreq (i : BitVec 16) (d : BitVec 32) (s : State) : Host.Outcome State Fault Refusal :=
  match byteSymbolOf i with
  | none => raise .badOperand (.setfreq i d) s
  | some b => respond 0 (invalidate (s.ftWrite b d))

/-- RDFREQ i (R123). -/
def execRdfreq (i : BitVec 16) (s : State) : Host.Outcome State Fault Refusal :=
  match symbolOf i with
  | none => raise .badOperand (.rdfreq i) s
  | some n => respond (s.ftRead n) s

/-- BUILD (R124). The check for an empty input is kept, though the sentinel's leaf makes it unreachable (R129). -/
def execBuild (s : State) : Host.Outcome State Fault Refusal :=
  if (leaves s.ft).length = 0 then raise .emptyInput .build s
  else
    respond 0
      { s with
        nodes := (buildTree s.ft).1
        root := BitVec.ofNat 32 (rootOf (buildTree s.ft).2)
        nleaf := BitVec.ofNat 32 (leaves s.ft).length
        nnode := BitVec.ofNat 32 (buildTree s.ft).1.length
        treeValid := true
        ctValid := false }

/-- RDNODE s, i (R132), with its checks in the order R132 and R213 give. -/
def execRdnode (sel : BitVec 8) (i : BitVec 16) (s : State) : Host.Outcome State Fault Refusal :=
  if sel.toNat > 6 then raise .badOperand (.rdnode sel i) s
  else if s.treeValid = false then raise .sequence (.rdnode sel i) s
  else if i.toNat ≥ s.nnode.toNat then raise .badOperand (.rdnode sel i) s
  else
    match s.nodes[i.toNat]? with
    | none => .fault (.noNode i.toNat)
    | some nd =>
      match nodeField sel.toNat nd (decide (i.toNat = s.root.toNat)) with
      | none => raise .badOperand (.rdnode sel i) s
      | some v => respond v s

end Sys2Proof.Machine
end

