-- ==== Sys2Proof/Machine/Dispatch.lean ====
section
/-! DEFINITION. One arm per command: its meaning (spec/30_encoding.md R94, column "semantics"). -/

namespace Sys2Proof.Machine

/-- Executes one decoded command (R95 step 3). -/
def exec (i : Instr) (s : State) : Host.Outcome State Fault Refusal :=
  match i with
  | .nop => Sys2Proof.Machine.execNop s
  | .rdsr idx => Sys2Proof.Machine.execRdsr idx s
  | .reset => Sys2Proof.Machine.execReset s
  | .clrfreq => Sys2Proof.Machine.execClrfreq s
  | .setfreq idx dat => Sys2Proof.Machine.execSetfreq idx dat s
  | .rdfreq idx => Sys2Proof.Machine.execRdfreq idx s
  | .build => Sys2Proof.Machine.execBuild s
  | .rdnode sel idx => Sys2Proof.Machine.execRdnode sel idx s
  | .gencodes => Sys2Proof.Machine.execGencodes s
  | .rdclen idx => Sys2Proof.Machine.execRdclen idx s
  | .rdcode sel idx => Sys2Proof.Machine.execRdcode sel idx s
  | .pkreset => Sys2Proof.Machine.execPkreset s
  | .pushbit dat => Sys2Proof.Machine.execPushbit dat s
  | .pushsym idx => Sys2Proof.Machine.execPushsym idx s
  | .rdpk dat => Sys2Proof.Machine.execRdpk dat s
  | .upreset => Sys2Proof.Machine.execUpreset s
  | .upbyte dat => Sys2Proof.Machine.execUpbyte dat s
  | .uprewind => Sys2Proof.Machine.execUprewind s
  | .nextbit => Sys2Proof.Machine.execNextbit s

end Sys2Proof.Machine
end

