-- ==== Sys2Proof/Machine/Step.lean ====
section
/-! DEFINITION. One step of the block (spec/20_memory.md R71, spec/30_encoding.md R95, spec/70_reset_and_hazards.md
R230, R231, R241): it takes the first thing the host presents, or waits. -/

namespace Sys2Proof.Machine

/-- One step. With nothing presented the block waits (R231; log entry 3, DESIGN CHOICE). A hard reset comes between two
commands (R233; log entry 9, DESIGN CHOICE). A command word is decoded and executed to completion (R95). -/
def step (s : State) : Host.Outcome State Fault Refusal :=
  match takeEvent s with
  | none => .next s
  | some (.hardReset, t) => .next (hardReset t)
  | some (.command w, t) =>
    match decode w with
    | .ok i => exec i t
    | .error why => illegalCommand why w t

/-- The state in which the host presents the command whose table bits are `w` before anything else (log entry 4, DESIGN
CHOICE). -/
def State.withFetchWord (s : State) (nbits w : Nat) : State := s.present (.command (tableWord nbits w))

end Sys2Proof.Machine
end

