-- ==== Sys2Proof/Machine/HostSeq.lean ====
section
/-! DEFINITION. The five pseudo-commands (spec/45_host_sequences.md R180 to R189, spec/30_encoding.md R111):
procedures a host runs, made of the block's commands and host computation. They add no state and no command to the
block (R4). Their form is log entry 8, DESIGN CHOICE. -/

namespace Sys2Proof.Machine

/-- Why a sequence is abandoned (R180): an error code, of the block or of the host's own; or no response came, which
the block never does in a state that satisfies `StateInv`. -/
inductive Abandon where
  | reported (code : BitVec 8)
  | noResponse
deriving DecidableEq, Repr

/-- The host abandons the sequence with one of the codes of R200. -/
def abandonWith (e : ErrCode) : Abandon := .reported e.code

/-- A code table outside the block (R181): its entries, one for each symbol that has a code. -/
abbrev CodeMap := List (Nat × Code)

/-- `exec(c)` of R180: present a command word, wait for its response. -/
def issue (w : CommandWord) (s : State) : Option (Response × State) :=
  match step (s.present (.command w)) with
  | .next t => t.resp.map fun r => (r, t)
  | .fault _ => none
  | .refused _ => none

/-- `must(c)` of R180: the response's `rdata`, or the sequence is abandoned with the error reported. -/
def must (i : Instr) (s : State) : Except Abandon (Data × State) :=
  match issue (encode i) s with
  | none => .error .noResponse
  | some (r, t) => if r.err = 0 then .ok (r.rdata, t) else .error (.reported r.err)

/-- `must` of each command in order, with the data each returns. -/
def mustEach : List Instr → State → Except Abandon (List Data × State)
  | [], s => .ok ([], s)
  | i :: is, s =>
    match must i s with
    | .error e => .error e
    | .ok (x, t) =>
      match mustEach is t with
      | .error e => .error e
      | .ok (xs, u) => .ok (x :: xs, u)

/-! ### HISTLOAD (R182) -/

/-- `h[v]`: the number of positions of `B` that hold byte value `v`. -/
def histogram (B : List Byte) (v : Nat) : Nat := B.countP fun b => b.toNat == v

/-- The commands of HISTLOAD: CLRFREQ, and one SETFREQ for each byte value present. -/
def histCommands (B : List Byte) : List Instr :=
  .clrfreq :: (List.range 256).filterMap fun v =>
    if histogram B v = 0 then none else some (.setfreq (BitVec.ofNat 16 v) (BitVec.ofNat 32 (histogram B v)))

/-- What the host does once it has counted: refuse a count that does not fit 32 bits with E_CAPACITY, or issue the
commands. It takes no state: no command has been issued by then. -/
def histPlan (B : List Byte) : Except Abandon (List Instr) :=
  if (List.range 256).any fun v => decide (histogram B v ≥ 2 ^ 32) then .error (abandonWith .capacity)
  else .ok (histCommands B)

/-- HISTLOAD(B). -/
def histLoad (B : List Byte) (s : State) : Except Abandon State :=
  match histPlan B with
  | .error e => .error e
  | .ok is =>
    match mustEach is s with
    | .error e => .error e
    | .ok (_, t) => .ok t

/-! ### GETTABLE (R183) -/

/-- The bits of the words that RDCODE returned for a code of `n` bits. -/
def bitsOfWords (n : Nat) (ws : List Data) : Code :=
  (ws.flatMap fun w => (List.range 32).map fun k => w.getLsbD (31 - k)).take n

/-- GETTABLE's commands for one symbol whose code has `n` bits: RDCODE of words 0 to (n − 1) div 32. -/
def codeCommands (t n : Nat) : List Instr :=
  (List.range ((n - 1) / 32 + 1)).map fun w => .rdcode (BitVec.ofNat 8 w) (BitVec.ofNat 16 t)

/-- GETTABLE over the symbols of a list. -/
def getTableOf : List Nat → State → Except Abandon (CodeMap × State)
  | [], s => .ok ([], s)
  | t :: ts, s =>
    match must (.rdclen (BitVec.ofNat 16 t)) s with
    | .error e => .error e
    | .ok (n, s1) =>
      if n = 0 then getTableOf ts s1
      else
        match mustEach (codeCommands t n.toNat) s1 with
        | .error e => .error e
        | .ok (ws, s2) =>
          match getTableOf ts s2 with
          | .error e => .error e
          | .ok (m, s3) => .ok ((t, bitsOfWords n.toNat ws) :: m, s3)

/-- GETTABLE: the symbols 0 to 256. -/
def getTable (s : State) : Except Abandon (CodeMap × State) := getTableOf (List.range 257) s

/-! ### COMPRESS (R184) -/

/-- The commands of COMPRESS between HISTLOAD and GETTABLE. -/
def packCommands (B : List Byte) : List Instr :=
  [.build, .gencodes, .pkreset] ++ (B.map fun v => .pushsym (v.zeroExtend 16)) ++ [.pushsym 256#16]

/-- COMPRESS(B): the code table and the packed bytes. -/
def compress (B : List Byte) (s : State) : Except Abandon ((CodeMap × List Byte) × State) :=
  match histLoad B s with
  | .error e => .error e
  | .ok s1 =>
    match mustEach (packCommands B) s1 with
    | .error e => .error e
    | .ok (_, s2) =>
      match getTable s2 with
      | .error e => .error e
      | .ok (T, s3) =>
        match must (.rdsr 10#16) s3 with
        | .error e => .error e
        | .ok (n, s4) =>
          match mustEach ((List.range n.toNat).map fun a => .rdpk (BitVec.ofNat 32 a)) s4 with
          | .error e => .error e
          | .ok (P, s5) => .ok ((T, P.map fun x => x.extractLsb' 0 8), s5)

/-! ### TABLECHECK (R185) -/

/-- `p` is a prefix of `q` (R10). -/
def startsWith : Code → Code → Bool
  | [], _ => true
  | _ :: _, [] => false
  | b :: p, c :: q => (b == c) && startsWith p q

/-- TABLECHECK(T): an entry for the sentinel (a), no code a prefix of another symbol's code (b, c), every symbol 0 to
256 (d), every code of 1 to 256 bits (e). -/
def tableCheck (T : CodeMap) : Bool :=
  T.any (fun e => e.1 == Config.eos.val) &&
  T.all (fun e => T.all fun f => e.1 == f.1 || !startsWith e.2 f.2) &&
  T.all (fun e => decide (e.1 ≤ 256) && decide (1 ≤ e.2.length) && decide (e.2.length ≤ Config.maxCodeLen))

/-! ### DECOMPRESS (R186) -/

/-- `inv[cand]`: the symbol whose code is `cand` (R188: at most one). -/
def symbolFor (T : CodeMap) (cand : Code) : Option Nat := (T.find? fun e => e.2 == cand).map (·.1)

/-- The decode loop (R186, R187). Each pass takes one bit of finitely many, so their number bounds the passes (R188);
`fuel` is never used up. -/
def decodeLoop (T : CodeMap) : Nat → Code → List Byte → State → Except Abandon (List Byte × State)
  | 0, _, _, _ => .error .noResponse
  | fuel + 1, cand, out, s =>
    match must (.rdsr 1#16) s with
    | .error e => .error e
    | .ok (status, s1) =>
      if status.getLsbD 3 then .error (abandonWith .truncated)
      else
        match must .nextbit s1 with
        | .error e => .error e
        | .ok (b, s2) =>
          match symbolFor T (cand ++ [b.getLsbD 0]) with
          | none => decodeLoop T fuel (cand ++ [b.getLsbD 0]) out s2
          | some t =>
            if t = Config.eos.val then .ok (out, s2)
            else decodeLoop T fuel [] (out ++ [BitVec.ofNat 8 t]) s2

/-- DECOMPRESS(T, P). -/
def decompress (T : CodeMap) (P : List Byte) (s : State) : Except Abandon (List Byte × State) :=
  if tableCheck T = false then .error (abandonWith .invalidTable)
  else
    match mustEach (.upreset :: P.map fun v => .upbyte (v.zeroExtend 32)) s with
    | .error e => .error e
    | .ok (_, s1) => decodeLoop T (8 * P.length + 1) [] [] s1

end Sys2Proof.Machine
end

