-- ==== Sys2Proof/Safety.lean ====
section
/-! DEFINITION. The terms the claims use: the invariants of a state (spec/10_state.md R31 to R48, spec/42_bit_packer.md
R155, spec/43_bit_unpacker.md R165), the bit sequences the two memories hold (spec/20_memory.md R62), the stream of an input (spec/30_encoding.md R107), the shape of a tree
(spec/40_tree_builder.md R130) and when two states are the same to the host (spec/93_implementation_defined.md U3). -/

namespace Sys2Proof.Machine

/-! ### The bit sequences in the memories -/

/-- Bit number `k` of the packed stream: bit (7 − k mod 8) of PMEM[k div 8] (R62). -/
def pmemBit (s : State) (k : Nat) : Bool := bitOf (Memory.read s.pmem (streamAddr k)) (streamPos k)

/-- Bit number `k` of the unpacker's stream: bit (7 − k mod 8) of UMEM[k div 8] (R62). -/
def umemBit (s : State) (k : Nat) : Bool := bitOf (Memory.read s.umem (streamAddr k)) (streamPos k)

/-- The bits in the packer, oldest first (R47). -/
def packedBits (s : State) : Code := (List.range s.pkBitcnt.toNat).map (pmemBit s)

/-- The bits in the unpacker, oldest first: 8 × UP_LEN of them (R160). -/
def loadedBits (s : State) : Code := (List.range (8 * s.upLen.toNat)).map (umemBit s)

/-- The bits the unpacker has still to give (R35). -/
def remainingBits (s : State) : Code := (loadedBits s).drop s.upPos.toNat

/-- The eight bits of a byte, most significant first (R60). -/
def byteBits (B : Byte) : Code := (List.range 8).map fun j => bitOf B (streamPos j)

/-- The symbol of a byte value (R18). -/
def byteSymbol (b : Byte) : SymbolId := ⟨b.toNat, Nat.lt_succ_of_lt b.isLt⟩

/-- FT with the number of positions of `B` that hold each byte value (R182). -/
def histogramTable (B : List Byte) : Vector Data 256 := Vector.ofFn fun v => BitVec.ofNat 32 (histogram B v.val)

/-- The code that BUILD and GENCODES give a symbol for a frequency table (R124, R141). -/
def codeFor (ft : Vector Data 256) (n : SymbolId) : Code :=
  match genCodes (buildTree ft).1 (rootOf (buildTree ft).2) with
  | .ok ct => ct[n.val]
  | .error _ => []

/-- The encoded stream of an input (R107): the code of each byte in order, then the sentinel's. -/
def encodedStream (B : List Byte) : Code :=
  B.flatMap (fun b => codeFor (histogramTable B) (byteSymbol b)) ++ codeFor (histogramTable B) Config.eos

/-! ### Invariants -/

/-- The bounds of R8, R34, R35 and R165. -/
structure CountersInBounds (s : State) : Prop where
  params : s.params.ok = true
  pk : s.pkBitcnt.toNat ≤ 8 * s.params.pbufBytes
  upLen : s.upLen.toNat ≤ s.params.ubufBytes
  upPos : s.upPos.toNat ≤ 8 * s.upLen.toNat

/-- Both memories are in canonical form and hold no byte at or above their capacity (R68, R69). -/
structure MemoriesCanonical (s : State) : Prop where
  pmem : Memory.wf s.pmem = true
  umem : Memory.wf s.umem = true
  pmemAddr : ∀ c ∈ s.pmem, c.1 < s.params.pbufBytes
  umemAddr : ∀ c ∈ s.umem, c.1 < s.params.ubufBytes

/-- The unused low bits of the packer's last byte are 0 (R47, R155). -/
def PaddingZero (s : State) : Prop :=
  ∀ k, s.pkBitcnt.toNat ≤ k → k < 8 * s.pkByteLen → pmemBit s k = false

/-- R45's invariant, and that NLEAF, NNODE and ROOT are 0 without a tree (R31 to R33). -/
structure FlagsCoherent (s : State) : Prop where
  ctNeedsTree : s.ctValid = true → s.treeValid = true
  noTree : s.treeValid = false → s.nleaf = 0 ∧ s.nnode = 0 ∧ s.root = 0

/-- R45: "TREE_VALID = 1 says NODE is the tree of the present FT". -/
def TreeIsOfPresentFt (s : State) : Prop :=
  s.treeValid = true →
    s.nodes = (buildTree s.ft).1 ∧ s.root.toNat = rootOf (buildTree s.ft).2 ∧
    s.nleaf.toNat = (leaves s.ft).length ∧ s.nnode.toNat = s.nodes.length

/-- R45: "CT_VALID = 1 says CT is the code table of the present tree". -/
def TableIsOfPresentTree (s : State) : Prop :=
  s.ctValid = true → genCodes s.nodes s.root.toNat = .ok s.ct

/-- The error record is coherent (R28 to R30): the bits of the codes the block never raises are 0; without an error
all four registers are 0; with one, LASTERR is a code the block raises and its bit is set. -/
structure ErrorRecordCoherent (s : State) : Prop where
  neverRaised : s.errflags &&& 0b000001101#9 = 0
  noError : s.lasterr = 0 → s.errflags = 0 ∧ s.ecmdLo = 0 ∧ s.ecmdHi = 0
  lastError : s.lasterr ≠ 0 → ∃ e : ErrCode, s.lasterr = e.code ∧ s.errflags &&& e.flag = e.flag

/-- The invariant of the machine. -/
structure StateInv (s : State) : Prop where
  counters : CountersInBounds s
  memories : MemoriesCanonical s
  padding : PaddingZero s
  flags : FlagsCoherent s
  tree : TreeIsOfPresentFt s
  table : TableIsOfPresentTree s
  errors : ErrorRecordCoherent s

/-! ### Reset -/

/-- Every value of R52 that software can read, and the stored state behind it. -/
structure HasResetValues (s : State) : Prop where
  ft : ∀ n : SymbolId, n ≠ Config.eos → s.ftRead n = 0
  sentinel : s.ftRead Config.eos = 1
  flags : s.treeValid = false ∧ s.ctValid = false
  tree : s.nleaf = 0 ∧ s.nnode = 0 ∧ s.root = 0
  packer : s.pkBitcnt = 0 ∧ s.pkByteLen = 0
  unpacker : s.upLen = 0 ∧ s.upPos = 0
  errors : s.errflags = 0 ∧ s.lasterr = 0 ∧ s.ecmdLo = 0 ∧ s.ecmdHi = 0
  status : s.srRead 1 = some 0x00000008#32
  constants : s.srRead 0 = some 0x48554631#32 ∧ s.srRead 13 = some (BitVec.ofNat 32 s.params.pbufBytes) ∧
    s.srRead 14 = some (BitVec.ofNat 32 s.params.ubufBytes)

/-! ### The shape of a tree -/

/-- Node `j` is a leaf of symbol `n`. -/
def IsLeaf (nodes : List Node) (j : Nat) (n : SymbolId) : Prop := ∃ nd, nodes[j]? = some nd ∧ nd.body = .leaf n

/-- Node `j` is an internal node with children `l` and `r`. -/
def IsInternal (nodes : List Node) (j l r : Nat) : Prop :=
  ∃ nd, nodes[j]? = some nd ∧ nd.body = .internal l r

/-- Node `j` pops before node `k` (R124, R126): a smaller frequency, or an equal one and an earlier arrival. -/
def PopsBefore (nodes : List Node) (j k : Nat) : Prop :=
  freqAt nodes j < freqAt nodes k ∨ (freqAt nodes j = freqAt nodes k ∧ j < k)

/-- `NODE[j].parent`. -/
def parentAt (nodes : List Node) (j : Nat) : Option Nat := nodes[j]?.bind (·.parent)

/-- Node `j` is queued when node `k` is made: it is there already, and no node before `k` is its parent (R124). -/
def QueuedAt (nodes : List Node) (k j : Nat) : Prop := j < k ∧ ∀ p, parentAt nodes j = some p → k ≤ p

/-- The node reached from `j` by a code, 0 to the left and 1 to the right (R141); none past a leaf. -/
def follow (nodes : List Node) : Nat → Code → Option Nat
  | j, [] => some j
  | j, b :: c =>
    match nodes[j]? with
    | none => none
    | some nd =>
      match nd.body with
      | .leaf _ => none
      | .internal l r => follow nodes (if b then r else l) c

/-- `p` is a prefix of `q`, and so is every sequence of itself (R10). -/
def IsPrefixOf (p q : Code) : Prop := ∃ r, q = p ++ r

/-- No code of a table is a prefix of another symbol's code (R43 (b)). -/
def PrefixFree (ct : SymbolId → Code) : Prop :=
  ∀ m n : SymbolId, m ≠ n → ct m ≠ [] → ct n ≠ [] → ¬ IsPrefixOf (ct m) (ct n)

/-! ### What the host can see -/

/-- Two states are the same to the host (U3, R40, R44, R47, R48): they differ at most in NODE without a valid tree, CT
without a valid table, PMEM at or above PK_BYTELEN and UMEM at or above UP_LEN. -/
structure SameToHost (s t : State) : Prop where
  params : s.params = t.params
  ft : s.ft = t.ft
  treeValid : s.treeValid = t.treeValid
  ctValid : s.ctValid = t.ctValid
  nleaf : s.nleaf = t.nleaf
  nnode : s.nnode = t.nnode
  root : s.root = t.root
  nodes : s.treeValid = true → s.nodes = t.nodes
  ct : s.ctValid = true → s.ct = t.ct
  pkBitcnt : s.pkBitcnt = t.pkBitcnt
  pmem : ∀ a, a < s.pkByteLen → Memory.read s.pmem a = Memory.read t.pmem a
  upLen : s.upLen = t.upLen
  upPos : s.upPos = t.upPos
  umem : ∀ a, a < s.upLen.toNat → Memory.read s.umem a = Memory.read t.umem a
  errflags : s.errflags = t.errflags
  lasterr : s.lasterr = t.lasterr
  ecmdLo : s.ecmdLo = t.ecmdLo
  ecmdHi : s.ecmdHi = t.ecmdHi
  input : s.input = t.input
  resp : s.resp = t.resp

end Sys2Proof.Machine
end

