-- ==== Sys2Proof/Certificates/Slice0/Obligations.lean ====
section
/-! DEFINITION. The statements for the provers. Each docstring names the rules of spec/ it formalises and the log
entries (notes/assumptions/) it rests on, if any. -/

open Sys2Proof Sys2Proof.Machine

/-! ### Encoding -/

/-- Words written out field by field from R90 and the opcode map of R94 decode to the commands they stand for; the two
illegal words of 30_encoding.md R102 and 95_test_vectors.md Program 3 are refused by name. -/
def Obligations.SpecWordsDecodeToTheirCommands : Prop :=
  decode 0x0000000000000000#64 = .ok .nop ∧
  decode 0x0100000E00000000#64 = .ok (.rdsr 14#16) ∧
  decode 0x1100004100000002#64 = .ok (.setfreq 0x41#16 2#32) ∧
  decode 0x1300000000000000#64 = .ok .build ∧
  decode 0x1404000600000000#64 = .ok (.rdnode 4#8 6#16) ∧
  decode 0x2207010000000000#64 = .ok (.rdcode 7#8 256#16) ∧
  decode 0x3200010000000000#64 = .ok (.pushsym 256#16) ∧
  decode 0x41000000000000B0#64 = .ok (.upbyte 0xB0#32) ∧
  decode 0x1300000100000000#64 = .error (.nonzeroUnusedField 0x13#8) ∧
  decode 0x0500000000000000#64 = .error (.unknownOpcode 0x05#8)

/-- R90, R91, R97: no bit of an encoding is dropped. It holds for every operand value, in range or not. -/
def Obligations.EncodedCommandDecodesToItself : Prop :=
  ∀ i : Instr, decode (encode i) = .ok i

/-- R91, R95: a word has at most one reading, and a command exactly one word; so the word of R211 that an error
records is the command's encoding. -/
def Obligations.DecodedWordIsTheEncodingOfItsCommand : Prop :=
  ∀ (w : CommandWord) (i : Instr), decode w = .ok i → encode i = w

/-- R96: "a word `cmd` is the command of the unique row with `cmd & mask = match`; if no row matches, the word is
illegal". -/
def Obligations.DecoderFollowsMaskMatchTable : Prop :=
  (∀ (w : CommandWord) (i : Instr), decode w = .ok i →
    ∃ row ∈ maskMatchTable, row.1 = i.mnemonic ∧ w &&& row.2.1 = row.2.2) ∧
  (∀ (w : CommandWord), ∀ row ∈ maskMatchTable, w &&& row.2.1 = row.2.2 →
    ∃ i : Instr, decode w = .ok i ∧ i.mnemonic = row.1)

/-- R101, R102: a word that matches no row of the opcode table (an unknown opcode, or a legal one with a non-zero unused
field) ends with E_ILLEGAL_CMD, code 5, and changes nothing but the error registers. -/
def Obligations.IllegalWordOnlyRecordsIllegalCmd : Prop :=
  ∀ (s : State) (w : CommandWord) (rest : List HostEvent), s.input = .command w :: rest →
    (∀ row ∈ maskMatchTable, w &&& row.2.1 ≠ row.2.2) →
    step s = .next { s with
      input := rest, errflags := s.errflags ||| 0b000010000#9, lasterr := 5#8,
      ecmdLo := w.extractLsb' 0 32, ecmdHi := w.extractLsb' 32 32, resp := some { err := 5#8, rdata := 0 } }

/-- R92: the response word is 24 zero bits, `err` and `rdata`; no field is dropped. -/
def Obligations.ResponseWordHoldsErrAndData : Prop :=
  ∀ r : Response, r.word.extractLsb' 40 24 = 0 ∧ r.word.extractLsb' 32 8 = r.err ∧ r.word.extractLsb' 0 32 = r.rdata

/-! ### The step -/

/-- R95 step (3), R71: the block executes the first command the host presents, and takes it off the port. -/
def Obligations.StepRunsTheDecodedCommand : Prop :=
  ∀ (s : State) (w : CommandWord) (rest : List HostEvent) (i : Instr), s.input = .command w :: rest →
    decode w = .ok i → step s = exec i { s with input := rest }

/-- 70_reset_and_hazards.md R231: with nothing presented the block waits. That waiting is a step that changes nothing is
the model's choice (log entry 3). -/
def Obligations.StepWithNothingPresentedWaits : Prop :=
  ∀ s : State, s.input = [] → step s = .next s

/-- R230: a hard reset gives every piece of state the value of R52 and returns no response. It keeps the parameters (R36)
and what the host has still to present. -/
def Obligations.HardResetRestoresTheResetValues : Prop :=
  ∀ (s : State) (rest : List HostEvent), s.input = .hardReset :: rest →
    ∃ t, step s = .next t ∧ HasResetValues t ∧ t.params = s.params ∧ t.input = rest ∧ t.resp = none

/-- R52: the state right after reset has the values of R52, whatever the parameters; nothing has been answered. -/
def Obligations.ResetStateHasTheResetValues : Prop :=
  (∀ p : Params, HasResetValues (State.resetWith p) ∧ (State.resetWith p).params = p ∧
    (State.resetWith p).resp = none) ∧
  State.reset = State.resetWith { pbufBytes := 65536, ubufBytes := 65536 }

/-! ### Errors -/

/-- R211, R212, R93: a command either succeeds and, RESET apart, leaves the error registers alone, or it ends with an
error and has written nothing but the four error registers and the response, exactly as R211 says. -/
def Obligations.CommandSucceedsOrOnlyRecordsItsError : Prop :=
  ∀ (i : Instr) (s t : State), exec i s = .next t →
    (∃ v, t.resp = some { err := 0, rdata := v } ∧
      (i ≠ .reset → t.errflags = s.errflags ∧ t.lasterr = s.lasterr ∧ t.ecmdLo = s.ecmdLo ∧ t.ecmdHi = s.ecmdHi)) ∨
    (∃ e : ErrCode, t = { s with
      errflags := s.errflags ||| (1#9 <<< (e.code.toNat - 1)), lasterr := e.code,
      ecmdLo := (encode i).extractLsb' 0 32, ecmdHi := (encode i).extractLsb' 32 32,
      resp := some { err := e.code, rdata := 0 } })

/-- R200, column "raised by", with R201 to R209: each command succeeds or ends with a code of its own. E_ILLEGAL_CMD is
raised by decoding alone, E_EMPTY_INPUT, E_TRUNCATED and E_INVALID_TABLE by no command. -/
def Obligations.CommandsRaiseOnlyTheirCodes : Prop :=
  ∀ (i : Instr) (s t : State) (r : Response), exec i s = .next t → t.resp = some r → r.err = 0 ∨
    match i with
    | .nop | .reset | .clrfreq | .build | .pkreset | .upreset | .uprewind => False
    | .rdsr _ | .setfreq _ _ | .rdfreq _ | .rdpk _ => r.err = 6
    | .rdnode _ _ | .rdclen _ => r.err = 6 ∨ r.err = 7
    | .gencodes => r.err = 7
    | .rdcode _ _ => r.err = 6 ∨ r.err = 7 ∨ r.err = 8
    | .pushbit _ | .upbyte _ => r.err = 6 ∨ r.err = 9
    | .pushsym _ => r.err = 6 ∨ r.err = 7 ∨ r.err = 8 ∨ r.err = 9
    | .nextbit => r.err = 2

/-- R206, R213: a command with an operand outside its fixed range ends with E_BAD_OPERAND, code 6, whatever the state:
no other error goes before it. -/
def Obligations.OperandOutsideItsFixedRangeIsBadOperand : Prop :=
  ∀ (i : Instr) (s : State), ¬ i.WellFormed →
    exec i s = .next { s with
      errflags := s.errflags ||| 0b000100000#9, lasterr := 6#8,
      ecmdLo := (encode i).extractLsb' 0 32, ecmdHi := (encode i).extractLsb' 32 32,
      resp := some { err := 6#8, rdata := 0 } }

/-- R207: E_SEQUENCE, code 7, is raised by a command in range that needs a valid tree or code table when there is none,
and by nothing else. -/
def Obligations.SequenceErrorExactlyWithoutTreeOrTable : Prop :=
  ∀ (i : Instr) (s : State), i.WellFormed →
    (exec i s = .next (errorEntry .sequence (encode i) s) ↔
      (s.treeValid = false ∧ (i = .gencodes ∨ ∃ sel idx, i = .rdnode sel idx)) ∨
      (s.ctValid = false ∧ ((∃ n, i = .rdclen n) ∨ (∃ sel n, i = .rdcode sel n) ∨ ∃ n, i = .pushsym n)))

/-- R28, R215: a set bit of ERRFLAGS stays set until hard reset or RESET. -/
def Obligations.ErrorFlagsAreSticky : Prop :=
  ∀ (i : Instr) (s t : State) (k : Nat), i ≠ .reset → exec i s = .next t →
    s.errflags.getLsbD k = true → t.errflags.getLsbD k = true

/-! ### System commands -/

/-- R170: NOP does nothing and answers (0, 0); a word of its opcode with a non-zero unused field is illegal. -/
def Obligations.NopDoesNothing : Prop :=
  encode .nop = 0x0000000000000000#64 ∧
  (∀ s : State, exec .nop s = .next { s with resp := some { err := 0, rdata := 0 } }) ∧
  ∀ w : CommandWord, w.extractLsb' 56 8 = 0x00#8 → w ≠ 0x0000000000000000#64 →
    decode w = .error (.nonzeroUnusedField 0x00#8)

/-- R171: what RDSR returns for each of the 15 registers, the fields of STATUS included (R26); any other number is
E_BAD_OPERAND. -/
def Obligations.RdsrReturnsTheStatusRegister : Prop :=
  (∀ i, encode (.rdsr i) = 0x0100000000000000#64 ||| (i.zeroExtend 64 <<< 32)) ∧
  (∀ s : State,
    exec (.rdsr 0#16) s = .next { s with resp := some { err := 0, rdata := 0x48554631#32 } } ∧
    (∃ v : Data, exec (.rdsr 1#16) s = .next { s with resp := some { err := 0, rdata := v } } ∧
      v.getLsbD 0 = s.treeValid ∧ v.getLsbD 1 = s.ctValid ∧ (v.getLsbD 2 = true ↔ s.errflags ≠ 0) ∧
      (v.getLsbD 3 = true ↔ s.upPos.toNat = 8 * s.upLen.toNat) ∧ ∀ k, 4 ≤ k → v.getLsbD k = false) ∧
    exec (.rdsr 2#16) s = .next { s with resp := some { err := 0, rdata := s.errflags.zeroExtend 32 } } ∧
    exec (.rdsr 3#16) s = .next { s with resp := some { err := 0, rdata := s.lasterr.zeroExtend 32 } } ∧
    exec (.rdsr 4#16) s = .next { s with resp := some { err := 0, rdata := s.ecmdLo } } ∧
    exec (.rdsr 5#16) s = .next { s with resp := some { err := 0, rdata := s.ecmdHi } } ∧
    exec (.rdsr 6#16) s = .next { s with resp := some { err := 0, rdata := s.nleaf } } ∧
    exec (.rdsr 7#16) s = .next { s with resp := some { err := 0, rdata := s.nnode } } ∧
    exec (.rdsr 8#16) s = .next { s with resp := some { err := 0, rdata := s.root } } ∧
    exec (.rdsr 9#16) s = .next { s with resp := some { err := 0, rdata := s.pkBitcnt } } ∧
    exec (.rdsr 10#16) s = .next
      { s with resp := some { err := 0, rdata := BitVec.ofNat 32 ((s.pkBitcnt.toNat + 7) / 8) } } ∧
    exec (.rdsr 11#16) s = .next { s with resp := some { err := 0, rdata := s.upLen } } ∧
    exec (.rdsr 12#16) s = .next { s with resp := some { err := 0, rdata := s.upPos } } ∧
    exec (.rdsr 13#16) s = .next
      { s with resp := some { err := 0, rdata := BitVec.ofNat 32 s.params.pbufBytes } } ∧
    exec (.rdsr 14#16) s = .next
      { s with resp := some { err := 0, rdata := BitVec.ofNat 32 s.params.ubufBytes } }) ∧
  (∀ (s : State) (i : BitVec 16), 15 ≤ i.toNat →
    exec (.rdsr i) s = .next (errorEntry .badOperand (encode (.rdsr i)) s))

/-- R172: RESET gives every piece of state the value of R52 and answers (0, 0); its effect is that of a hard reset; no
other command clears the record of an error; a word of its opcode with a non-zero unused field is illegal, which resets
nothing (`IllegalWordOnlyRecordsIllegalCmd`). -/
def Obligations.ResetCommandRestoresTheResetValues : Prop :=
  encode .reset = 0x0200000000000000#64 ∧
  (∀ s : State, ∃ t, exec .reset s = .next t ∧ HasResetValues t ∧ t.params = s.params ∧ t.input = s.input ∧
    t.resp = some { err := 0, rdata := 0 } ∧ { t with resp := none } = hardReset s) ∧
  (∀ (i : Instr) (s t : State), exec i s = .next t →
    (s.errflags ≠ 0 ∧ t.errflags = 0 ∨ s.lasterr ≠ 0 ∧ t.lasterr = 0) → i = .reset) ∧
  ∀ w : CommandWord, w.extractLsb' 56 8 = 0x02#8 → w ≠ 0x0200000000000000#64 →
    decode w = .error (.nonzeroUnusedField 0x02#8)

/-! ### HTB -/

/-- R121: FT[256] stays 1, both tables become invalid whatever FT held, and a word of this opcode with a non-zero unused
field is illegal. -/
def Obligations.ClrfreqClearsTheTableAndInvalidates : Prop :=
  encode .clrfreq = 0x1000000000000000#64 ∧
  (∀ s : State, ∃ t, exec .clrfreq s = .next t ∧
    (∀ n : SymbolId, t.ftRead n = if n = Config.eos then 1 else 0) ∧
    t = { s with ft := t.ft, treeValid := false, ctValid := false, nleaf := 0, nnode := 0, root := 0,
                 resp := some { err := 0, rdata := 0 } }) ∧
  ∀ w : CommandWord, w.extractLsb' 56 8 = 0x10#8 → w ≠ 0x1000000000000000#64 →
    decode w = .error (.nonzeroUnusedField 0x10#8)

/-- R122: SETFREQ writes FT[i] alone and invalidates both tables whatever FT held; i ≥ 256 is E_BAD_OPERAND. -/
def Obligations.SetfreqWritesOneCountAndInvalidates : Prop :=
  (∀ i d, encode (.setfreq i d) = 0x1100000000000000#64 ||| (i.zeroExtend 64 <<< 32) ||| d.zeroExtend 64) ∧
  (∀ (i : BitVec 16) (d : BitVec 32) (s : State), i.toNat ≤ 255 → ∃ t, exec (.setfreq i d) s = .next t ∧
    (∀ n : SymbolId, t.ftRead n = if n.val = i.toNat then d else s.ftRead n) ∧
    t = { s with ft := t.ft, treeValid := false, ctValid := false, nleaf := 0, nnode := 0, root := 0,
                 resp := some { err := 0, rdata := 0 } }) ∧
  (∀ (i : BitVec 16) (d : BitVec 32) (s : State), 256 ≤ i.toNat →
    exec (.setfreq i d) s = .next (errorEntry .badOperand (encode (.setfreq i d)) s))

/-- R123, R21: RDFREQ of the sentinel answers 1 in every state. -/
def Obligations.RdfreqReturnsTheCount : Prop :=
  (∀ i, encode (.rdfreq i) = 0x1200000000000000#64 ||| (i.zeroExtend 64 <<< 32)) ∧
  (∀ (s : State) (n : SymbolId), exec (.rdfreq (BitVec.ofNat 16 n.val)) s =
    .next { s with resp := some { err := 0, rdata := s.ftRead n } }) ∧
  (∀ s : State, exec (.rdfreq 256#16) s = .next { s with resp := some { err := 0, rdata := 1 } }) ∧
  (∀ (s : State) (i : BitVec 16), 257 ≤ i.toNat →
    exec (.rdfreq i) s = .next (errorEntry .badOperand (encode (.rdfreq i)) s))

/-- R124, R129: BUILD succeeds in every state; NLEAF counts the non-zero counts and the sentinel, NNODE the nodes, the
tree becomes valid and the code table invalid, and nothing but NODE, ROOT, NLEAF, NNODE and the flags is written. -/
def Obligations.BuildCompletesAndWritesOnlyTheTree : Prop :=
  encode .build = 0x1300000000000000#64 ∧
  ∀ s : State, ∃ t, exec .build s = .next t ∧
    t.nleaf.toNat = ((List.finRange 257).filter fun n => s.ftRead n != 0).length ∧
    t.nnode.toNat = t.nodes.length ∧ t.nodes.length ≤ Config.maxNode ∧
    t = { s with nodes := t.nodes, root := t.root, nleaf := t.nleaf, nnode := t.nnode, treeValid := true,
                 ctValid := false, resp := some { err := 0, rdata := 0 } }

/-- R130, R38, R127 (the exact sums): the shape of the tree BUILD makes. The first NLEAF nodes are leaves with the
symbols of non-zero count, ascending, each with its count; every later node is internal, its children lie before it, are
different, have it as their parent, and its frequency is their exact sum; the root is the last node, has no parent, and
its frequency is 1 + FT[0] + … + FT[255]. -/
def Obligations.BuildMakesATreeOfTheTable : Prop :=
  ∀ s t : State, exec .build s = .next t →
    1 ≤ t.nleaf.toNat ∧ t.nleaf.toNat ≤ 257 ∧
    t.nnode.toNat = 2 * t.nleaf.toNat - 1 ∧ t.nodes.length = t.nnode.toNat ∧ t.root.toNat = t.nnode.toNat - 1 ∧
    (∀ n : SymbolId, (∃ j, j < t.nleaf.toNat ∧ IsLeaf t.nodes j n) ↔ s.ftRead n ≠ 0) ∧
    (∀ j k m n, j < k → k < t.nleaf.toNat → IsLeaf t.nodes j m → IsLeaf t.nodes k n → m < n) ∧
    (∀ j, j < t.nleaf.toNat → ∃ n, IsLeaf t.nodes j n ∧ freqAt t.nodes j = (s.ftRead n).toNat) ∧
    (∀ k, t.nleaf.toNat ≤ k → k < t.nnode.toNat → ∃ l r, IsInternal t.nodes k l r ∧ l < k ∧ r < k ∧ l ≠ r ∧
      parentAt t.nodes l = some k ∧ parentAt t.nodes r = some k ∧
      freqAt t.nodes k = freqAt t.nodes l + freqAt t.nodes r) ∧
    (∀ j, j < t.nnode.toNat - 1 → ∃ p, parentAt t.nodes j = some p ∧ j < p ∧ p < t.nnode.toNat) ∧
    parentAt t.nodes t.root.toNat = none ∧
    freqAt t.nodes t.root.toNat = 1 + ((List.finRange 256).map fun b => (s.ftRead b.castSucc).toNat).sum

/-- R124 step 3, R126, R127: whenever BUILD makes an internal node, its left child is the node that pops first of all
those queued at that moment, and its right child the one that pops first of the rest. With the shape of the tree this
fixes the tree. -/
def Obligations.BuildMergesTheTwoThatPopFirst : Prop :=
  ∀ (s t : State) (k l r : Nat), exec .build s = .next t → IsInternal t.nodes k l r →
    QueuedAt t.nodes k l ∧ QueuedAt t.nodes k r ∧
    (∀ j, QueuedAt t.nodes k j → j ≠ l → PopsBefore t.nodes l j) ∧
    (∀ j, QueuedAt t.nodes k j → j ≠ l → j ≠ r → PopsBefore t.nodes r j)

/-- R133: BUILD is a function of FT alone. -/
def Obligations.BuildDependsOnTheFrequencyTableAlone : Prop :=
  ∀ s t s' t' : State, s.ft = t.ft → exec .build s = .next s' → exec .build t = .next t' →
    s'.nodes = t'.nodes ∧ s'.root = t'.root ∧ s'.nleaf = t'.nleaf ∧ s'.nnode = t'.nnode

/-- R132: the seven fields of a node, a leaf's FREQ_HI of 0, and the errors in their order. -/
def Obligations.RdnodeReturnsTheFieldOfTheNode : Prop :=
  (∀ sel i, encode (.rdnode sel i) =
    0x1400000000000000#64 ||| (sel.zeroExtend 64 <<< 48) ||| (i.zeroExtend 64 <<< 32)) ∧
  (∀ (s : State) (i : BitVec 16) (nd : Node), s.treeValid = true → i.toNat < s.nnode.toNat →
    s.nodes[i.toNat]? = some nd →
    (∀ n, nd.body = .leaf n →
      exec (.rdnode 0#8 i) s = .next { s with resp := some { err := 0, rdata := 0 } } ∧
      exec (.rdnode 1#8 i) s = .next { s with resp := some { err := 0, rdata := BitVec.ofNat 32 n.val } } ∧
      exec (.rdnode 4#8 i) s = .next { s with resp := some { err := 0, rdata := 0xFFFFFFFF#32 } } ∧
      exec (.rdnode 5#8 i) s = .next { s with resp := some { err := 0, rdata := 0xFFFFFFFF#32 } }) ∧
    (∀ l r, nd.body = .internal l r →
      exec (.rdnode 0#8 i) s = .next { s with resp := some { err := 0, rdata := 1 } } ∧
      exec (.rdnode 1#8 i) s = .next { s with resp := some { err := 0, rdata := 0xFFFFFFFF#32 } } ∧
      exec (.rdnode 4#8 i) s = .next { s with resp := some { err := 0, rdata := BitVec.ofNat 32 l } } ∧
      exec (.rdnode 5#8 i) s = .next { s with resp := some { err := 0, rdata := BitVec.ofNat 32 r } }) ∧
    exec (.rdnode 2#8 i) s = .next { s with resp := some { err := 0, rdata := BitVec.ofNat 32 nd.freq.toNat } } ∧
    exec (.rdnode 3#8 i) s =
      .next { s with resp := some { err := 0, rdata := BitVec.ofNat 32 (nd.freq.toNat / 2 ^ 32) } } ∧
    (i.toNat = s.root.toNat →
      exec (.rdnode 6#8 i) s = .next { s with resp := some { err := 0, rdata := 0xFFFFFFFF#32 } }) ∧
    (∀ p, i.toNat ≠ s.root.toNat → nd.parent = some p →
      exec (.rdnode 6#8 i) s = .next { s with resp := some { err := 0, rdata := BitVec.ofNat 32 p } })) ∧
  (∀ (s : State) (i : BitVec 16) (n : SymbolId), TreeIsOfPresentFt s → s.treeValid = true →
    i.toNat < s.nnode.toNat → IsLeaf s.nodes i.toNat n →
    exec (.rdnode 3#8 i) s = .next { s with resp := some { err := 0, rdata := 0 } }) ∧
  (∀ (s : State) (sel : BitVec 8) (i : BitVec 16),
    (7 ≤ sel.toNat → exec (.rdnode sel i) s = .next (errorEntry .badOperand (encode (.rdnode sel i)) s)) ∧
    (sel.toNat ≤ 6 → s.treeValid = false →
      exec (.rdnode sel i) s = .next (errorEntry .sequence (encode (.rdnode sel i)) s)) ∧
    (sel.toNat ≤ 6 → s.treeValid = true → s.nnode.toNat ≤ i.toNat →
      exec (.rdnode sel i) s = .next (errorEntry .badOperand (encode (.rdnode sel i)) s)))

/-! ### CTG -/

/-- R141 (its frame and its error): with a valid tree GENCODES succeeds, writes CT and CT_VALID and nothing else;
without one it is E_SEQUENCE. What it writes is `GencodesGivesEachLeafItsPath`. -/
def Obligations.GencodesCompletesAndWritesOnlyTheTable : Prop :=
  encode .gencodes = 0x2000000000000000#64 ∧
  (∀ s : State, TreeIsOfPresentFt s → s.treeValid = true → ∃ t, exec .gencodes s = .next t ∧
    t = { s with ct := t.ct, ctValid := true, resp := some { err := 0, rdata := 0 } }) ∧
  (∀ s : State, s.treeValid = false → exec .gencodes s = .next (errorEntry .sequence (encode .gencodes) s))

/-- R141, R142: each leaf's code is its path from the root, 0 for left and 1 for right, and no other symbol has a code;
the leaf of a single-leaf tree, the sentinel, gets the one-bit code 0. -/
def Obligations.GencodesGivesEachLeafItsPath : Prop :=
  ∀ s t : State, TreeIsOfPresentFt s → s.treeValid = true → exec .gencodes s = .next t →
    (2 ≤ s.nleaf.toNat → ∀ (n : SymbolId) (c : Code), c ≠ [] →
      (t.ctRead n = c ↔ ∃ j, follow s.nodes s.root.toNat c = some j ∧ IsLeaf s.nodes j n)) ∧
    (s.nleaf.toNat = 1 → ∀ n : SymbolId, t.ctRead n = if n = Config.eos then [false] else [])

/-- R43 (a), (c), (d) and R144: with a valid code table, exactly the symbols of non-zero count have a code, each of 1 to
max(1, NLEAF − 1) bits, and the sentinel always has one. -/
def Obligations.CodeLengthsAreBounded : Prop :=
  ∀ s : State, StateInv s → s.ctValid = true → ∀ n : SymbolId,
    (1 ≤ (s.ctRead n).length ↔ s.ftRead n ≠ 0) ∧ (s.ctRead n).length ≤ max 1 (s.nleaf.toNat - 1) ∧
    (s.ctRead n).length ≤ Config.maxCodeLen ∧ 1 ≤ (s.ctRead Config.eos).length

/-- R43 (b), R191: "no code is a prefix of another code in the same table". -/
def Obligations.CodeTableIsPrefixFree : Prop :=
  ∀ s : State, StateInv s → s.ctValid = true → PrefixFree s.ctRead

/-- R120, R131: the contract. The weighted sum of code length × frequency over all symbols is minimal: no prefix-free
code that gives every symbol of non-zero count a code does better. -/
def Obligations.HuffmanCodeIsOptimal : Prop :=
  ∀ (s : State) (C : SymbolId → Code), StateInv s → s.ctValid = true → PrefixFree C →
    (∀ n, s.ftRead n ≠ 0 → C n ≠ []) →
    ((List.finRange 257).map fun n => (s.ftRead n).toNat * (s.ctRead n).length).sum ≤
      ((List.finRange 257).map fun n => (s.ftRead n).toNat * (C n).length).sum

/-- R145: RDCLEN returns the length, 0 for a symbol without a code. -/
def Obligations.RdclenReturnsTheCodeLength : Prop :=
  (∀ i, encode (.rdclen i) = 0x2100000000000000#64 ||| (i.zeroExtend 64 <<< 32)) ∧
  (∀ (s : State) (n : SymbolId), s.ctValid = true → exec (.rdclen (BitVec.ofNat 16 n.val)) s =
    .next { s with resp := some { err := 0, rdata := BitVec.ofNat 32 (s.ctRead n).length } }) ∧
  (∀ (s : State) (i : BitVec 16), 257 ≤ i.toNat →
    exec (.rdclen i) s = .next (errorEntry .badOperand (encode (.rdclen i)) s)) ∧
  (∀ (s : State) (i : BitVec 16), i.toNat ≤ 256 → s.ctValid = false →
    exec (.rdclen i) s = .next (errorEntry .sequence (encode (.rdclen i)) s))

/-- R146, R104: bit 31 − k of the word is bit 32 s + k of the code where the code has one, else 0. -/
def Obligations.RdcodeReturnsTheCodeWord : Prop :=
  (∀ sel i, encode (.rdcode sel i) =
    0x2200000000000000#64 ||| (sel.zeroExtend 64 <<< 48) ||| (i.zeroExtend 64 <<< 32)) ∧
  (∀ (s : State) (sel : BitVec 8) (n : SymbolId), sel.toNat ≤ 7 → s.ctValid = true → s.ctRead n ≠ [] →
    ∃ v : Data, exec (.rdcode sel (BitVec.ofNat 16 n.val)) s = .next { s with resp := some { err := 0, rdata := v } } ∧
      ∀ k, k < 32 → v.getLsbD (31 - k) = (s.ctRead n).getD (32 * sel.toNat + k) false) ∧
  (∀ (s : State) (sel : BitVec 8) (i : BitVec 16),
    (256 < i.toNat ∨ 7 < sel.toNat →
      exec (.rdcode sel i) s = .next (errorEntry .badOperand (encode (.rdcode sel i)) s)) ∧
    (i.toNat ≤ 256 → sel.toNat ≤ 7 → s.ctValid = false →
      exec (.rdcode sel i) s = .next (errorEntry .sequence (encode (.rdcode sel i)) s)) ∧
    (∀ n : SymbolId, i.toNat = n.val → sel.toNat ≤ 7 → s.ctValid = true → s.ctRead n = [] →
      exec (.rdcode sel i) s = .next (errorEntry .noCode (encode (.rdcode sel i)) s)))

/-! ### BPK -/

/-- R151: PK_BITCNT becomes 0 and nothing else changes; no packed byte can be read until a bit is appended. -/
def Obligations.PkresetEmptiesThePacker : Prop :=
  encode .pkreset = 0x3000000000000000#64 ∧
  ∀ s : State, ∃ t, exec .pkreset s = .next t ∧
    t = { s with pkBitcnt := 0, resp := some { err := 0, rdata := 0 } } ∧ t.pkByteLen = 0 ∧
    ∀ d, exec (.rdpk d) t = .next (errorEntry .badOperand (encode (.rdpk d)) t)

/-- R152, R156: the byte written and its value, every other byte unchanged, the bit appended at the end of the packed
stream, and the padding kept zero. -/
def Obligations.PushbitAppendsOneBit : Prop :=
  (∀ d, encode (.pushbit d) = 0x3100000000000000#64 ||| d.zeroExtend 64) ∧
  (∀ (s : State) (d : BitVec 32), CountersInBounds s → MemoriesCanonical s → PaddingZero s → d.toNat ≤ 1 →
    s.pkBitcnt.toNat < 8 * s.params.pbufBytes → ∃ t, exec (.pushbit d) s = .next t ∧
      Memory.read t.pmem (s.pkBitcnt.toNat / 8) =
        (if s.pkBitcnt.toNat % 8 = 0 then BitVec.ofNat 8 (d.toNat * 2 ^ 7)
         else Memory.read s.pmem (s.pkBitcnt.toNat / 8) ||| BitVec.ofNat 8 (d.toNat * 2 ^ (7 - s.pkBitcnt.toNat % 8))) ∧
      (∀ a, a ≠ s.pkBitcnt.toNat / 8 → Memory.read t.pmem a = Memory.read s.pmem a) ∧
      packedBits t = packedBits s ++ [decide (d.toNat = 1)] ∧ PaddingZero t ∧
      t.pkBitcnt.toNat = s.pkBitcnt.toNat + 1 ∧
      t = { s with pmem := t.pmem, pkBitcnt := t.pkBitcnt, resp := some { err := 0, rdata := 0 } }) ∧
  (∀ (s : State) (d : BitVec 32), 2 ≤ d.toNat →
    exec (.pushbit d) s = .next (errorEntry .badOperand (encode (.pushbit d)) s)) ∧
  (∀ (s : State) (d : BitVec 32), d.toNat ≤ 1 → s.pkBitcnt.toNat = 8 * s.params.pbufBytes →
    exec (.pushbit d) s = .next (errorEntry .capacity (encode (.pushbit d)) s))

/-- R153, R66: the whole code is appended, first bit first, or nothing; every byte outside the bits written is
unchanged. -/
def Obligations.PushsymAppendsTheWholeCode : Prop :=
  (∀ i, encode (.pushsym i) = 0x3200000000000000#64 ||| (i.zeroExtend 64 <<< 32)) ∧
  (∀ (s : State) (n : SymbolId), CountersInBounds s → MemoriesCanonical s → PaddingZero s → s.ctValid = true →
    s.ctRead n ≠ [] →
    s.pkBitcnt.toNat + (s.ctRead n).length ≤ 8 * s.params.pbufBytes →
    ∃ t, exec (.pushsym (BitVec.ofNat 16 n.val)) s = .next t ∧
      packedBits t = packedBits s ++ s.ctRead n ∧ PaddingZero t ∧
      (∀ a, a < s.pkBitcnt.toNat / 8 ∨ t.pkByteLen ≤ a → Memory.read t.pmem a = Memory.read s.pmem a) ∧
      t.pkBitcnt.toNat = s.pkBitcnt.toNat + (s.ctRead n).length ∧
      t = { s with pmem := t.pmem, pkBitcnt := t.pkBitcnt, resp := some { err := 0, rdata := 0 } }) ∧
  (∀ (s : State) (i : BitVec 16),
    (257 ≤ i.toNat → exec (.pushsym i) s = .next (errorEntry .badOperand (encode (.pushsym i)) s)) ∧
    (i.toNat ≤ 256 → s.ctValid = false →
      exec (.pushsym i) s = .next (errorEntry .sequence (encode (.pushsym i)) s)) ∧
    (∀ n : SymbolId, i.toNat = n.val → s.ctValid = true → s.ctRead n = [] →
      exec (.pushsym i) s = .next (errorEntry .noCode (encode (.pushsym i)) s)) ∧
    (∀ n : SymbolId, i.toNat = n.val → s.ctValid = true → s.ctRead n ≠ [] →
      8 * s.params.pbufBytes < s.pkBitcnt.toNat + (s.ctRead n).length →
      exec (.pushsym i) s = .next (errorEntry .capacity (encode (.pushsym i)) s)))

/-- R154: RDPK returns the byte at d, at or past PK_BYTELEN ends with E_BAD_OPERAND, and writes nothing. -/
def Obligations.RdpkReturnsThePackedByte : Prop :=
  (∀ d, encode (.rdpk d) = 0x3300000000000000#64 ||| d.zeroExtend 64) ∧
  (∀ (s : State) (d : BitVec 32), CountersInBounds s → d.toNat < (s.pkBitcnt.toNat + 7) / 8 →
    exec (.rdpk d) s =
      .next { s with resp := some { err := 0, rdata := (Memory.read s.pmem d.toNat).zeroExtend 32 } }) ∧
  (∀ (s : State) (d : BitVec 32), (s.pkBitcnt.toNat + 7) / 8 ≤ d.toNat →
    exec (.rdpk d) s = .next (errorEntry .badOperand (encode (.rdpk d)) s))

/-- R105, R155: bit 7 − j of the byte RDPK returns at address d is bit 8 d + j of the packed stream, and 0 past its
end. -/
def Obligations.PackedBytesAreTheZeroPaddedStream : Prop :=
  ∀ (s t : State) (d : BitVec 32) (r : Response) (j : Nat), CountersInBounds s → PaddingZero s →
    exec (.rdpk d) s = .next t → t.resp = some r → r.err = 0 → j < 8 →
    r.rdata.getLsbD (7 - j) = (packedBits s).getD (8 * d.toNat + j) false

/-! ### BUP -/

/-- R161: UP_LEN and UP_POS become 0 and nothing else changes; STATUS then says exhausted, and NEXTBIT ends with
E_OUT_OF_RANGE. -/
def Obligations.UpresetEmptiesTheUnpacker : Prop :=
  encode .upreset = 0x4000000000000000#64 ∧
  ∀ s : State, ∃ t, exec .upreset s = .next t ∧
    t = { s with upLen := 0, upPos := 0, resp := some { err := 0, rdata := 0 } } ∧
    (∃ v : Data, t.srRead 1 = some v ∧ v.getLsbD 3 = true) ∧
    exec .nextbit t = .next (errorEntry .outOfRange (encode .nextbit) t)

/-- R162: the byte goes to address UP_LEN and extends the stream by its eight bits, most significant first; the position
stays. -/
def Obligations.UpbyteAppendsOneByte : Prop :=
  (∀ d, encode (.upbyte d) = 0x4100000000000000#64 ||| d.zeroExtend 64) ∧
  (∀ (s : State) (d : BitVec 32), CountersInBounds s → MemoriesCanonical s → d.toNat ≤ 255 →
    s.upLen.toNat < s.params.ubufBytes →
    ∃ t, exec (.upbyte d) s = .next t ∧
      Memory.read t.umem s.upLen.toNat = BitVec.ofNat 8 d.toNat ∧
      (∀ a, a ≠ s.upLen.toNat → Memory.read t.umem a = Memory.read s.umem a) ∧
      loadedBits t = loadedBits s ++ byteBits (BitVec.ofNat 8 d.toNat) ∧
      t.upLen.toNat = s.upLen.toNat + 1 ∧
      t = { s with umem := t.umem, upLen := t.upLen, resp := some { err := 0, rdata := 0 } }) ∧
  (∀ (s : State) (d : BitVec 32), 256 ≤ d.toNat →
    exec (.upbyte d) s = .next (errorEntry .badOperand (encode (.upbyte d)) s)) ∧
  (∀ (s : State) (d : BitVec 32), d.toNat ≤ 255 → s.upLen.toNat = s.params.ubufBytes →
    exec (.upbyte d) s = .next (errorEntry .capacity (encode (.upbyte d)) s))

/-- R163: UP_POS becomes 0 and nothing else changes, so the whole loaded stream comes again in the same order. -/
def Obligations.UprewindRestartsTheSequence : Prop :=
  encode .uprewind = 0x4200000000000000#64 ∧
  ∀ s : State, ∃ t, exec .uprewind s = .next t ∧
    t = { s with upPos := 0, resp := some { err := 0, rdata := 0 } } ∧ remainingBits t = loadedBits s

/-- R164, R202: NEXTBIT returns the bit at the position and moves on by one; with no bit left, and only then, it is
E_OUT_OF_RANGE, code 2. -/
def Obligations.NextbitReturnsTheNextBit : Prop :=
  encode .nextbit = 0x4300000000000000#64 ∧
  (∀ (s : State), CountersInBounds s → s.upPos.toNat < 8 * s.upLen.toNat → ∃ t b, exec .nextbit s = .next t ∧
    remainingBits s = b :: remainingBits t ∧ t.upPos.toNat = s.upPos.toNat + 1 ∧
    t = { s with upPos := t.upPos, resp := some { err := 0, rdata := if b then 1 else 0 } }) ∧
  (∀ s : State, 8 * s.upLen.toNat ≤ s.upPos.toNat →
    exec .nextbit s = .next (errorEntry .outOfRange (encode .nextbit) s)) ∧
  (∀ (i : Instr) (s t : State) (r : Response), exec i s = .next t → t.resp = some r → r.err = 2 → i = .nextbit)

/-- R160, R60, R61: n NEXTBITs return the next n bits of the loaded stream, oldest first. -/
def Obligations.NextbitsReadTheStreamInOrder : Prop :=
  ∀ (n : Nat) (s : State), CountersInBounds s → s.upPos.toNat + n ≤ 8 * s.upLen.toNat →
    ∃ t, mustEach (List.replicate n .nextbit) s =
        .ok (((remainingBits s).take n).map (fun b => if b then 1#32 else 0#32), t) ∧
      remainingBits t = (remainingBits s).drop n

/-! ### Invariants and whole-machine rules -/

/-- R45, R47, R155, R165, R28: the invariant of the machine is kept by every step, from every state that satisfies it. -/
def Obligations.EveryStepKeepsTheInvariant : Prop :=
  ∀ s t : State, StateInv s → step s = .next t → StateInv t

/-- The state after reset satisfies the invariant, for every legal choice of the parameters (R8, R52). -/
def Obligations.ResetStateSatisfiesTheInvariant : Prop :=
  ∀ p : Params, p.ok = true → StateInv (State.resetWith p)

/-- R95, R241: in every state that satisfies the invariant a step goes on, and where the host has presented a command it
gives a response: the block never stops. -/
def Obligations.EveryStepCompletes : Prop :=
  ∀ s : State, StateInv s → ∃ t, step s = .next t ∧ ∀ w rest, s.input = .command w :: rest → t.resp.isSome = true

/-- R46, R48, R68, R69 and the model's canonical form of a memory (log entry 2): every step keeps both memories in
canonical form and inside their capacities. It needs no other invariant. -/
def Obligations.EveryStepKeepsTheMemoriesCanonical : Prop :=
  ∀ s t : State, MemoriesCanonical s → step s = .next t → MemoriesCanonical t

/-- R20 to R22, R28 to R37, R42, R45, R46, R48: which commands write what, for every piece of state but the response,
which every command writes. The parameters and the host's queue are written by none, FT by SETFREQ, CLRFREQ and RESET,
TREE_VALID, NLEAF, NNODE and ROOT by BUILD and by what writes FT, CT_VALID by GENCODES too, NODE by BUILD, CT by GENCODES,
PMEM by PUSHBIT and PUSHSYM, UMEM by UPBYTE, PK_BITCNT by the packer's commands and RESET, UP_LEN and UP_POS by the
unpacker's and RESET, the four error registers by RESET and by a command that ends in error. That RESET leaves the four
tables is the model's choice (log entry 2). -/
def Obligations.OnlyTheNamedCommandsWrite : Prop :=
  ∀ (i : Instr) (s t : State), exec i s = .next t →
    t.params = s.params ∧ t.input = s.input ∧
    (t.ft = s.ft ∨ i = .clrfreq ∨ i = .reset ∨ ∃ n d, i = .setfreq n d) ∧
    ((t.treeValid = s.treeValid ∧ t.nleaf = s.nleaf ∧ t.nnode = s.nnode ∧ t.root = s.root) ∨
      i = .build ∨ i = .clrfreq ∨ i = .reset ∨ ∃ n d, i = .setfreq n d) ∧
    (t.ctValid = s.ctValid ∨ i = .gencodes ∨ i = .build ∨ i = .clrfreq ∨ i = .reset ∨ ∃ n d, i = .setfreq n d) ∧
    (t.nodes = s.nodes ∨ i = .build) ∧
    (t.ct = s.ct ∨ i = .gencodes) ∧
    (t.pmem = s.pmem ∨ (∃ d, i = .pushbit d) ∨ ∃ n, i = .pushsym n) ∧
    (t.umem = s.umem ∨ ∃ d, i = .upbyte d) ∧
    (t.pkBitcnt = s.pkBitcnt ∨ i = .pkreset ∨ i = .reset ∨ (∃ d, i = .pushbit d) ∨ ∃ n, i = .pushsym n) ∧
    (t.upLen = s.upLen ∨ i = .upreset ∨ i = .reset ∨ ∃ d, i = .upbyte d) ∧
    (t.upPos = s.upPos ∨ i = .upreset ∨ i = .uprewind ∨ i = .nextbit ∨ i = .reset) ∧
    ((t.errflags = s.errflags ∧ t.lasterr = s.lasterr ∧ t.ecmdLo = s.ecmdLo ∧ t.ecmdHi = s.ecmdHi) ∨
      i = .reset ∨ ∃ r, t.resp = some r ∧ r.err ≠ 0)

/-- R45: what sets and what clears the two validity flags. -/
def Obligations.ValidityFlagsFollowTheirLifetimes : Prop :=
  ∀ (i : Instr) (s t : State) (r : Response), exec i s = .next t → t.resp = some r →
    t.treeValid =
      (if r.err ≠ 0 then s.treeValid
       else match i with
         | .build => true
         | .setfreq _ _ | .clrfreq | .reset => false
         | _ => s.treeValid) ∧
    t.ctValid =
      (if r.err ≠ 0 then s.ctValid
       else match i with
         | .gencodes => true
         | .build | .setfreq _ _ | .clrfreq | .reset => false
         | _ => s.ctValid)

/-- R75: packing never changes what the unpacker gives, and loading the unpacker never changes the packed stream. -/
def Obligations.PackerAndUnpackerAreIndependent : Prop :=
  ∀ (i : Instr) (s t : State), exec i s = .next t →
    ((i = .pkreset ∨ (∃ d, i = .pushbit d) ∨ (∃ n, i = .pushsym n) ∨ ∃ d, i = .rdpk d) →
      loadedBits t = loadedBits s ∧ remainingBits t = remainingBits s) ∧
    ((i = .upreset ∨ (∃ d, i = .upbyte d) ∨ i = .uprewind ∨ i = .nextbit) →
      packedBits t = packedBits s ∧ t.pkByteLen = s.pkByteLen ∧ ∀ a, Memory.read t.pmem a = Memory.read s.pmem a)

/-- 93_implementation_defined.md U3 (R40, R44, R47, R48, R232): what NODE, CT, PMEM and UMEM hold where they are not
observable never shows: two states the same to the host take steps to states the same to the host, responses included. So
nothing rests on the contents the model chose for them (log entry 2). -/
def Obligations.UnobservableContentsNeverShow : Prop :=
  ∀ s t : State, MemoriesCanonical s → MemoriesCanonical t → SameToHost s t →
    (∀ s', step s = .next s' → ∃ t', step t = .next t' ∧ SameToHost s' t')

/-! ### Host sequences: the document's testable properties -/

/-- R182: where every count fits 32 bits, after HISTLOAD(B) every byte value's count is the number of positions of B that
hold it, and both tables are invalid; where some count does not, the host refuses with E_CAPACITY, code 9, before it has
issued a command (`histPlan` takes no state). -/
def Obligations.HistloadLoadsTheHistogram : Prop :=
  (∀ (B : List Byte) (s : State), (∀ v : Byte, B.count v < 2 ^ 32) → ∃ t, histLoad B s = .ok t ∧
    (∀ v : Byte, (t.ftRead (byteSymbol v)).toNat = B.count v) ∧ t.treeValid = false ∧ t.ctValid = false) ∧
  (∀ (B : List Byte) (v : Byte), 2 ^ 32 ≤ B.count v →
    histPlan B = .error (.reported 9#8) ∧ ∀ s : State, histLoad B s = .error (.reported 9#8))

/-- R183, R185: GETTABLE reads the code table out as the map from each symbol that has a code to that code, and the map
passes TABLECHECK. -/
def Obligations.GettableReadsTheCodeTable : Prop :=
  ∀ s : State, StateInv s → s.ctValid = true → ∃ T t, getTable s = .ok (T, t) ∧
    T = (((List.finRange 257).filter fun n => s.ctRead n != []).map fun n => (n.val, s.ctRead n)) ∧
    tableCheck T = true ∧ t = { s with resp := t.resp }

/-- R190, R192: decompressing what COMPRESS made gives the input back, for every input, the empty one included, whose
packed stream fits the two memories: DECOMPRESS does not report E_TRUNCATED. -/
def Obligations.DecompressUndoesCompress : Prop :=
  ∀ (B : List Byte) (s t : State) (T : CodeMap) (P : List Byte), StateInv s →
    compress B s = .ok ((T, P), t) → P.length ≤ s.params.ubufBytes →
    ∃ u, decompress T P t = .ok (B, u)

/-- R184, R107, R105: where every count fits 32 bits and the input's encoded stream fits PMEM, COMPRESS succeeds, with the
whole code table and the zero-padded packing of that stream; where either does not, it reports E_CAPACITY, code 9. The
premises are on the parameters and the input alone. -/
def Obligations.CompressSucceedsWhenTheStreamFits : Prop :=
  (∀ (B : List Byte) (s : State), StateInv s → (∀ v : Byte, B.count v < 2 ^ 32) →
    (encodedStream B).length ≤ 8 * s.params.pbufBytes → ∃ T P t, compress B s = .ok ((T, P), t) ∧
      (∀ e, e ∈ T ↔ ∃ n : SymbolId, codeFor (histogramTable B) n ≠ [] ∧ e = (n.val, codeFor (histogramTable B) n)) ∧
      P.length = ((encodedStream B).length + 7) / 8 ∧
      P.flatMap byteBits = encodedStream B ++ List.replicate (8 * P.length - (encodedStream B).length) false) ∧
  (∀ (B : List Byte) (s : State), StateInv s → (∀ v : Byte, B.count v < 2 ^ 32) →
    8 * s.params.pbufBytes < (encodedStream B).length → compress B s = .error (.reported 9#8)) ∧
  (∀ (B : List Byte) (s : State) (v : Byte), 2 ^ 32 ≤ B.count v → compress B s = .error (.reported 9#8))

/-- R184: the only error that COMPRESS can meet is E_CAPACITY, code 9. -/
def Obligations.CompressReportsOnlyCapacity : Prop :=
  ∀ (B : List Byte) (s : State) (e : Abandon), StateInv s → compress B s = .error e → e = .reported 9#8

/-- R185, over the finite maps of R181 (no symbol twice): TABLECHECK accepts exactly the tables with an entry for the sentinel, no code a prefix of another symbol's, every
symbol 0 to 256 and every code of 1 to 256 bits; with any other DECOMPRESS reports E_INVALID_TABLE, code 4. -/
def Obligations.TablecheckAcceptsExactlyTheCodeTables : Prop :=
  (∀ T : CodeMap, (T.map (·.1)).Nodup → (tableCheck T = true ↔
    (∃ c, (256, c) ∈ T) ∧ (∀ e ∈ T, ∀ f ∈ T, e.1 ≠ f.1 → ¬ IsPrefixOf e.2 f.2) ∧
    (∀ e ∈ T, e.1 ≤ 256 ∧ 1 ≤ e.2.length ∧ e.2.length ≤ 256))) ∧
  (∀ (T : CodeMap) (P : List Byte) (s : State), (T.map (·.1)).Nodup → tableCheck T = false →
    decompress T P s = .error (.reported 4#8))

/-- R186, R188, R189: with a valid table DECOMPRESS always ends: at the sentinel, with E_TRUNCATED, code 3, or, when the
packed bytes do not fit UMEM and only then, with E_CAPACITY, code 9. It also speaks of lists that hold a symbol twice,
which are no table of R181: there it says what the model does (log entry 8, DESIGN CHOICE). -/
def Obligations.DecompressAlwaysEnds : Prop :=
  ∀ (T : CodeMap) (P : List Byte) (s : State), StateInv s → tableCheck T = true →
    (P.length ≤ s.params.ubufBytes →
      (∃ B t, decompress T P s = .ok (B, t)) ∨ decompress T P s = .error (.reported 3#8)) ∧
    (s.params.ubufBytes < P.length → decompress T P s = .error (.reported 9#8))

/-- R196: a packed stream that COMPRESS made, without its last byte, is reported as truncated, never decoded. -/
def Obligations.TruncatedStreamIsDetected : Prop :=
  ∀ (B : List Byte) (s t : State) (T : CodeMap) (P : List Byte), StateInv s →
    compress B s = .ok ((T, P), t) → P.length ≤ s.params.ubufBytes →
    P ≠ [] ∧ decompress T P.dropLast t = .error (.reported 3#8)
end

