-- ==== Sys2Proof/Laws/Tree.lean ====
section
/-! SUPPORT. What BUILD's loop does. `Arena` says everything that holds of the arena and the queue at every pass
(spec/40_tree_builder.md R124 to R130); it holds of the leaves, a merge keeps it, and so the finished tree has it. -/

namespace Sys2Proof.Machine

/-! ### Nodes by index -/

theorem freqAt_of_getElem? {nodes : List Node} {j : Nat} {nd : Node} (h : nodes[j]? = some nd) :
    freqAt nodes j = nd.freq.toNat := by simp [freqAt, h]

theorem parentAt_of_getElem? {nodes : List Node} {j : Nat} {nd : Node} (h : nodes[j]? = some nd) :
    parentAt nodes j = nd.parent := by simp [parentAt, h]

theorem parentAt_of_le {nodes : List Node} {j : Nat} (h : nodes.length ≤ j) : parentAt nodes j = none := by
  simp [parentAt, List.getElem?_eq_none h]

theorem IsInternal.lt {nodes : List Node} {k l r : Nat} (h : IsInternal nodes k l r) : k < nodes.length := by
  obtain ⟨nd, h, _⟩ := h
  exact (List.getElem?_eq_some_iff.mp h).1

theorem IsInternal.unique {nodes : List Node} {k l r l' r' : Nat} (h : IsInternal nodes k l r)
    (h' : IsInternal nodes k l' r') : l = l' ∧ r = r' := by
  obtain ⟨nd, h1, h2⟩ := h
  obtain ⟨nd', h3, h4⟩ := h'
  rw [h1] at h3
  cases h3
  rw [h2] at h4
  injection h4 with h5 h6
  exact ⟨h5, h6⟩

theorem IsLeaf.unique {nodes : List Node} {j : Nat} {m n : SymbolId} (h : IsLeaf nodes j m) (h' : IsLeaf nodes j n) :
    m = n := by
  obtain ⟨nd, h1, h2⟩ := h
  obtain ⟨nd', h3, h4⟩ := h'
  rw [h1] at h3
  cases h3
  rw [h2] at h4
  injection h4

theorem IsLeaf.not_internal {nodes : List Node} {j l r : Nat} {n : SymbolId} (h : IsLeaf nodes j n) :
    ¬ IsInternal nodes j l r := by
  rintro ⟨nd', h3, h4⟩
  obtain ⟨nd, h1, h2⟩ := h
  rw [h1] at h3
  cases h3
  rw [h2] at h4
  cases h4

/-! ### popmin -/

theorem PopsBefore.trans {nodes : List Node} {i j k : Nat} (h1 : PopsBefore nodes i j) (h2 : PopsBefore nodes j k) :
    PopsBefore nodes i k := by
  unfold PopsBefore at *
  omega

theorem PopsBefore.total {nodes : List Node} {i j : Nat} (h : i ≠ j) : PopsBefore nodes i j ∨ PopsBefore nodes j i := by
  unfold PopsBefore
  omega

theorem popsBefore_iff {nodes : List Node} {i j : Nat} : popsBefore nodes i j = true ↔ PopsBefore nodes i j := by
  simp [popsBefore, PopsBefore]

theorem firstOf_spec (nodes : List Node) : ∀ (q : List Nat) (best : Nat),
    firstOf nodes best q ∈ best :: q ∧ ∀ j ∈ best :: q, j ≠ firstOf nodes best q → PopsBefore nodes (firstOf nodes best q) j
  | [], best => by simp [firstOf]
  | j :: q, best => by
    unfold firstOf
    by_cases h : popsBefore nodes j best = true
    · rw [if_pos h]
      obtain ⟨h1, h2⟩ := firstOf_spec nodes q j
      refine ⟨by simp only [List.mem_cons] at h1 ⊢; tauto, fun x hx hne => ?_⟩
      simp only [List.mem_cons] at hx
      rcases hx with rfl | hx
      · by_cases e : j = firstOf nodes j q
        · rw [← e]; exact popsBefore_iff.mp h
        · exact (h2 j (by simp) e).trans (popsBefore_iff.mp h)
      · exact h2 x (by simpa using hx) hne
    · rw [if_neg h]
      obtain ⟨h1, h2⟩ := firstOf_spec nodes q best
      refine ⟨by simp only [List.mem_cons] at h1 ⊢; tauto, fun x hx hne => ?_⟩
      simp only [List.mem_cons] at hx
      rcases hx with rfl | rfl | hx
      · exact h2 x (by simp) hne
      · by_cases e : best = x
        · subst e; exact h2 best (by simp) hne
        · have hb : PopsBefore nodes best x := by
            rcases PopsBefore.total (nodes := nodes) e with h' | h'
            · exact h'
            · exact absurd (popsBefore_iff.mpr h') h
          by_cases e' : best = firstOf nodes best q
          · rw [← e']; exact hb
          · exact (h2 best (by simp) e').trans hb
      · exact h2 x (by simp [hx]) hne

/-- `popmin` removes the element that pops first (R124). -/
theorem popmin_spec {nodes : List Node} {q q' : List Nat} {a : Nat} (h : popmin nodes q = some (a, q')) :
    a ∈ q ∧ q' = q.erase a ∧ ∀ j ∈ q, j ≠ a → PopsBefore nodes a j := by
  cases q with
  | nil => simp [popmin] at h
  | cons j js =>
    simp only [popmin, Option.some.injEq, Prod.mk.injEq] at h
    obtain ⟨h1, h2⟩ := firstOf_spec nodes js j
    obtain ⟨rfl, rfl⟩ := h
    exact ⟨h1, rfl, h2⟩

/-! ### The merge -/

/-- What a merge makes of an index: every node keeps its body and its frequency, the two children get the new node as
their parent, and the new node is the last. -/
theorem mergePair_getElem? (nodes : List Node) (a b j : Nat) :
    (mergePair nodes a b)[j]? =
      if j < nodes.length then
        nodes[j]?.map fun nd => { nd with parent := if j = a ∨ j = b then some nodes.length else nd.parent }
      else if j = nodes.length then
        some { body := .internal a b, freq := BitVec.ofNat 41 (freqAt nodes a + freqAt nodes b), parent := none }
      else none := by
  unfold mergePair setParent
  rw [List.getElem?_append]
  simp only [List.length_modify, List.getElem?_modify]
  by_cases h : j < nodes.length
  · rw [if_pos h, if_pos h]
    have hs := List.getElem?_eq_getElem h
    by_cases e1 : b = j <;> by_cases e2 : a = j <;> simp [e1, e2, hs, eq_comm]
  · rw [if_neg h, if_neg h]
    by_cases e : j = nodes.length
    · simp [e]
    · rw [if_neg e, List.getElem?_eq_none (by simp; omega)]

@[simp] theorem mergePair_length (nodes : List Node) (a b : Nat) :
    (mergePair nodes a b).length = nodes.length + 1 := by simp [mergePair, setParent]

/-- The symbol table of a frequency table: the symbols of non-zero count, ascending; the sentinel is always last. -/
def ftAt (ft : Vector Data 256) (n : SymbolId) : Data := if h : n.val < 256 then ft[n.val] else 1#32

theorem ftRead_eq (s : State) (n : SymbolId) : s.ftRead n = ftAt s.ft n := rfl

def presentSymbols (ft : Vector Data 256) : List SymbolId := (List.finRange 257).filter fun n => ftAt ft n != 0

theorem ftAt_eos (ft : Vector Data 256) : ftAt ft Config.eos = 1 := rfl

theorem ftAt_castSucc (ft : Vector Data 256) (b : Fin 256) : ftAt ft b.castSucc = ft[b.val] := by
  simp [ftAt]

/-- The leaves are those of the present symbols, in ascending order (R125). -/
theorem leaves_eq (ft : Vector Data 256) :
    leaves ft = (presentSymbols ft).map fun n => leafNode n ((ftAt ft n).zeroExtend 41) := by
  have hr : List.finRange 257 = (List.finRange 256).map Fin.castSucc ++ [Fin.last 256] := List.finRange_succ_last
  unfold leaves byteLeaves presentSymbols
  rw [hr, List.filter_append, List.map_append]
  congr 1
  rw [List.filter_map, List.map_map]
  induction List.finRange 256 with
  | nil => rfl
  | cons b l ih =>
    by_cases h : ft[b.val] = 0#32
    · simp only [List.filterMap_cons, h, if_true, ih]
      rw [List.filter_cons_of_neg]
      simp [ftAt_castSucc, h]
    · simp only [List.filterMap_cons, h, if_false, ih]
      rw [List.filter_cons_of_pos]
      · simp [ftAt_castSucc]
      · simp [ftAt_castSucc, h]

theorem mem_presentSymbols {ft : Vector Data 256} {n : SymbolId} : n ∈ presentSymbols ft ↔ ftAt ft n ≠ 0 := by
  simp [presentSymbols]

theorem presentSymbols_sorted (ft : Vector Data 256) : (presentSymbols ft).Pairwise (· < ·) :=
  (List.pairwise_lt_finRange 257).filter _

theorem presentSymbols_length_le (ft : Vector Data 256) : (presentSymbols ft).length ≤ 257 := by
  have := List.length_filter_le (fun n => ftAt ft n != 0) (List.finRange 257)
  simpa [presentSymbols] using this

theorem presentSymbols_length_pos (ft : Vector Data 256) : 1 ≤ (presentSymbols ft).length := by
  have : Config.eos ∈ presentSymbols ft := mem_presentSymbols.mpr (by rw [ftAt_eos]; decide)
  exact List.length_pos_of_mem this

@[simp] theorem leaves_length (ft : Vector Data 256) : (leaves ft).length = (presentSymbols ft).length := by
  rw [leaves_eq, List.length_map]

/-! ### The invariant of the loop -/

/-- What holds of the arena `nodes` and the queue `q` of a table's BUILD at every pass. -/
structure Arena (ft : Vector Data 256) (nodes : List Node) (q : List Nat) : Prop where
  nodup : q.Nodup
  inside : ∀ j ∈ q, j < nodes.length
  count : nodes.length + q.length = 2 * (presentSymbols ft).length
  leaf : ∀ (j : Nat) (n : SymbolId), (presentSymbols ft)[j]? = some n →
    ∃ nd : Node, nodes[j]? = some nd ∧ nd.body = .leaf n ∧ nd.freq = (ftAt ft n).zeroExtend 41
  internal : ∀ k, (presentSymbols ft).length ≤ k → k < nodes.length → ∃ l r, IsInternal nodes k l r ∧ l < k ∧ r < k ∧
    l ≠ r ∧ parentAt nodes l = some k ∧ parentAt nodes r = some k ∧ freqAt nodes k = freqAt nodes l + freqAt nodes r
  root : ∀ j, j < nodes.length → (j ∈ q ↔ parentAt nodes j = none)
  child : ∀ j p, parentAt nodes j = some p → j < p ∧ p < nodes.length ∧
    ∃ l r, IsInternal nodes p l r ∧ (j = l ∨ j = r)
  first : ∀ k l r, IsInternal nodes k l r → QueuedAt nodes k l ∧ QueuedAt nodes k r ∧
    (∀ j, QueuedAt nodes k j → j ≠ l → PopsBefore nodes l j) ∧
    (∀ j, QueuedAt nodes k j → j ≠ l → j ≠ r → PopsBefore nodes r j)
  total : (q.map (freqAt nodes)).sum = ((presentSymbols ft).map fun n => (ftAt ft n).toNat).sum

/-- The sum of all counts fits a node's frequency (R127). -/
theorem total_lt (ft : Vector Data 256) : ((presentSymbols ft).map fun n => (ftAt ft n).toNat).sum < 2 ^ 41 := by
  have h : ∀ l : List SymbolId, (l.map fun n => (ftAt ft n).toNat).sum ≤ l.length * 2 ^ 32 := by
    intro l
    induction l with
    | nil => simp
    | cons n l ih =>
      have := (ftAt ft n).isLt
      simp only [List.map_cons, List.sum_cons, List.length_cons]
      omega
  have h1 := h (presentSymbols ft)
  have h2 := presentSymbols_length_le ft
  omega

theorem arena_leaves (ft : Vector Data 256) : Arena ft (leaves ft) (List.range (leaves ft).length) := by
  have hget : ∀ (j : Nat) (nd : Node), (leaves ft)[j]? = some nd →
      ∃ n, (presentSymbols ft)[j]? = some n ∧ nd = leafNode n ((ftAt ft n).zeroExtend 41) := by
    intro j nd h
    rw [leaves_eq, List.getElem?_map] at h
    cases hn : (presentSymbols ft)[j]? with
    | none => simp [hn] at h
    | some n => simp [hn] at h; exact ⟨n, rfl, by simpa using h.symm⟩
  have hpar : ∀ j, parentAt (leaves ft) j = none := by
    intro j
    cases h : (leaves ft)[j]? with
    | none => simp [parentAt, h]
    | some nd => obtain ⟨n, _, rfl⟩ := hget j nd h; rw [parentAt_of_getElem? h]; rfl
  have hnoint : ∀ k l r, ¬ IsInternal (leaves ft) k l r := by
    rintro k l r ⟨nd, h, hb⟩
    obtain ⟨n, _, rfl⟩ := hget k nd h
    cases hb
  refine ⟨List.nodup_range, by simp, by simp; omega, ?_, ?_, by simp [hpar], by simp [hpar], ?_, ?_⟩
  · intro j n h
    refine ⟨leafNode n ((ftAt ft n).zeroExtend 41), ?_, rfl, rfl⟩
    rw [leaves_eq, List.getElem?_map, h]; rfl
  · intro k h1 h2
    rw [leaves_length] at h2; omega
  · intro k l r h; exact absurd h (hnoint k l r)
  · have : (List.range (leaves ft).length).map (freqAt (leaves ft)) = (leaves ft).map fun nd => nd.freq.toNat := by
      apply List.ext_getElem?
      intro j
      simp only [List.getElem?_map]
      by_cases h : j < (leaves ft).length
      · rw [List.getElem?_range h, List.getElem?_eq_getElem h]
        simp [freqAt_of_getElem? (List.getElem?_eq_getElem h)]
      · rw [List.getElem?_eq_none (by simpa using h), List.getElem?_eq_none (by simpa using h)]; rfl
    rw [this, leaves_eq, List.map_map]
    congr 1

/-- A merge keeps the invariant. -/
theorem Arena.merge {ft : Vector Data 256} {nodes : List Node} {q q1 q2 : List Nat} {a b : Nat} (h : Arena ft nodes q)
    (h1 : popmin nodes q = some (a, q1)) (h2 : popmin nodes q1 = some (b, q2)) :
    Arena ft (mergePair nodes a b) (q2 ++ [nodes.length]) := by
  obtain ⟨ha, rfl, hfa⟩ := popmin_spec h1
  obtain ⟨hb', rfl, hfb⟩ := popmin_spec h2
  have hb : b ∈ q := List.mem_of_mem_erase hb'
  have hab : a ≠ b := by rintro rfl; exact (h.nodup.not_mem_erase) hb'
  have haL := h.inside a ha
  have hbL := h.inside b hb
  have hq2 : ∀ j, j ∈ (q.erase a).erase b ↔ j ∈ q ∧ j ≠ a ∧ j ≠ b := by
    intro j
    rw [(h.nodup.erase a).mem_erase_iff, h.nodup.mem_erase_iff]; tauto
  have get := mergePair_getElem? nodes a b
  have getOld : ∀ (j : Nat) (nd : Node), nodes[j]? = some nd → (mergePair nodes a b)[j]? =
      some { nd with parent := if j = a ∨ j = b then some nodes.length else nd.parent } := by
    intro j nd hnd
    have hj := (List.getElem?_eq_some_iff.mp hnd).1
    rw [get, if_pos hj, hnd]; rfl
  have getNew : (mergePair nodes a b)[nodes.length]? = some
      { body := .internal a b, freq := BitVec.ofNat 41 (freqAt nodes a + freqAt nodes b), parent := none } := by
    rw [get]; simp
  have freqOld : ∀ j, j < nodes.length → freqAt (mergePair nodes a b) j = freqAt nodes j := by
    intro j hj
    have e := List.getElem?_eq_getElem hj
    rw [freqAt_of_getElem? (getOld j _ e), freqAt_of_getElem? e]
  have parOld : ∀ j, j < nodes.length → parentAt (mergePair nodes a b) j =
      if j = a ∨ j = b then some nodes.length else parentAt nodes j := by
    intro j hj
    have e := List.getElem?_eq_getElem hj
    rw [parentAt_of_getElem? (getOld j _ e), parentAt_of_getElem? e]
  have parNew : parentAt (mergePair nodes a b) nodes.length = none := parentAt_of_getElem? getNew
  have intOld : ∀ k l r, k < nodes.length → (IsInternal (mergePair nodes a b) k l r ↔ IsInternal nodes k l r) := by
    intro k l r hk
    have e := List.getElem?_eq_getElem hk
    constructor
    · rintro ⟨nd, g1, g2⟩
      rw [getOld k _ e] at g1
      cases g1
      exact ⟨_, e, g2⟩
    · rintro ⟨nd, g1, g2⟩
      exact ⟨_, getOld k nd g1, g2⟩
  have parA : parentAt nodes a = none := (h.root a haL).mp ha
  have parB : parentAt nodes b = none := (h.root b hbL).mp hb
  have sumq : ((q.map (freqAt nodes)).sum) =
      freqAt nodes a + (freqAt nodes b + (((q.erase a).erase b).map (freqAt nodes)).sum) := by
    rw [List.sum_map_erase (freqAt nodes) hb', List.sum_map_erase (freqAt nodes) ha]
  have freqNew : freqAt (mergePair nodes a b) nodes.length = freqAt nodes a + freqAt nodes b := by
    rw [freqAt_of_getElem? getNew]
    have := h.total
    have := total_lt ft
    simp only [BitVec.toNat_ofNat]
    omega
  have queuedOld : ∀ k j, k < nodes.length → (QueuedAt (mergePair nodes a b) k j ↔ QueuedAt nodes k j) := by
    intro k j hk
    constructor
    · rintro ⟨g1, g2⟩
      refine ⟨g1, fun p hp => ?_⟩
      have hjL : j < nodes.length := by omega
      by_cases e : j = a ∨ j = b
      · rcases e with rfl | rfl
        · rw [parA] at hp; cases hp
        · rw [parB] at hp; cases hp
      · exact g2 p (by rw [parOld j hjL, if_neg e]; exact hp)
    · rintro ⟨g1, g2⟩
      refine ⟨g1, fun p hp => ?_⟩
      rw [parOld j (by omega)] at hp
      by_cases e : j = a ∨ j = b
      · rw [if_pos e] at hp; cases hp; omega
      · rw [if_neg e] at hp; exact g2 p hp
  have popsOld : ∀ i j, i < nodes.length → j < nodes.length →
      (PopsBefore (mergePair nodes a b) i j ↔ PopsBefore nodes i j) := by
    intro i j hi hj
    unfold PopsBefore
    rw [freqOld i hi, freqOld j hj]
  have queuedNew : ∀ j, QueuedAt (mergePair nodes a b) nodes.length j ↔ j ∈ q := by
    intro j
    constructor
    · rintro ⟨g1, g2⟩
      rw [h.root j g1]
      cases hp : parentAt nodes j with
      | none => rfl
      | some p =>
        obtain ⟨_, g3, _⟩ := h.child j p hp
        have hjab : ¬ (j = a ∨ j = b) := by
          rintro (rfl | rfl)
          · rw [parA] at hp; cases hp
          · rw [parB] at hp; cases hp
        have := g2 p (by rw [parOld j g1, if_neg hjab]; exact hp)
        omega
    · intro hj
      have hjL := h.inside j hj
      refine ⟨hjL, fun p hp => ?_⟩
      rw [parOld j hjL, (h.root j hjL).mp hj] at hp
      split at hp <;> cases hp
      omega
  refine ⟨?_, ?_, ?_, ?_, ?_, ?_, ?_, ?_, ?_⟩
  · refine List.Nodup.append ((h.nodup.erase a).erase b) (by simp) ?_
    intro x hx hx'
    have e1 := ((hq2 x).mp hx).1
    have e2 : x = nodes.length := by simpa using hx'
    have := h.inside x e1
    omega
  · intro j hj
    rw [mergePair_length]
    rcases List.mem_append.mp hj with hj | hj
    · have := h.inside j ((hq2 j).mp hj).1; omega
    · have : j = nodes.length := by simpa using hj
      omega
  · have := h.count
    have e1 := List.length_erase_of_mem hb'
    have e2 := List.length_erase_of_mem ha
    have : 0 < (q.erase a).length := List.length_pos_of_mem hb'
    simp only [mergePair_length, List.length_append, List.length_cons, List.length_nil]
    omega
  · intro j n hn
    obtain ⟨nd, g1, g2, g3⟩ := h.leaf j n hn
    exact ⟨_, getOld j nd g1, g2, g3⟩
  · intro k hk1 hk2
    rw [mergePair_length] at hk2
    by_cases e : k = nodes.length
    · subst e
      refine ⟨a, b, ⟨_, getNew, rfl⟩, haL, hbL, hab, ?_, ?_, ?_⟩
      · rw [parOld a haL]; simp
      · rw [parOld b hbL]; simp
      · rw [freqNew, freqOld a haL, freqOld b hbL]
    · have hkL : k < nodes.length := by omega
      obtain ⟨l, r, g1, g2, g3, g4, g5, g6, g7⟩ := h.internal k hk1 hkL
      refine ⟨l, r, (intOld k l r hkL).mpr g1, g2, g3, g4, ?_, ?_, ?_⟩
      · rw [parOld l (by omega), if_neg, g5]
        rintro (rfl | rfl)
        · rw [parA] at g5; cases g5
        · rw [parB] at g5; cases g5
      · rw [parOld r (by omega), if_neg, g6]
        rintro (rfl | rfl)
        · rw [parA] at g6; cases g6
        · rw [parB] at g6; cases g6
      · rw [freqOld k hkL, freqOld l (by omega), freqOld r (by omega), g7]
  · intro j hj
    rw [mergePair_length] at hj
    rw [List.mem_append, hq2, List.mem_singleton]
    by_cases e : j = nodes.length
    · subst e; simp [parNew]
    · have hjL : j < nodes.length := by omega
      rw [parOld j hjL]
      by_cases e' : j = a ∨ j = b
      · rw [if_pos e']; simp only [reduceCtorEq, iff_false]; tauto
      · rw [if_neg e', ← h.root j hjL]; tauto
  · intro j p hp
    rw [mergePair_length]
    by_cases hjL : j < nodes.length
    · rw [parOld j hjL] at hp
      by_cases e' : j = a ∨ j = b
      · rw [if_pos e'] at hp
        cases hp
        exact ⟨hjL, by omega, a, b, ⟨_, getNew, rfl⟩, e'⟩
      · rw [if_neg e'] at hp
        obtain ⟨g1, g2, l, r, g3, g4⟩ := h.child j p hp
        exact ⟨g1, by omega, l, r, (intOld p l r g2).mpr g3, g4⟩
    · by_cases e : j = nodes.length
      · subst e; rw [parNew] at hp; cases hp
      · rw [parentAt_of_le (by rw [mergePair_length]; omega)] at hp; cases hp
  · intro k l r hk
    have hkL' := hk.lt
    rw [mergePair_length] at hkL'
    by_cases e : k = nodes.length
    · subst e
      have hnew : IsInternal (mergePair nodes a b) nodes.length a b := ⟨_, getNew, rfl⟩
      obtain ⟨rfl, rfl⟩ := hk.unique hnew
      refine ⟨(queuedNew _).mpr ha, (queuedNew _).mpr hb, fun j hj hne => ?_, fun j hj hne hne' => ?_⟩
      · have hj' := (queuedNew j).mp hj
        exact (popsOld _ _ haL (h.inside j hj')).mpr (hfa j hj' hne)
      · have hj' := (queuedNew j).mp hj
        exact (popsOld _ _ hbL (h.inside j hj')).mpr
          (hfb j (h.nodup.mem_erase_iff.mpr ⟨hne, hj'⟩) hne')
    · have hkL : k < nodes.length := by omega
      obtain ⟨g1, g2, g3, g4⟩ := h.first k l r ((intOld k l r hkL).mp hk)
      have hl : l < nodes.length := by have := g1.1; omega
      have hr : r < nodes.length := by have := g2.1; omega
      refine ⟨(queuedOld k l hkL).mpr g1, (queuedOld k r hkL).mpr g2, fun j hj hne => ?_, fun j hj hne hne' => ?_⟩
      · have hj' := (queuedOld k j hkL).mp hj
        exact (popsOld _ _ hl (by have := hj'.1; omega)).mpr (g3 j hj' hne)
      · have hj' := (queuedOld k j hkL).mp hj
        exact (popsOld _ _ hr (by have := hj'.1; omega)).mpr (g4 j hj' hne hne')
  · rw [← h.total, sumq, List.map_append, List.sum_append]
    have : ((q.erase a).erase b).map (freqAt (mergePair nodes a b)) = ((q.erase a).erase b).map (freqAt nodes) :=
      List.map_congr_left fun j hj => freqOld j (h.inside j ((hq2 j).mp hj).1)
    rw [this]
    simp only [List.map_cons, List.map_nil, List.sum_cons, List.sum_nil, freqNew]
    omega

theorem popmin_isSome {nodes : List Node} {q : List Nat} (h : q ≠ []) : ∃ a q', popmin nodes q = some (a, q') := by
  cases q with
  | nil => exact absurd rfl h
  | cons j js => exact ⟨_, _, rfl⟩

/-- The loop ends with one node queued (R128). -/
theorem mergeLoop_arena (ft : Vector Data 256) : ∀ (fuel : Nat) (nodes : List Node) (q : List Nat), Arena ft nodes q →
    q ≠ [] → q.length ≤ fuel + 1 →
    Arena ft (mergeLoop fuel nodes q).1 (mergeLoop fuel nodes q).2 ∧ (mergeLoop fuel nodes q).2.length = 1
  | 0, nodes, q, h, hne, hl => by
    have := List.length_pos_iff.mpr hne
    exact ⟨h, by simp only [mergeLoop]; omega⟩
  | fuel + 1, nodes, q, h, hne, hl => by
    obtain ⟨a, q1, h1⟩ := popmin_isSome (nodes := nodes) hne
    have e1 := popmin_spec h1
    have l1 := List.length_erase_of_mem e1.1
    rw [← e1.2.1] at l1
    have := List.length_pos_iff.mpr hne
    by_cases hq1 : q1 = []
    · have h2 : popmin nodes q1 = none := by rw [hq1]; rfl
      unfold mergeLoop
      simp only [h1, h2]
      have : q1.length = 0 := by rw [hq1]; rfl
      exact ⟨h, by omega⟩
    · obtain ⟨b, q2, h2⟩ := popmin_isSome (nodes := nodes) hq1
      have e2 := popmin_spec h2
      have l2 := List.length_erase_of_mem e2.1
      rw [← e2.2.1] at l2
      have := List.length_pos_iff.mpr hq1
      unfold mergeLoop
      simp only [h1, h2]
      exact mergeLoop_arena ft fuel _ _ (h.merge h1 h2) (by simp) (by simp; omega)

/-- The finished arena: the invariant with one node queued, the root. -/
theorem buildTree_arena (ft : Vector Data 256) :
    Arena ft (buildTree ft).1 [rootOf (buildTree ft).2] := by
  have hpos := presentSymbols_length_pos ft
  have h := mergeLoop_arena ft (leaves ft).length (leaves ft) (List.range (leaves ft).length) (arena_leaves ft)
    (by
      intro h
      have := congrArg List.length h
      rw [List.length_range, leaves_length, List.length_nil] at this
      omega) (by simp)
  unfold buildTree
  obtain ⟨h1, h2⟩ := h
  obtain ⟨j, hj⟩ := List.length_eq_one_iff.mp h2
  rw [hj] at h1 ⊢
  exact h1

end Sys2Proof.Machine
end

