-- ==== Sys2Proof/Laws/Codes.lean ====
section
/-! SUPPORT. Paths in the tree that BUILD makes, and what GENCODES makes of them (spec/41_code_table_generator.md R141
to R144): every node has exactly one path from the root, a path is no longer than NLEAF − 1, and a leaf's code is its
path. -/

namespace Sys2Proof.Machine

/-! ### The finished tree -/

section
variable {ft : Vector Data 256} {nodes : List Node} {q : List Nat}

theorem Arena.isLeaf_iff (h : Arena ft nodes q) {j : Nat} {n : SymbolId} :
    IsLeaf nodes j n ↔ (presentSymbols ft)[j]? = some n := by
  constructor
  · intro hl
    by_cases hj : j < (presentSymbols ft).length
    · obtain ⟨nd, h1, h2, _⟩ := h.leaf j _ (List.getElem?_eq_getElem hj)
      rw [List.getElem?_eq_getElem hj, hl.unique ⟨nd, h1, h2⟩]
    · have hl' := hl
      obtain ⟨nd, h1, _⟩ := hl'
      obtain ⟨l, r, h2, _⟩ := h.internal j (by omega) (List.getElem?_eq_some_iff.mp h1).1
      exact absurd h2 hl.not_internal
  · intro hn
    obtain ⟨nd, h1, h2, _⟩ := h.leaf j n hn
    exact ⟨nd, h1, h2⟩

theorem Arena.internal_ge (h : Arena ft nodes q) {k l r : Nat} (hk : IsInternal nodes k l r) :
    (presentSymbols ft).length ≤ k := by
  by_contra hlt
  have := h.isLeaf_iff.mpr (List.getElem?_eq_getElem (Nat.lt_of_not_le hlt))
  exact this.not_internal hk

/-- What an internal node says of its children. -/
theorem Arena.children (h : Arena ft nodes q) {k l r : Nat} (hk : IsInternal nodes k l r) :
    l < k ∧ r < k ∧ l ≠ r ∧ parentAt nodes l = some k ∧ parentAt nodes r = some k := by
  obtain ⟨l', r', h1, h2, h3, h4, h5, h6, _⟩ := h.internal k (h.internal_ge hk) hk.lt
  obtain ⟨rfl, rfl⟩ := hk.unique h1
  exact ⟨h2, h3, h4, h5, h6⟩

theorem Arena.leaf_index_unique (h : Arena ft nodes q) {j k : Nat} {n : SymbolId} (hj : IsLeaf nodes j n)
    (hk : IsLeaf nodes k n) : j = k := by
  have h1 := h.isLeaf_iff.mp hj
  have h2 := h.isLeaf_iff.mp hk
  have hnd : (presentSymbols ft).Nodup := (presentSymbols_sorted ft).imp fun hlt => ne_of_lt hlt
  exact (hnd.getElem_inj_iff (hi := (List.getElem?_eq_some_iff.mp h1).1) (hj := (List.getElem?_eq_some_iff.mp h2).1)).mp
    ((List.getElem?_eq_some_iff.mp h1).2.trans (List.getElem?_eq_some_iff.mp h2).2.symm)

theorem Arena.exists_leaf (h : Arena ft nodes q) {n : SymbolId} (hn : ftAt ft n ≠ 0) : ∃ j, IsLeaf nodes j n := by
  obtain ⟨j, hj⟩ := List.mem_iff_getElem?.mp (mem_presentSymbols.mpr hn)
  exact ⟨j, h.isLeaf_iff.mpr hj⟩

theorem Arena.ne_zero_of_leaf (h : Arena ft nodes q) {j : Nat} {n : SymbolId} (hl : IsLeaf nodes j n) :
    ftAt ft n ≠ 0 :=
  mem_presentSymbols.mp (List.mem_iff_getElem?.mpr ⟨j, h.isLeaf_iff.mp hl⟩)

variable {root : Nat}

/-- The root is the last node (R130). -/
theorem Arena.root_eq (h : Arena ft nodes [root]) : root + 1 = nodes.length := by
  have hr := h.inside root (by simp)
  have hlast : nodes.length - 1 ∈ [root] := by
    rw [h.root _ (by omega)]
    cases hp : parentAt nodes (nodes.length - 1) with
    | none => rfl
    | some p => have := h.child _ p hp; omega
  have : nodes.length - 1 = root := by simpa using hlast
  omega

theorem Arena.parent_eq_none_iff (h : Arena ft nodes [root]) {j : Nat} (hj : j < nodes.length) :
    parentAt nodes j = none ↔ j = root := by
  rw [← h.root j hj]; simp

theorem Arena.kind (h : Arena ft nodes [root]) {j : Nat} (hj : j < nodes.length) :
    (∃ n, IsLeaf nodes j n) ∨ ∃ l r, IsInternal nodes j l r := by
  by_cases hN : j < (presentSymbols ft).length
  · exact .inl ⟨_, h.isLeaf_iff.mpr (List.getElem?_eq_getElem hN)⟩
  · obtain ⟨l, r, h1, _⟩ := h.internal j (by omega) hj
    exact .inr ⟨l, r, h1⟩

end

/-! ### Paths -/

theorem follow_append (nodes : List Node) (d : Code) : ∀ (c : Code) (j : Nat),
    follow nodes j (c ++ d) = (follow nodes j c).bind fun i => follow nodes i d
  | [], j => rfl
  | b :: c, j => by
    simp only [List.cons_append, follow]
    cases nodes[j]? with
    | none => rfl
    | some nd =>
      cases hb : nd.body with
      | leaf n => simp only [hb]; rfl
      | internal l r => simp only [hb]; exact follow_append nodes d c _

theorem follow_cons {nodes : List Node} {j i : Nat} {b : Bool} {c : Code} :
    follow nodes j (b :: c) = some i ↔
      ∃ l r, IsInternal nodes j l r ∧ follow nodes (if b then r else l) c = some i := by
  simp only [follow]
  constructor
  · intro h
    cases hn : nodes[j]? with
    | none => simp [hn] at h
    | some nd =>
      cases hb : nd.body with
      | leaf n => simp [hn, hb] at h
      | internal l r => exact ⟨l, r, ⟨nd, hn, hb⟩, by simpa [hn, hb] using h⟩
  · rintro ⟨l, r, ⟨nd, hn, hb⟩, h⟩
    simpa [hn, hb] using h

theorem follow_snoc {nodes : List Node} {j i : Nat} {b : Bool} {c : Code} :
    follow nodes j (c ++ [b]) = some i ↔
      ∃ k l r, follow nodes j c = some k ∧ IsInternal nodes k l r ∧ i = if b then r else l := by
  rw [follow_append]
  constructor
  · intro h
    obtain ⟨k, h1, h2⟩ := Option.bind_eq_some_iff.mp h
    obtain ⟨l, r, h3, h4⟩ := follow_cons.mp h2
    exact ⟨k, l, r, h1, h3, (Option.some.inj h4).symm⟩
  · rintro ⟨k, l, r, h1, h3, rfl⟩
    rw [h1]
    exact follow_cons.mpr ⟨l, r, h3, rfl⟩

/-- A leaf has no path beyond it. -/
theorem follow_leaf {nodes : List Node} {j i : Nat} {n : SymbolId} {c : Code} (hl : IsLeaf nodes j n)
    (h : follow nodes j c = some i) : c = [] ∧ i = j := by
  cases c with
  | nil => exact ⟨rfl, (Option.some.inj h).symm⟩
  | cons b c =>
    obtain ⟨l, r, h1, _⟩ := follow_cons.mp h
    exact absurd h1 hl.not_internal

section
variable {ft : Vector Data 256} {nodes : List Node} {root : Nat}

/-- A path of `k` steps leads at least `k` indices down; its last internal node is no leaf. -/
theorem Arena.follow_bound (h : Arena ft nodes [root]) : ∀ (c : Code) (j i : Nat), follow nodes j c = some i → c ≠ [] →
    (presentSymbols ft).length + c.length ≤ j + 1
  | [], _, _, _, hne => absurd rfl hne
  | [b], j, i, hf, _ => by
    obtain ⟨l, r, h1, _⟩ := follow_cons.mp hf
    have := h.internal_ge h1
    simp only [List.length_cons, List.length_nil]; omega
  | b :: b' :: c, j, i, hf, _ => by
    obtain ⟨l, r, h1, h2⟩ := follow_cons.mp hf
    have := h.follow_bound (b' :: c) _ i h2 (by simp)
    have hc := h.children h1
    have : (if b then r else l) < j := by split <;> omega
    simp only [List.length_cons] at *; omega

theorem Arena.follow_length (h : Arena ft nodes [root]) {c : Code} {i : Nat} (hf : follow nodes root c = some i)
    (hne : c ≠ []) : c.length ≤ (presentSymbols ft).length - 1 := by
  have := h.follow_bound c root i hf hne
  have := h.root_eq
  have := h.count
  simp only [List.length_cons, List.length_nil] at this
  omega

/-- A node has at most one path from the root. -/
theorem Arena.follow_unique (h : Arena ft nodes [root]) (c : Code) : ∀ (d : Code) (i : Nat),
    follow nodes root c = some i → follow nodes root d = some i → c = d := by
  have hroot : ∀ (d : Code) (b : Bool), follow nodes root (d ++ [b]) ≠ some root := by
    intro d b hd
    obtain ⟨k, l, r, _, h2, h3⟩ := follow_snoc.mp hd
    have hp : parentAt nodes root = some k := by
      have := h.children h2
      cases b
      · rw [h3]; exact this.2.2.2.1
      · rw [h3]; exact this.2.2.2.2
    rw [(h.parent_eq_none_iff (h.inside root (by simp))).mpr rfl] at hp
    cases hp
  induction c using List.reverseRecOn with
  | nil =>
    intro d i hc hd
    have : i = root := (Option.some.inj hc).symm
    subst this
    cases d using List.reverseRecOn with
    | nil => rfl
    | append_singleton d b => exact absurd hd (hroot d b)
  | append_singleton c b ih =>
    intro d i hc hd
    cases d using List.reverseRecOn with
    | nil =>
      have : i = root := (Option.some.inj hd).symm
      subst this
      exact absurd hc (hroot c b)
    | append_singleton d b' =>
      obtain ⟨k, l, r, h1, h2, h3⟩ := follow_snoc.mp hc
      obtain ⟨k', l', r', h1', h2', h3'⟩ := follow_snoc.mp hd
      have e := h.children h2
      have e' := h.children h2'
      have hp : parentAt nodes i = some k := by
        rw [h3]; cases b
        · exact e.2.2.2.1
        · exact e.2.2.2.2
      have hp' : parentAt nodes i = some k' := by
        rw [h3']; cases b'
        · exact e'.2.2.2.1
        · exact e'.2.2.2.2
      have : k = k' := by rw [hp] at hp'; exact Option.some.inj hp'
      subst this
      obtain ⟨rfl, rfl⟩ := h2.unique h2'
      rw [ih d k h1 h1']
      congr 2
      have hlr := e.2.2.1
      rw [h3] at h3'
      cases b <;> cases b' <;> simp at h3' <;> first | rfl | exact absurd h3' hlr | exact absurd h3'.symm hlr

/-- Every node has a path from the root. -/
theorem Arena.reachable (h : Arena ft nodes [root]) : ∀ (m i : Nat), nodes.length ≤ i + m → i < nodes.length →
    ∃ c, follow nodes root c = some i
  | 0, i, h1, h2 => by omega
  | m + 1, i, h1, h2 => by
    cases hp : parentAt nodes i with
    | none => exact ⟨[], by rw [(h.parent_eq_none_iff h2).mp hp]; rfl⟩
    | some p =>
      obtain ⟨h3, h4, l, r, h5, h6⟩ := h.child i p hp
      obtain ⟨c, hc⟩ := h.reachable m p (by omega) h4
      rcases h6 with rfl | rfl
      · exact ⟨c ++ [false], follow_snoc.mpr ⟨p, i, r, hc, h5, rfl⟩⟩
      · exact ⟨c ++ [true], follow_snoc.mpr ⟨p, l, i, hc, h5, rfl⟩⟩

/-! ### GENCODES -/

/-- What `walk` does: each leaf below `j` gets its path from `j` behind `p`, and no other symbol changes. -/
theorem Arena.walk_spec (h : Arena ft nodes [root]) : ∀ (fuel j : Nat) (p : Code) (ct : Vector Code 257),
    j < fuel → j < nodes.length → ∃ ct', walk nodes fuel j p ct = .ok ct' ∧ ∀ n : SymbolId,
      (∃ c i, follow nodes j c = some i ∧ IsLeaf nodes i n ∧ ct'[n.val] = p ++ c) ∨
      ((∀ c i, follow nodes j c = some i → ¬ IsLeaf nodes i n) ∧ ct'[n.val] = ct[n.val])
  | 0, j, p, ct, h1, h2 => by omega
  | fuel + 1, j, p, ct, h1, h2 => by
    rcases h.kind h2 with ⟨m, hl⟩ | ⟨l, r, hi⟩
    · have hl' := hl
      obtain ⟨nd, e1, e2⟩ := hl'
      refine ⟨ct.set m.val p m.isLt, by simp [walk, e1, e2], fun n => ?_⟩
      by_cases hnm : n = m
      · subst hnm
        exact .inl ⟨[], j, rfl, hl, by simp⟩
      · refine .inr ⟨fun c i hf hl2 => ?_, ?_⟩
        · obtain ⟨_, rfl⟩ := follow_leaf hl hf
          exact hnm (hl2.unique hl)
        · rw [Vector.getElem_set_ne]
          intro e; exact hnm (Fin.ext e.symm)
    · obtain ⟨hlj, hrj, _, _, _⟩ := h.children hi
      obtain ⟨ct1, w1, g1⟩ := h.walk_spec fuel l (p ++ [false]) ct (by omega) (by omega)
      obtain ⟨ct2, w2, g2⟩ := h.walk_spec fuel r (p ++ [true]) ct1 (by omega) (by omega)
      have hi' := hi
      obtain ⟨nd, e1, e2⟩ := hi'
      refine ⟨ct2, by simp [walk, e1, e2, w1, w2], fun n => ?_⟩
      rcases g2 n with ⟨c, i, f1, f2, f3⟩ | ⟨f1, f2⟩
      · exact .inl ⟨true :: c, i, follow_cons.mpr ⟨l, r, hi, f1⟩, f2, by rw [f3]; simp⟩
      · rcases g1 n with ⟨c, i, k1, k2, k3⟩ | ⟨k1, k2⟩
        · exact .inl ⟨false :: c, i, follow_cons.mpr ⟨l, r, hi, k1⟩, k2, by rw [f2, k3]; simp⟩
        · refine .inr ⟨fun c i hf hl => ?_, f2.trans k2⟩
          cases c with
          | nil =>
            have : j = i := Option.some.inj hf
            subst this
            exact hl.not_internal hi
          | cons b c =>
            obtain ⟨l', r', hi2, hf2⟩ := follow_cons.mp hf
            obtain ⟨rfl, rfl⟩ := hi.unique hi2
            cases b
            · exact k1 c i hf2 hl
            · exact f1 c i hf2 hl

/-- The code table of the finished tree: with one leaf, the sentinel's code is the single bit 0 (R142); with more,
the codes are the paths to the leaves (R141). -/
theorem Arena.genCodes_spec (h : Arena ft nodes [root]) : ∃ ct, genCodes nodes root = .ok ct ∧
    ((presentSymbols ft).length = 1 → ct = emptyTable.set Config.eos.val [false] Config.eos.isLt) ∧
    (2 ≤ (presentSymbols ft).length → ∀ n : SymbolId,
      (∃ i, follow nodes root ct[n.val] = some i ∧ IsLeaf nodes i n ∧ ct[n.val] ≠ []) ∨
      (ct[n.val] = [] ∧ ftAt ft n = 0)) := by
  have hr := h.inside root (by simp)
  have hre := h.root_eq
  have hc := h.count
  simp only [List.length_cons, List.length_nil] at hc
  rcases h.kind hr with ⟨m, hl⟩ | ⟨l, r, hi⟩
  · have hm : m = Config.eos := by
      have h1 := h.isLeaf_iff.mp hl
      have hlt := (List.getElem?_eq_some_iff.mp h1).1
      have hN : (presentSymbols ft).length = 1 := by omega
      have h2 : Config.eos ∈ presentSymbols ft := mem_presentSymbols.mpr (by rw [ftAt_eos]; decide)
      obtain ⟨x, hx⟩ := List.length_eq_one_iff.mp hN
      rw [hx] at h1 h2
      have : root = 0 := by omega
      subst this
      simp at h1 h2
      rw [h2, h1]
    have hl' := hl
    obtain ⟨nd, e1, e2⟩ := hl'
    refine ⟨emptyTable.set m.val [false] m.isLt, by simp [genCodes, e1, e2], fun _ => by rw [hm], fun hN => ?_⟩
    have := (List.getElem?_eq_some_iff.mp (h.isLeaf_iff.mp hl)).1
    omega
  · obtain ⟨ct, w, g⟩ := h.walk_spec nodes.length root [] emptyTable hr hr
    have hi' := hi
    obtain ⟨nd, e1, e2⟩ := hi'
    refine ⟨ct, by simp [genCodes, e1, e2, w], fun hN => ?_, fun _ n => ?_⟩
    · have := h.internal_ge hi
      omega
    · rcases g n with ⟨c, i, f1, f2, f3⟩ | ⟨f1, f2⟩
      · rw [List.nil_append] at f3
        refine .inl ⟨i, by rw [f3]; exact f1, f2, ?_⟩
        rw [f3]; rintro rfl
        have : root = i := Option.some.inj f1
        subst this
        exact f2.not_internal hi
      · refine .inr ⟨by rw [f2]; simp [emptyTable], ?_⟩
        by_contra hn
        obtain ⟨j, hj⟩ := h.exists_leaf hn
        have hjl := hj
        obtain ⟨nd', hj', _⟩ := hjl
        have hjL := (List.getElem?_eq_some_iff.mp hj').1
        obtain ⟨c, hc'⟩ := h.reachable nodes.length j (by omega) hjL
        exact f1 c j hc' hj

end

end Sys2Proof.Machine
end

