-- ==== Sys2Proof/Laws/Decode.lean ====
section
/-! SUPPORT. Facts of the command word: the fields of an assembled word, the word of given fields, and what a
successful decoding says. -/

namespace Sys2Proof

section
variable (op s : BitVec 8) (i : BitVec 16) (d : BitVec 32)

@[simp] theorem opField_assemble : opField (assemble op s i d) = op := by
  ext k hk
  simp only [opField, assemble, BitVec.getElem_extractLsb', BitVec.getLsbD_append]
  have h0 : ¬ (56 + k < 32) := by omega
  have h1 : ¬ (56 + k - 32 < 16) := by omega
  have h2 : ¬ (56 + k - 32 - 16 < 8) := by omega
  simp [h0, h1, h2, show 56 + k - 32 - 16 - 8 = k by omega, BitVec.getLsbD_eq_getElem hk]

@[simp] theorem sField_assemble : sField (assemble op s i d) = s := by
  ext k hk
  simp only [sField, assemble, BitVec.getElem_extractLsb', BitVec.getLsbD_append]
  have h0 : ¬ (48 + k < 32) := by omega
  have h1 : ¬ (48 + k - 32 < 16) := by omega
  simp [h0, h1, show 48 + k - 32 - 16 = k by omega, hk]

@[simp] theorem iField_assemble : iField (assemble op s i d) = i := by
  ext k hk
  simp only [iField, assemble, BitVec.getElem_extractLsb', BitVec.getLsbD_append]
  have h0 : ¬ (32 + k < 32) := by omega
  simp [h0, show 32 + k - 32 = k by omega, hk]

@[simp] theorem dField_assemble : dField (assemble op s i d) = d := by
  ext k hk
  simp only [dField, assemble, BitVec.getElem_extractLsb', BitVec.getLsbD_append]
  simp [hk]

end

/-- A word is its four fields. -/
theorem assemble_fields (w : CommandWord) : assemble (opField w) (sField w) (iField w) (dField w) = w := by
  ext k hk
  rw [← BitVec.getLsbD_eq_getElem]
  simp only [assemble, BitVec.getLsbD_append, opField, sField, iField, dField, BitVec.getLsbD_extractLsb']
  by_cases h0 : k < 32
  · simp [h0, BitVec.getLsbD_eq_getElem hk]
  by_cases h1 : k - 32 < 16
  · simp [h0, h1, show 32 + (k - 32) = k by omega, BitVec.getLsbD_eq_getElem hk]
  by_cases h2 : k - 32 - 16 < 8
  · simp [h0, h1, h2, show 48 + (k - 32 - 16) = k by omega, BitVec.getLsbD_eq_getElem hk]
  · have h3 : k - 32 - 16 - 8 < 8 := by omega
    simp [h0, h1, h2, h3, show 56 + (k - 32 - 16 - 8) = k by omega, BitVec.getLsbD_eq_getElem hk]

/-- A word as the command rules write it: each field shifted to its place and or-ed in. -/
theorem assemble_eq_or (op s : BitVec 8) (i : BitVec 16) (d : BitVec 32) :
    assemble op s i d = (op.zeroExtend 64 <<< 56) ||| (s.zeroExtend 64 <<< 48) ||| (i.zeroExtend 64 <<< 32) |||
      d.zeroExtend 64 := by
  ext k hk
  rw [← BitVec.getLsbD_eq_getElem, ← BitVec.getLsbD_eq_getElem]
  simp only [assemble, BitVec.getLsbD_append, BitVec.getLsbD_or, BitVec.getLsbD_shiftLeft, BitVec.getLsbD_setWidth,
    BitVec.truncate_eq_setWidth]
  by_cases h0 : k < 32
  · simp [h0, show k < 64 by omega, show k < 56 by omega, show k < 48 by omega]
  have d0 : d.getLsbD k = false := BitVec.getLsbD_of_ge d k (by omega)
  by_cases h1 : k - 32 < 16
  · simp [h0, h1, d0, show k < 64 by omega, show k < 56 by omega, show k < 48 by omega, show k - 32 < 64 by omega]
  have i0 : i.getLsbD (k - 32) = false := BitVec.getLsbD_of_ge i _ (by omega)
  by_cases h2 : k - 32 - 16 < 8
  · simp [h0, h1, d0, i0, show k < 64 by omega, show k < 56 by omega, show ¬ k < 48 by omega,
      show k - 32 - 16 = k - 48 by omega, show k - 48 < 8 by omega, show k - 48 < 64 by omega]
  have s0 : s.getLsbD (k - 48) = false := BitVec.getLsbD_of_ge s _ (by omega)
  simp [h0, h1, h2, d0, i0, s0, hk, show ¬ k < 56 by omega,
    show k - 32 - 16 - 8 = k - 56 by omega, show k - 56 < 64 by omega]

section
variable {w : CommandWord} {i : Instr}

theorem formatZ_ok {j : Instr} (h : formatZ w j = .ok i) :
    i = j ∧ sField w = 0 ∧ iField w = 0 ∧ dField w = 0 := by
  unfold formatZ at h; split at h <;> simp_all

theorem formatI_ok {mk : BitVec 16 → Instr} (h : formatI w mk = .ok i) :
    i = mk (iField w) ∧ sField w = 0 ∧ dField w = 0 := by
  unfold formatI at h; split at h <;> simp_all

theorem formatSI_ok {mk : BitVec 8 → BitVec 16 → Instr} (h : formatSI w mk = .ok i) :
    i = mk (sField w) (iField w) ∧ dField w = 0 := by
  unfold formatSI at h; split at h <;> simp_all

theorem formatID_ok {mk : BitVec 16 → BitVec 32 → Instr} (h : formatID w mk = .ok i) :
    i = mk (iField w) (dField w) ∧ sField w = 0 := by
  unfold formatID at h; split at h <;> simp_all

theorem formatD_ok {mk : BitVec 32 → Instr} (h : formatD w mk = .ok i) :
    i = mk (dField w) ∧ sField w = 0 ∧ iField w = 0 := by
  unfold formatD at h; split at h <;> simp_all

end

end Sys2Proof
end

