-- ==== Sys2Proof/Laws/Flags.lean ====
section
/-! SUPPORT. The bits of SR.STATUS and of the sticky error flags. -/

namespace Sys2Proof.Machine

theorem flagBits_low (a b c d : Bool) :
    (flagBit a 0 ||| flagBit b 1 ||| flagBit c 2 ||| flagBit d 3).getLsbD 0 = a ∧
    (flagBit a 0 ||| flagBit b 1 ||| flagBit c 2 ||| flagBit d 3).getLsbD 1 = b ∧
    (flagBit a 0 ||| flagBit b 1 ||| flagBit c 2 ||| flagBit d 3).getLsbD 2 = c ∧
    (flagBit a 0 ||| flagBit b 1 ||| flagBit c 2 ||| flagBit d 3).getLsbD 3 = d := by
  cases a <;> cases b <;> cases c <;> cases d <;> decide

theorem flagBits_lt (a b c d : Bool) :
    (flagBit a 0 ||| flagBit b 1 ||| flagBit c 2 ||| flagBit d 3).toNat < 2 ^ 4 := by
  cases a <;> cases b <;> cases c <;> cases d <;> decide

/-- The four fields of SR.STATUS (R26). -/
theorem statusWord_fields (s : State) :
    (statusWord s).getLsbD 0 = s.treeValid ∧ (statusWord s).getLsbD 1 = s.ctValid ∧
    (statusWord s).getLsbD 2 = errAny s ∧ (statusWord s).getLsbD 3 = upExhausted s :=
  flagBits_low s.treeValid s.ctValid (errAny s) (upExhausted s)

/-- Bits 31 to 4 of SR.STATUS read as 0 (R26). -/
theorem statusWord_high (s : State) (k : Nat) (hk : 4 ≤ k) : (statusWord s).getLsbD k = false := by
  have h := flagBits_lt s.treeValid s.ctValid (errAny s) (upExhausted s)
  exact Nat.testBit_lt_two_pow (Nat.lt_of_lt_of_le h (Nat.pow_le_pow_right (by decide) hk))

/-- Every error code is 1 to 9, so it is no success and owns one of the nine flags (R28, R200). -/
theorem ErrCode.code_bounds (e : ErrCode) : 1 ≤ e.code.toNat ∧ e.code.toNat ≤ 9 := by cases e <;> decide

theorem ErrCode.code_ne_zero (e : ErrCode) : e.code ≠ 0 := by cases e <;> decide

theorem ErrCode.code_injective {e e' : ErrCode} (h : e.code = e'.code) : e = e' := by
  cases e <;> cases e' <;> first | rfl | exact absurd h (by decide)

end Sys2Proof.Machine
end

