-- ==== Sys2Proof/Laws/Memory.lean ====
section
/-! SUPPORT. The laws of a byte memory: a read after a write to the same place gives the value written, a write leaves
every other place alone and keeps the canonical form, and two memories in canonical form that read the same are equal. -/

namespace Sys2Proof.Machine

theorem Memory.wfFrom_mono : ∀ {lo lo' : Nat} {m : Memory}, lo' ≤ lo → Memory.wfFrom lo m = true →
    Memory.wfFrom lo' m = true
  | _, _, [], _, _ => rfl
  | _, _, (_, _) :: _, h, hm => by
    simp only [Memory.wfFrom, Bool.and_eq_true, decide_eq_true_eq] at hm ⊢
    exact ⟨⟨by omega, hm.1.2⟩, hm.2⟩

/-- Below its first address a memory reads as unlisted. -/
theorem Memory.read_below : ∀ {lo a : Nat} {m : Memory}, Memory.wfFrom lo m = true → a < lo →
    Memory.read m a = Memory.unlisted
  | _, _, [], _, _ => rfl
  | lo, a, (a', b) :: m, h, hlt => by
    simp only [Memory.wfFrom, Bool.and_eq_true, decide_eq_true_eq] at h
    have hne : a' ≠ a := by omega
    simp only [Memory.read, if_neg hne]
    exact Memory.read_below h.2 (by omega)

theorem Memory.read_write_of_wfFrom : ∀ {lo : Nat} {m : Memory} (a : Nat) (v : Byte) (x : Nat),
    Memory.wfFrom lo m = true → Memory.read (Memory.write m a v) x = if x = a then v else Memory.read m x
  | _, [], a, v, x, _ => by
    by_cases hv : v = Memory.unlisted <;> by_cases hx : x = a <;>
      simp [Memory.write, Memory.read, hv, hx, show (a = x) = (x = a) from propext eq_comm]
  | lo, (a', b) :: m, a, v, x, h => by
    simp only [Memory.wfFrom, Bool.and_eq_true, decide_eq_true_eq] at h
    have ih := Memory.read_write_of_wfFrom a v x h.2
    have below := @Memory.read_below (a' + 1) a' m h.2 (by omega)
    by_cases h1 : a < a'
    · have hx : Memory.read ((a', b) :: m) a = Memory.unlisted := by
        simp only [Memory.read, if_neg (show a' ≠ a by omega)]
        exact Memory.read_below h.2 (by omega)
      by_cases hv : v = Memory.unlisted
      · simp only [Memory.write, if_pos h1, if_pos hv]
        by_cases e : x = a
        · subst e; rw [hx, if_pos rfl, hv]
        · rw [if_neg e]
      · simp only [Memory.write, if_pos h1, if_neg hv]
        by_cases e : x = a
        · subst e; simp [Memory.read]
        · rw [if_neg e]; simp only [Memory.read, if_neg (show a ≠ x from fun h => e h.symm)]
    · by_cases h2 : a = a'
      · subst h2
        by_cases hv : v = Memory.unlisted
        · simp only [Memory.write, if_neg h1, if_true, if_pos hv]
          by_cases e : x = a
          · subst e; rw [if_pos rfl, below, hv]
          · simp only [if_neg e, Memory.read, if_neg (show a ≠ x from fun h => e h.symm)]
        · simp only [Memory.write, if_neg h1, if_true, if_neg hv]
          by_cases e : x = a
          · subst e; simp [Memory.read]
          · simp only [if_neg e, Memory.read, if_neg (show a ≠ x from fun h => e h.symm)]
      · simp only [Memory.write, if_neg h1, if_neg h2, Memory.read, ih]
        by_cases e : x = a
        · subst e; simp [show a' ≠ x from fun h => h2 h.symm]
        · simp [e]

/-- A read after a write: the value at the address written, what was there everywhere else. -/
theorem Memory.read_write {m : Memory} (h : Memory.wf m = true) (a : Nat) (v : Byte) (x : Nat) :
    Memory.read (Memory.write m a v) x = if x = a then v else Memory.read m x :=
  Memory.read_write_of_wfFrom a v x h

theorem Memory.write_wfFrom : ∀ {lo : Nat} {m : Memory} (a : Nat) (v : Byte), Memory.wfFrom lo m = true → lo ≤ a →
    Memory.wfFrom lo (Memory.write m a v) = true
  | _, [], a, v, _, hlo => by
    by_cases hv : v = Memory.unlisted <;> simp [Memory.write, Memory.wfFrom, hv, hlo]
  | lo, (a', b) :: m, a, v, h, hlo => by
    simp only [Memory.wfFrom, Bool.and_eq_true, decide_eq_true_eq] at h
    by_cases h1 : a < a'
    · by_cases hv : v = Memory.unlisted
      · simp [Memory.write, h1, hv, Memory.wfFrom, h]
      · simp only [Memory.write, if_pos h1, if_neg hv, Memory.wfFrom, Bool.and_eq_true, decide_eq_true_eq,
          bne_iff_ne, ne_eq]
        exact ⟨⟨hlo, hv⟩, ⟨by omega, by simpa using h.1.2⟩, h.2⟩
    · by_cases h2 : a = a'
      · subst h2
        by_cases hv : v = Memory.unlisted
        · simp only [Memory.write, if_neg h1, if_true, if_pos hv]
          exact Memory.wfFrom_mono (by omega) h.2
        · simp only [Memory.write, if_neg h1, if_true, if_neg hv, Memory.wfFrom, Bool.and_eq_true,
            decide_eq_true_eq, bne_iff_ne, ne_eq]
          exact ⟨⟨hlo, hv⟩, h.2⟩
      · simp only [Memory.write, if_neg h1, if_neg h2, Memory.wfFrom, Bool.and_eq_true, decide_eq_true_eq]
        exact ⟨h.1, Memory.write_wfFrom a v h.2 (by omega)⟩

/-- A write keeps the canonical form. -/
theorem Memory.write_wf {m : Memory} (h : Memory.wf m = true) (a : Nat) (v : Byte) :
    Memory.wf (Memory.write m a v) = true := Memory.write_wfFrom a v h (Nat.zero_le a)

/-- A write lists no address but the one it writes. -/
theorem Memory.mem_write : ∀ {m : Memory} {a : Nat} {v : Byte} {c : Host.Cell}, c ∈ Memory.write m a v →
    c.1 = a ∨ c ∈ m
  | [], a, v, c, h => by
    by_cases hv : v = Memory.unlisted <;> simp [Memory.write, hv] at h
    left; rw [h]
  | (a', b) :: m, a, v, c, h => by
    by_cases h1 : a < a'
    · by_cases hv : v = Memory.unlisted <;> simp [Memory.write, h1, hv] at h
      · right; simpa using h
      · rcases h with h | h | h
        · left; rw [h]
        · right; simp [h]
        · right; simp [h]
    · by_cases h2 : a = a'
      · by_cases hv : v = Memory.unlisted <;> simp [Memory.write, h2, hv] at h
        · right; simp [h]
        · rcases h with h | h
          · left; rw [h, h2]
          · right; simp [h]
      · simp only [Memory.write, if_neg h1, if_neg h2, List.mem_cons] at h
        rcases h with h | h
        · right; simp [h]
        · rcases Memory.mem_write h with h | h
          · exact .inl h
          · right; simp [h]

theorem Memory.ext_of_wfFrom : ∀ {lo : Nat} {m n : Memory}, Memory.wfFrom lo m = true → Memory.wfFrom lo n = true →
    (∀ a, Memory.read m a = Memory.read n a) → m = n
  | _, [], [], _, _, _ => rfl
  | _, [], (a, b) :: n, _, hn, h => by
    simp only [Memory.wfFrom, Bool.and_eq_true, bne_iff_ne, ne_eq] at hn
    have := h a; simp [Memory.read] at this
    exact absurd this.symm hn.1.2
  | _, (a, b) :: m, [], hm, _, h => by
    simp only [Memory.wfFrom, Bool.and_eq_true, bne_iff_ne, ne_eq] at hm
    have := h a; simp [Memory.read] at this
    exact absurd this hm.1.2
  | lo, (a, b) :: m, (a', b') :: n, hm, hn, h => by
    simp only [Memory.wfFrom, Bool.and_eq_true, bne_iff_ne, ne_eq, decide_eq_true_eq] at hm hn
    have e : a = a' := by
      rcases Nat.lt_trichotomy a a' with hlt | heq | hgt
      · have := h a
        simp only [Memory.read, if_true, if_neg (show a' ≠ a by omega),
          Memory.read_below hn.2 (show a < a' + 1 by omega)] at this
        exact absurd this hm.1.2
      · exact heq
      · have := h a'
        simp only [Memory.read, if_true, if_neg (show a ≠ a' by omega),
          Memory.read_below hm.2 (show a' < a + 1 by omega)] at this
        exact absurd this.symm hn.1.2
    subst e
    have eb : b = b' := by have := h a; simpa [Memory.read] using this
    subst eb
    have := Memory.ext_of_wfFrom hm.2 hn.2 fun x => by
      by_cases hx : a = x
      · subst hx
        rw [Memory.read_below hm.2 (by omega), Memory.read_below hn.2 (by omega)]
      · have := h x
        simpa only [Memory.read, if_neg hx] using this
    rw [this]

/-- Equal memories are equal data. -/
theorem Memory.ext_of_wf {m n : Memory} (hm : Memory.wf m = true) (hn : Memory.wf n = true)
    (h : ∀ a, Memory.read m a = Memory.read n a) : m = n := Memory.ext_of_wfFrom hm hn h

end Sys2Proof.Machine
end

