-- ==== Sys2Proof/Laws/Operands.lean ====
section
/-! SUPPORT. What the operand forms are: a byte's bit, a bit placed in a byte, a symbol named by an index field, and a
word of a code. -/

namespace Sys2Proof.Machine

/-- `bitOf` is the bit at a position. -/
theorem bitOf_eq (B : Byte) (pos : Nat) : bitOf B pos = B.getLsbD pos := by
  unfold bitOf
  cases h : B.getLsbD pos with
  | true =>
    have : (B >>> pos) &&& 1#8 = 1#8 := by
      ext i hi
      rw [← BitVec.getLsbD_eq_getElem hi, ← BitVec.getLsbD_eq_getElem hi]
      by_cases h0 : i = 0 <;> simp [h0, h, BitVec.getLsbD_one]
    simp [this]
  | false =>
    have : (B >>> pos) &&& 1#8 = 0#8 := by
      ext i hi
      rw [← BitVec.getLsbD_eq_getElem hi]
      by_cases h0 : i = 0 <;> simp [h0, h, BitVec.getLsbD_one]
    simp [this]

theorem bitOf_or (A B : Byte) (pos : Nat) : bitOf (A ||| B) pos = (bitOf A pos || bitOf B pos) := by
  simp [bitOf_eq]

theorem bitOf_zero (pos : Nat) : bitOf 0#8 pos = false := by simp [bitOf_eq]

/-- The bits of a byte that holds one bit. -/
theorem bitOf_bitAt (b : Bool) {pos : Nat} (h : pos < 8) (x : Nat) :
    bitOf (bitAt b pos) x = (decide (x = pos) && b) := by
  rw [bitOf_eq]
  cases b with
  | false => simp [bitAt]
  | true =>
    by_cases e : x = pos
    · subst e; simp [bitAt, h]
    · simp only [bitAt, if_true, BitVec.getLsbD_shiftLeft, BitVec.getLsbD_one, e, decide_false, Bool.false_and]
      by_cases h1 : x < pos <;> simp [h1]
      omega

/-- Two bytes with the same eight bits are equal. -/
theorem byte_ext {A B : Byte} (h : ∀ j, j < 8 → bitOf A j = bitOf B j) : A = B := by
  ext i hi
  rw [← BitVec.getLsbD_eq_getElem hi, ← BitVec.getLsbD_eq_getElem hi, ← bitOf_eq, ← bitOf_eq]
  exact h i hi

theorem streamPos_lt (k : Nat) : streamPos k < 8 := by unfold streamPos; omega

theorem symbolOf_val (n : SymbolId) : symbolOf (BitVec.ofNat 16 n.val) = some n := by
  have h : (BitVec.ofNat 16 n.val).toNat = n.val := by simp; omega
  simp [symbolOf, h, n.isLt]

theorem symbolOf_eq_none {i : BitVec 16} (h : 257 ≤ i.toNat) : symbolOf i = none := by
  simp only [symbolOf, dif_neg (show ¬ i.toNat < 257 by omega)]

theorem symbolOf_eq_some {i : BitVec 16} {n : SymbolId} (h : i.toNat = n.val) : symbolOf i = some n := by
  have := n.isLt
  simp only [symbolOf, dif_pos (show i.toNat < 257 by omega), Option.some.injEq]
  exact Fin.ext h

theorem byteSymbolOf_eq_none {i : BitVec 16} (h : 256 ≤ i.toNat) : byteSymbolOf i = none := by
  simp only [byteSymbolOf, dif_neg (show ¬ i.toNat < 256 by omega)]

theorem byteSymbolOf_eq_some {i : BitVec 16} (h : i.toNat < 256) : byteSymbolOf i = some ⟨i.toNat, h⟩ := by
  simp only [byteSymbolOf, dif_pos h]

theorem codeWord_fold (c : Code) (n : Nat) {k : Nat} (hk : k < 32) : ∀ (l : List Nat) (w : Data),
    (∀ x ∈ l, x < 32) →
    (l.foldl (fun w k => if c.getD (32 * n + k) false then w ||| (1#32 <<< (31 - k)) else w) w).getLsbD (31 - k) =
      (w.getLsbD (31 - k) || (decide (k ∈ l) && c.getD (32 * n + k) false))
  | [], w, _ => by simp
  | x :: l, w, h => by
    have hx : x < 32 := h x (by simp)
    rw [List.foldl_cons, codeWord_fold c n hk l _ fun y hy => h y (by simp [hy])]
    by_cases e : k = x
    · subst e
      cases hc : c.getD (32 * n + k) false
      · simp
      · have : (w ||| 1#32 <<< (31 - k)).getLsbD (31 - k) = true := by
          simp only [BitVec.getLsbD_or, BitVec.getLsbD_shiftLeft, BitVec.getLsbD_one]
          simp; omega
        simp [this]
    · have h1 : (1#32 <<< (31 - x)).getLsbD (31 - k) = false := by
        simp only [BitVec.getLsbD_shiftLeft, BitVec.getLsbD_one]
        by_cases h1 : 31 - k < 31 - x
        · simp [h1]
        · have : ¬ (31 - k - (31 - x) = 0) := by omega
          simp [this]
      have h2 : (decide (k ∈ x :: l)) = decide (k ∈ l) := by simp [e]
      rw [h2]
      split <;> simp [h1]

/-- R104: bit 31 − k of word n of a code is bit 32 n + k of the code, or 0. -/
theorem codeWord_getLsbD (c : Code) (n : Nat) {k : Nat} (hk : k < 32) :
    (codeWord c n).getLsbD (31 - k) = c.getD (32 * n + k) false := by
  unfold codeWord
  rw [codeWord_fold c n hk (List.range 32) 0#32 fun x hx => List.mem_range.mp hx]
  simp [hk]

end Sys2Proof.Machine
end

