-- ==== Sys2Proof/Laws/Packer.lean ====
section
/-! SUPPORT. What `pkAppend` and `pkAppendAll` do: where they answer, the byte they write, the bits of the packed stream
afterwards, and their frame. -/

namespace Sys2Proof.Machine

/-- The byte that PkAppend(b) writes (R156). -/
def appendedByte (b : Bool) (s : State) : Byte :=
  if s.pkBitcnt.toNat % 8 = 0 then bitAt b 7
  else Memory.read s.pmem (streamAddr s.pkBitcnt.toNat) ||| bitAt b (streamPos s.pkBitcnt.toNat)

/-- The state after PkAppend(b). -/
def appended (b : Bool) (s : State) : State :=
  { s with
    pmem := Memory.write s.pmem (streamAddr s.pkBitcnt.toNat) (appendedByte b s)
    pkBitcnt := BitVec.ofNat 32 (s.pkBitcnt.toNat + 1) }

/-- Where there is room PkAppend answers. -/
theorem pkAppend_ok {s : State} (b : Bool) (h : s.pkBitcnt.toNat < 8 * s.params.pbufBytes) :
    pkAppend b s = .ok (appended b s) := by
  have ha : streamAddr s.pkBitcnt.toNat < s.params.pbufBytes := by unfold streamAddr; omega
  unfold pkAppend appended appendedByte
  by_cases h0 : s.pkBitcnt.toNat % 8 = 0
  · simp [h0, State.pmemWrite, ha, Except.map]
  · simp [h0, State.pmemRead, State.pmemWrite, ha, Except.map]

/-- Whatever PkAppend answers is that state. -/
theorem pkAppend_eq {s t : State} {b : Bool} (h : pkAppend b s = .ok t) :
    t = appended b s ∧ streamAddr s.pkBitcnt.toNat < s.params.pbufBytes := by
  by_cases ha : streamAddr s.pkBitcnt.toNat < s.params.pbufBytes
  · have := pkAppend_ok (s := s) b (by unfold streamAddr at ha; omega)
    rw [this] at h
    exact ⟨by injection h with h; exact h.symm, ha⟩
  · exfalso
    unfold pkAppend at h
    by_cases h0 : s.pkBitcnt.toNat % 8 = 0
    · simp [h0, State.pmemWrite, ha, Except.map] at h
    · simp [h0, State.pmemRead, ha] at h

section
variable {s : State} (b : Bool)

@[simp] theorem appended_params : (appended b s).params = s.params := rfl
@[simp] theorem appended_ft : (appended b s).ft = s.ft := rfl
@[simp] theorem appended_ct : (appended b s).ct = s.ct := rfl
@[simp] theorem appended_umem : (appended b s).umem = s.umem := rfl

/-- PkAppend changes PMEM and PK_BITCNT only. -/
theorem appended_frame :
    appended b s = { s with pmem := (appended b s).pmem, pkBitcnt := (appended b s).pkBitcnt } := rfl

/-- PK_BITCNT never wraps (R155). -/
theorem appended_pkBitcnt (hp : s.params.ok = true) (h : s.pkBitcnt.toNat < 8 * s.params.pbufBytes) :
    (appended b s).pkBitcnt.toNat = s.pkBitcnt.toNat + 1 := by
  simp only [Params.ok, Bool.and_eq_true, decide_eq_true_eq] at hp
  simp only [appended, BitVec.toNat_ofNat]
  omega

/-- PkAppend changes no byte but the one it writes. -/
theorem appended_read (hm : Memory.wf s.pmem = true) (a : Nat) :
    Memory.read (appended b s).pmem a =
      if a = streamAddr s.pkBitcnt.toNat then appendedByte b s else Memory.read s.pmem a :=
  Memory.read_write hm _ _ _

theorem appendedByte_bit (hpad : PaddingZero s) (j : Nat) (hj : j < 8) :
    bitOf (appendedByte b s) (7 - j) =
      if j < s.pkBitcnt.toNat % 8 then bitOf (Memory.read s.pmem (streamAddr s.pkBitcnt.toNat)) (7 - j)
      else decide (j = s.pkBitcnt.toNat % 8) && b := by
  unfold appendedByte
  by_cases h0 : s.pkBitcnt.toNat % 8 = 0
  · rw [if_pos h0, bitOf_bitAt b (by omega), h0]
    simp only [Nat.not_lt_zero, if_false]
    congr 1
    by_cases e : j = 0 <;> simp [e]
    omega
  · rw [if_neg h0, bitOf_or, bitOf_bitAt b (streamPos_lt _)]
    have hpos : streamPos s.pkBitcnt.toNat = 7 - s.pkBitcnt.toNat % 8 := rfl
    by_cases h1 : j < s.pkBitcnt.toNat % 8
    · rw [if_pos h1]
      have : ¬ (7 - j = streamPos s.pkBitcnt.toNat) := by rw [hpos]; omega
      simp [this]
    · rw [if_neg h1]
      have hz := hpad (8 * (s.pkBitcnt.toNat / 8) + j) (by omega) (by unfold State.pkByteLen; omega)
      simp only [pmemBit, streamAddr, streamPos] at hz
      rw [show (8 * (s.pkBitcnt.toNat / 8) + j) / 8 = s.pkBitcnt.toNat / 8 by omega,
        show (8 * (s.pkBitcnt.toNat / 8) + j) % 8 = j by omega] at hz
      simp only [streamAddr, hz, Bool.false_or]
      congr 1
      rw [hpos]
      by_cases e : j = s.pkBitcnt.toNat % 8 <;> simp [e]
      omega

/-- The packed stream's bits after PkAppend: the old ones, then the new one, then zeros (R155). -/
theorem pmemBit_appended (hm : Memory.wf s.pmem = true) (hpad : PaddingZero s) (k : Nat)
    (hk : k < 8 * (s.pkBitcnt.toNat / 8 + 1)) :
    pmemBit (appended b s) k =
      if k < s.pkBitcnt.toNat then pmemBit s k else decide (k = s.pkBitcnt.toNat) && b := by
  unfold pmemBit
  rw [appended_read b hm]
  by_cases ha : streamAddr k = streamAddr s.pkBitcnt.toNat
  · rw [if_pos ha]
    have hbit := appendedByte_bit b hpad (k % 8) (by omega)
    unfold streamAddr at ha
    rw [show streamPos k = 7 - k % 8 from rfl, hbit, show streamAddr s.pkBitcnt.toNat = streamAddr k from ha.symm]
    have e1 : (k % 8 < s.pkBitcnt.toNat % 8) = (k < s.pkBitcnt.toNat) := by
      apply propext; constructor <;> intro _ <;> omega
    have e2 : (k % 8 = s.pkBitcnt.toNat % 8) = (k = s.pkBitcnt.toNat) := by
      apply propext; constructor <;> intro _ <;> omega
    simp only [e1, e2]
  · rw [if_neg ha]
    unfold streamAddr at ha
    rw [if_pos (by omega)]

theorem appended_padding (hp : s.params.ok = true) (hm : Memory.wf s.pmem = true) (hpad : PaddingZero s)
    (h : s.pkBitcnt.toNat < 8 * s.params.pbufBytes) : PaddingZero (appended b s) := by
  intro k h1 h2
  have hc := appended_pkBitcnt b hp h
  unfold State.pkByteLen at h2
  rw [hc] at h1 h2
  rw [pmemBit_appended b hm hpad k (by omega), if_neg (by omega)]
  have : ¬ k = s.pkBitcnt.toNat := by omega
  simp [this]

/-- PkAppend appends its bit to the packed stream (R150, R155). -/
theorem packedBits_appended (hp : s.params.ok = true) (hm : Memory.wf s.pmem = true) (hpad : PaddingZero s)
    (h : s.pkBitcnt.toNat < 8 * s.params.pbufBytes) : packedBits (appended b s) = packedBits s ++ [b] := by
  unfold packedBits
  rw [appended_pkBitcnt b hp h, List.range_succ, List.map_append]
  congr 1
  · apply List.map_congr_left
    intro k hk
    have := List.mem_range.mp hk
    rw [pmemBit_appended b hm hpad k (by omega), if_pos this]
  · simp only [List.map_cons, List.map_nil]
    rw [pmemBit_appended b hm hpad _ (by omega)]
    simp

end

/-- What an append of a whole code does, where it fits (R153): it answers, appends the code, keeps the padding zero and
changes no byte outside those it reaches. -/
theorem pkAppendAll_ok : ∀ (c : Code) (s : State), s.params.ok = true → Memory.wf s.pmem = true → PaddingZero s →
    s.pkBitcnt.toNat + c.length ≤ 8 * s.params.pbufBytes →
    ∃ t, pkAppendAll c s = .ok t ∧ t = { s with pmem := t.pmem, pkBitcnt := t.pkBitcnt } ∧
      packedBits t = packedBits s ++ c ∧ PaddingZero t ∧ Memory.wf t.pmem = true ∧
      t.pkBitcnt.toNat = s.pkBitcnt.toNat + c.length ∧
      (∀ a, a < s.pkBitcnt.toNat / 8 ∨ (s.pkBitcnt.toNat + c.length + 7) / 8 ≤ a →
        Memory.read t.pmem a = Memory.read s.pmem a)
  | [], s, _, hm, hpad, _ => ⟨s, rfl, rfl, by simp, hpad, hm, rfl, fun _ _ => rfl⟩
  | b :: c, s, hp, hm, hpad, hroom => by
    simp only [List.length_cons] at hroom
    have hlt : s.pkBitcnt.toNat < 8 * s.params.pbufBytes := by omega
    have hc := appended_pkBitcnt b hp hlt
    obtain ⟨t, h1, h2, h3, h4, h5, h6, h7⟩ := pkAppendAll_ok c (appended b s) hp
      (Memory.write_wf hm _ _) (appended_padding b hp hm hpad hlt) (by rw [hc]; simp only [appended_params]; omega)
    refine ⟨t, ?_, ?_, ?_, h4, h5, ?_, ?_⟩
    · simp only [pkAppendAll, pkAppend_ok b hlt, h1]
    · rw [h2]; rfl
    · rw [h3, packedBits_appended b hp hm hpad hlt]; simp
    · rw [h6, hc, List.length_cons]; omega
    · intro a ha
      simp only [List.length_cons] at ha
      rw [h7 a (by rw [hc]; omega), appended_read b hm, if_neg (by unfold streamAddr; omega)]

/-- An append of a code changes PMEM and PK_BITCNT only. -/
theorem pkAppendAll_frame : ∀ {c : Code} {s t : State}, pkAppendAll c s = .ok t →
    t = { s with pmem := t.pmem, pkBitcnt := t.pkBitcnt }
  | [], _, _, h => by injection h with h; rw [← h]
  | b :: c, s, t, h => by
    unfold pkAppendAll at h
    split at h
    · cases h
    · rename_i u hu
      rw [pkAppendAll_frame h, (pkAppend_eq hu).1]
      rfl

/-- An append of a code keeps PMEM canonical and inside its capacity. -/
theorem pkAppendAll_memory : ∀ {c : Code} {s t : State}, pkAppendAll c s = .ok t → Memory.wf s.pmem = true →
    (∀ x ∈ s.pmem, x.1 < s.params.pbufBytes) →
    Memory.wf t.pmem = true ∧ ∀ x ∈ t.pmem, x.1 < s.params.pbufBytes
  | [], _, _, h, hm, ha => by injection h with h; subst h; exact ⟨hm, ha⟩
  | b :: c, s, t, h, hm, ha => by
    unfold pkAppendAll at h
    split at h
    · cases h
    · rename_i u hu
      obtain ⟨rfl, hlt⟩ := pkAppend_eq hu
      refine pkAppendAll_memory (s := appended b s) h (Memory.write_wf hm _ _) fun x hx => ?_
      rcases Memory.mem_write hx with e | e
      · rw [e]; exact hlt
      · exact ha x e

end Sys2Proof.Machine
end

