-- ==== Sys2Proof/Laws/State.lean ====
section
/-! SUPPORT. What each named update of State does to each field, true by rfl: no later proof unfolds one. -/

namespace Sys2Proof.Machine

section
variable (e : ErrCode) (cmd : CommandWord) (s : State)

@[simp] theorem errorEntry_params : (errorEntry e cmd s).params = s.params := rfl
@[simp] theorem errorEntry_ft : (errorEntry e cmd s).ft = s.ft := rfl
@[simp] theorem errorEntry_treeValid : (errorEntry e cmd s).treeValid = s.treeValid := rfl
@[simp] theorem errorEntry_ctValid : (errorEntry e cmd s).ctValid = s.ctValid := rfl
@[simp] theorem errorEntry_nleaf : (errorEntry e cmd s).nleaf = s.nleaf := rfl
@[simp] theorem errorEntry_nnode : (errorEntry e cmd s).nnode = s.nnode := rfl
@[simp] theorem errorEntry_root : (errorEntry e cmd s).root = s.root := rfl
@[simp] theorem errorEntry_nodes : (errorEntry e cmd s).nodes = s.nodes := rfl
@[simp] theorem errorEntry_ct : (errorEntry e cmd s).ct = s.ct := rfl
@[simp] theorem errorEntry_pkBitcnt : (errorEntry e cmd s).pkBitcnt = s.pkBitcnt := rfl
@[simp] theorem errorEntry_pmem : (errorEntry e cmd s).pmem = s.pmem := rfl
@[simp] theorem errorEntry_upLen : (errorEntry e cmd s).upLen = s.upLen := rfl
@[simp] theorem errorEntry_upPos : (errorEntry e cmd s).upPos = s.upPos := rfl
@[simp] theorem errorEntry_umem : (errorEntry e cmd s).umem = s.umem := rfl
@[simp] theorem errorEntry_errflags : (errorEntry e cmd s).errflags = s.errflags ||| e.flag := rfl
@[simp] theorem errorEntry_lasterr : (errorEntry e cmd s).lasterr = e.code := rfl
@[simp] theorem errorEntry_ecmdLo : (errorEntry e cmd s).ecmdLo = cmd.extractLsb' 0 32 := rfl
@[simp] theorem errorEntry_ecmdHi : (errorEntry e cmd s).ecmdHi = cmd.extractLsb' 32 32 := rfl
@[simp] theorem errorEntry_input : (errorEntry e cmd s).input = s.input := rfl
@[simp] theorem errorEntry_resp : (errorEntry e cmd s).resp = some { err := e.code, rdata := 0 } := rfl

end

section
variable (s : State)

@[simp] theorem invalidate_params : (invalidate s).params = s.params := rfl
@[simp] theorem invalidate_ft : (invalidate s).ft = s.ft := rfl
@[simp] theorem invalidate_treeValid : (invalidate s).treeValid = false := rfl
@[simp] theorem invalidate_ctValid : (invalidate s).ctValid = false := rfl
@[simp] theorem invalidate_nleaf : (invalidate s).nleaf = 0 := rfl
@[simp] theorem invalidate_nnode : (invalidate s).nnode = 0 := rfl
@[simp] theorem invalidate_root : (invalidate s).root = 0 := rfl
@[simp] theorem invalidate_nodes : (invalidate s).nodes = s.nodes := rfl
@[simp] theorem invalidate_ct : (invalidate s).ct = s.ct := rfl
@[simp] theorem invalidate_pkBitcnt : (invalidate s).pkBitcnt = s.pkBitcnt := rfl
@[simp] theorem invalidate_pmem : (invalidate s).pmem = s.pmem := rfl
@[simp] theorem invalidate_upLen : (invalidate s).upLen = s.upLen := rfl
@[simp] theorem invalidate_upPos : (invalidate s).upPos = s.upPos := rfl
@[simp] theorem invalidate_umem : (invalidate s).umem = s.umem := rfl
@[simp] theorem invalidate_errflags : (invalidate s).errflags = s.errflags := rfl
@[simp] theorem invalidate_lasterr : (invalidate s).lasterr = s.lasterr := rfl
@[simp] theorem invalidate_ecmdLo : (invalidate s).ecmdLo = s.ecmdLo := rfl
@[simp] theorem invalidate_ecmdHi : (invalidate s).ecmdHi = s.ecmdHi := rfl
@[simp] theorem invalidate_input : (invalidate s).input = s.input := rfl
@[simp] theorem invalidate_resp : (invalidate s).resp = s.resp := rfl

end

section
variable (b : Fin 256) (d : Data) (s : State)

@[simp] theorem ftWrite_params : (s.ftWrite b d).params = s.params := rfl
@[simp] theorem ftWrite_ft : (s.ftWrite b d).ft = s.ft.set b.val d b.isLt := rfl
@[simp] theorem ftWrite_treeValid : (s.ftWrite b d).treeValid = s.treeValid := rfl
@[simp] theorem ftWrite_ctValid : (s.ftWrite b d).ctValid = s.ctValid := rfl
@[simp] theorem ftWrite_nleaf : (s.ftWrite b d).nleaf = s.nleaf := rfl
@[simp] theorem ftWrite_nnode : (s.ftWrite b d).nnode = s.nnode := rfl
@[simp] theorem ftWrite_root : (s.ftWrite b d).root = s.root := rfl
@[simp] theorem ftWrite_nodes : (s.ftWrite b d).nodes = s.nodes := rfl
@[simp] theorem ftWrite_ct : (s.ftWrite b d).ct = s.ct := rfl
@[simp] theorem ftWrite_pkBitcnt : (s.ftWrite b d).pkBitcnt = s.pkBitcnt := rfl
@[simp] theorem ftWrite_pmem : (s.ftWrite b d).pmem = s.pmem := rfl
@[simp] theorem ftWrite_upLen : (s.ftWrite b d).upLen = s.upLen := rfl
@[simp] theorem ftWrite_upPos : (s.ftWrite b d).upPos = s.upPos := rfl
@[simp] theorem ftWrite_umem : (s.ftWrite b d).umem = s.umem := rfl
@[simp] theorem ftWrite_errflags : (s.ftWrite b d).errflags = s.errflags := rfl
@[simp] theorem ftWrite_lasterr : (s.ftWrite b d).lasterr = s.lasterr := rfl
@[simp] theorem ftWrite_ecmdLo : (s.ftWrite b d).ecmdLo = s.ecmdLo := rfl
@[simp] theorem ftWrite_ecmdHi : (s.ftWrite b d).ecmdHi = s.ecmdHi := rfl
@[simp] theorem ftWrite_input : (s.ftWrite b d).input = s.input := rfl
@[simp] theorem ftWrite_resp : (s.ftWrite b d).resp = s.resp := rfl

end

section
variable (s : State)

@[simp] theorem resetState_params : (resetState s).params = s.params := rfl
@[simp] theorem resetState_ft : (resetState s).ft = zeroFt := rfl
@[simp] theorem resetState_treeValid : (resetState s).treeValid = false := rfl
@[simp] theorem resetState_ctValid : (resetState s).ctValid = false := rfl
@[simp] theorem resetState_nleaf : (resetState s).nleaf = 0 := rfl
@[simp] theorem resetState_nnode : (resetState s).nnode = 0 := rfl
@[simp] theorem resetState_root : (resetState s).root = 0 := rfl
@[simp] theorem resetState_nodes : (resetState s).nodes = s.nodes := rfl
@[simp] theorem resetState_ct : (resetState s).ct = s.ct := rfl
@[simp] theorem resetState_pkBitcnt : (resetState s).pkBitcnt = 0 := rfl
@[simp] theorem resetState_pmem : (resetState s).pmem = s.pmem := rfl
@[simp] theorem resetState_upLen : (resetState s).upLen = 0 := rfl
@[simp] theorem resetState_upPos : (resetState s).upPos = 0 := rfl
@[simp] theorem resetState_umem : (resetState s).umem = s.umem := rfl
@[simp] theorem resetState_errflags : (resetState s).errflags = 0 := rfl
@[simp] theorem resetState_lasterr : (resetState s).lasterr = 0 := rfl
@[simp] theorem resetState_ecmdLo : (resetState s).ecmdLo = 0 := rfl
@[simp] theorem resetState_ecmdHi : (resetState s).ecmdHi = 0 := rfl
@[simp] theorem resetState_input : (resetState s).input = s.input := rfl
@[simp] theorem resetState_resp : (resetState s).resp = s.resp := rfl

end

section
variable (s : State)

@[simp] theorem hardReset_params : (hardReset s).params = s.params := rfl
@[simp] theorem hardReset_ft : (hardReset s).ft = zeroFt := rfl
@[simp] theorem hardReset_treeValid : (hardReset s).treeValid = false := rfl
@[simp] theorem hardReset_ctValid : (hardReset s).ctValid = false := rfl
@[simp] theorem hardReset_nleaf : (hardReset s).nleaf = 0 := rfl
@[simp] theorem hardReset_nnode : (hardReset s).nnode = 0 := rfl
@[simp] theorem hardReset_root : (hardReset s).root = 0 := rfl
@[simp] theorem hardReset_nodes : (hardReset s).nodes = s.nodes := rfl
@[simp] theorem hardReset_ct : (hardReset s).ct = s.ct := rfl
@[simp] theorem hardReset_pkBitcnt : (hardReset s).pkBitcnt = 0 := rfl
@[simp] theorem hardReset_pmem : (hardReset s).pmem = s.pmem := rfl
@[simp] theorem hardReset_upLen : (hardReset s).upLen = 0 := rfl
@[simp] theorem hardReset_upPos : (hardReset s).upPos = 0 := rfl
@[simp] theorem hardReset_umem : (hardReset s).umem = s.umem := rfl
@[simp] theorem hardReset_errflags : (hardReset s).errflags = 0 := rfl
@[simp] theorem hardReset_lasterr : (hardReset s).lasterr = 0 := rfl
@[simp] theorem hardReset_ecmdLo : (hardReset s).ecmdLo = 0 := rfl
@[simp] theorem hardReset_ecmdHi : (hardReset s).ecmdHi = 0 := rfl
@[simp] theorem hardReset_input : (hardReset s).input = s.input := rfl
@[simp] theorem hardReset_resp : (hardReset s).resp = none := rfl

end

section
variable (e : HostEvent) (s : State)

@[simp] theorem present_params : (s.present e).params = s.params := rfl
@[simp] theorem present_ft : (s.present e).ft = s.ft := rfl
@[simp] theorem present_treeValid : (s.present e).treeValid = s.treeValid := rfl
@[simp] theorem present_ctValid : (s.present e).ctValid = s.ctValid := rfl
@[simp] theorem present_nleaf : (s.present e).nleaf = s.nleaf := rfl
@[simp] theorem present_nnode : (s.present e).nnode = s.nnode := rfl
@[simp] theorem present_root : (s.present e).root = s.root := rfl
@[simp] theorem present_nodes : (s.present e).nodes = s.nodes := rfl
@[simp] theorem present_ct : (s.present e).ct = s.ct := rfl
@[simp] theorem present_pkBitcnt : (s.present e).pkBitcnt = s.pkBitcnt := rfl
@[simp] theorem present_pmem : (s.present e).pmem = s.pmem := rfl
@[simp] theorem present_upLen : (s.present e).upLen = s.upLen := rfl
@[simp] theorem present_upPos : (s.present e).upPos = s.upPos := rfl
@[simp] theorem present_umem : (s.present e).umem = s.umem := rfl
@[simp] theorem present_errflags : (s.present e).errflags = s.errflags := rfl
@[simp] theorem present_lasterr : (s.present e).lasterr = s.lasterr := rfl
@[simp] theorem present_ecmdLo : (s.present e).ecmdLo = s.ecmdLo := rfl
@[simp] theorem present_ecmdHi : (s.present e).ecmdHi = s.ecmdHi := rfl
@[simp] theorem present_input : (s.present e).input = e :: s.input := rfl
@[simp] theorem present_resp : (s.present e).resp = s.resp := rfl

end

end Sys2Proof.Machine
end

