-- ==== Sys2Proof/Laws/Unpacker.lean ====
section
/-! SUPPORT. What loading the unpacker does to its stream, and what the stream's bits are. -/

namespace Sys2Proof.Machine

/-- The state after UPBYTE of a byte (R162). -/
def loaded (B : Byte) (s : State) : State :=
  { s with umem := Memory.write s.umem s.upLen.toNat B, upLen := BitVec.ofNat 32 (s.upLen.toNat + 1) }

theorem umemWrite_ok {s : State} {a : Nat} (v : Byte) (h : a < s.params.ubufBytes) :
    s.umemWrite a v = .ok { s with umem := Memory.write s.umem a v } := by simp [State.umemWrite, h]

theorem umemRead_ok {s : State} {a : Nat} (h : a < s.params.ubufBytes) :
    s.umemRead a = .ok (Memory.read s.umem a) := by simp [State.umemRead, h]

section
variable {s : State} (B : Byte)

/-- UP_LEN never wraps (R165). -/
theorem loaded_upLen (hp : s.params.ok = true) (h : s.upLen.toNat < s.params.ubufBytes) :
    (loaded B s).upLen.toNat = s.upLen.toNat + 1 := by
  simp only [Params.ok, Bool.and_eq_true, decide_eq_true_eq] at hp
  simp only [loaded, BitVec.toNat_ofNat]
  omega

theorem loaded_read (hm : Memory.wf s.umem = true) (a : Nat) :
    Memory.read (loaded B s).umem a = if a = s.upLen.toNat then B else Memory.read s.umem a :=
  Memory.read_write hm _ _ _

theorem umemBit_loaded (hm : Memory.wf s.umem = true) (k : Nat) :
    umemBit (loaded B s) k = if k / 8 = s.upLen.toNat then bitOf B (streamPos k) else umemBit s k := by
  unfold umemBit
  rw [loaded_read B hm]
  simp only [streamAddr]
  split <;> simp_all

/-- A byte loaded extends the stream by its eight bits. -/
theorem loadedBits_loaded (hp : s.params.ok = true) (hm : Memory.wf s.umem = true)
    (h : s.upLen.toNat < s.params.ubufBytes) : loadedBits (loaded B s) = loadedBits s ++ byteBits B := by
  unfold loadedBits byteBits
  rw [loaded_upLen B hp h, show 8 * (s.upLen.toNat + 1) = 8 * s.upLen.toNat + 8 by omega, List.range_add,
    List.map_append, List.map_map]
  congr 1
  · apply List.map_congr_left
    intro k hk
    have := List.mem_range.mp hk
    rw [umemBit_loaded B hm, if_neg (by omega)]
  · apply List.map_congr_left
    intro k hk
    have := List.mem_range.mp hk
    simp only [Function.comp_apply]
    rw [umemBit_loaded B hm, if_pos (by omega)]
    congr 1
    unfold streamPos
    omega

end

/-- The stream's length (R160). -/
@[simp] theorem loadedBits_length (s : State) : (loadedBits s).length = 8 * s.upLen.toNat := by simp [loadedBits]

@[simp] theorem packedBits_length (s : State) : (packedBits s).length = s.pkBitcnt.toNat := by simp [packedBits]

@[simp] theorem byteBits_length (B : Byte) : (byteBits B).length = 8 := by simp [byteBits]

theorem loadedBits_getElem (s : State) (k : Nat) (h : k < 8 * s.upLen.toNat) :
    (loadedBits s)[k]? = some (umemBit s k) := by
  simp [loadedBits, h]

/-- The bit NEXTBIT returns is the first of those that remain. -/
theorem remainingBits_eq_cons (s : State) (h : s.upPos.toNat < 8 * s.upLen.toNat) :
    remainingBits s = umemBit s s.upPos.toNat :: (loadedBits s).drop (s.upPos.toNat + 1) := by
  unfold remainingBits
  have hl : s.upPos.toNat < (loadedBits s).length := by simpa using h
  rw [List.drop_eq_getElem_cons hl]
  congr 1
  have := loadedBits_getElem s s.upPos.toNat h
  rw [List.getElem?_eq_getElem hl] at this
  exact Option.some.inj this

end Sys2Proof.Machine
end

