-- ==== Sys2Proof/Laws/Exec.lean ====
section
/-! SUPPORT. Said once: what a command, and a step, can do. Invariants and frames are derived from `exec_cases` and
`step_cases`; no later proof unfolds a meaning. -/

namespace Sys2Proof.Machine

/-- The errors a command raises (R200, column "raised by"). -/
def raisedBy : Instr → List ErrCode
  | .nop | .reset | .clrfreq | .build | .pkreset | .upreset | .uprewind => []
  | .rdsr _ | .setfreq _ _ | .rdfreq _ | .rdpk _ => [.badOperand]
  | .rdnode _ _ => [.badOperand, .sequence]
  | .gencodes => [.sequence]
  | .rdclen _ => [.badOperand, .sequence]
  | .rdcode _ _ => [.badOperand, .sequence, .noCode]
  | .pushbit _ | .upbyte _ => [.badOperand, .capacity]
  | .pushsym _ => [.badOperand, .sequence, .noCode, .capacity]
  | .nextbit => [.outOfRange]

/-- The state `u` a command that succeeds leaves, its response apart, with what its checks established. -/
def Success (i : Instr) (s u : State) : Prop :=
  match i with
  | .nop | .rdsr _ | .rdfreq _ | .rdnode _ _ | .rdclen _ | .rdcode _ _ | .rdpk _ => u = s
  | .reset => u = resetState s
  | .clrfreq => u = invalidate { s with ft := zeroFt }
  | .setfreq n d => ∃ b, byteSymbolOf n = some b ∧ u = invalidate (s.ftWrite b d)
  | .build => u = { s with
      nodes := (buildTree s.ft).1, root := BitVec.ofNat 32 (rootOf (buildTree s.ft).2)
      nleaf := BitVec.ofNat 32 (leaves s.ft).length, nnode := BitVec.ofNat 32 (buildTree s.ft).1.length
      treeValid := true, ctValid := false }
  | .gencodes => s.treeValid = true ∧ ∃ ct, genCodes s.nodes s.root.toNat = .ok ct ∧
      u = { s with ct := ct, ctValid := true }
  | .pkreset => u = { s with pkBitcnt := 0 }
  | .pushbit d => s.pkBitcnt.toNat ≠ 8 * s.params.pbufBytes ∧ d.toNat ≤ 1 ∧ pkAppend (decide (d.toNat = 1)) s = .ok u
  | .pushsym i => s.ctValid = true ∧ ∃ n, symbolOf i = some n ∧ s.ctRead n ≠ [] ∧
      s.pkBitcnt.toNat + (s.ctRead n).length ≤ 8 * s.params.pbufBytes ∧ pkAppendAll (s.ctRead n) s = .ok u
  | .upreset => u = { s with upLen := 0, upPos := 0 }
  | .upbyte d => s.upLen.toNat ≠ s.params.ubufBytes ∧ s.upLen.toNat < s.params.ubufBytes ∧
      u = loaded (d.extractLsb' 0 8) s
  | .uprewind => u = { s with upPos := 0 }
  | .nextbit => s.upPos.toNat < 8 * s.upLen.toNat ∧ u = { s with upPos := BitVec.ofNat 32 (s.upPos.toNat + 1) }

/-- What a command can do: record one of its errors and nothing else, or succeed. -/
theorem exec_cases {i : Instr} {s t : State} (h : exec i s = .next t) :
    (∃ e, e ∈ raisedBy i ∧ t = errorEntry e (encode i) s) ∨
    (∃ v u, t = { u with resp := some { err := 0, rdata := v } } ∧ Success i s u) := by
  cases i with
  | nop => exact .inr ⟨_, _, by injection h with h; exact h.symm, rfl⟩
  | rdsr n =>
    simp only [exec, execRdsr] at h
    split at h <;> injection h with h
    · exact .inl ⟨_, by simp [raisedBy], h.symm⟩
    · exact .inr ⟨_, s, h.symm, rfl⟩
  | reset => exact .inr ⟨_, _, by injection h with h; exact h.symm, rfl⟩
  | clrfreq => exact .inr ⟨_, _, by injection h with h; exact h.symm, rfl⟩
  | setfreq n d =>
    simp only [exec, execSetfreq] at h
    split at h <;> injection h with h
    · exact .inl ⟨_, by simp [raisedBy], h.symm⟩
    · exact .inr ⟨_, _, h.symm, _, ‹_›, rfl⟩
  | rdfreq n =>
    simp only [exec, execRdfreq] at h
    split at h <;> injection h with h
    · exact .inl ⟨_, by simp [raisedBy], h.symm⟩
    · exact .inr ⟨_, s, h.symm, rfl⟩
  | build =>
    have hl : ¬ (leaves s.ft).length = 0 := by simp [leaves]
    simp only [exec, execBuild, if_neg hl] at h
    exact .inr ⟨_, _, by injection h with h; exact h.symm, rfl⟩
  | rdnode sel n =>
    simp only [exec, execRdnode] at h
    split at h
    · injection h with h; exact .inl ⟨_, by simp [raisedBy], h.symm⟩
    split at h
    · injection h with h; exact .inl ⟨_, by simp [raisedBy], h.symm⟩
    split at h
    · injection h with h; exact .inl ⟨_, by simp [raisedBy], h.symm⟩
    split at h
    · cases h
    split at h <;> injection h with h
    · exact .inl ⟨_, by simp [raisedBy], h.symm⟩
    · exact .inr ⟨_, s, h.symm, rfl⟩
  | gencodes =>
    simp only [exec, execGencodes] at h
    split at h
    · injection h with h; exact .inl ⟨_, by simp [raisedBy], h.symm⟩
    split at h
    · cases h
    · injection h with h
      exact .inr ⟨_, _, h.symm, by simp_all, _, ‹_›, rfl⟩
  | rdclen n =>
    simp only [exec, execRdclen] at h
    split at h
    · injection h with h; exact .inl ⟨_, by simp [raisedBy], h.symm⟩
    split at h <;> injection h with h
    · exact .inl ⟨_, by simp [raisedBy], h.symm⟩
    · exact .inr ⟨_, s, h.symm, rfl⟩
  | rdcode sel n =>
    simp only [exec, execRdcode] at h
    split at h
    · injection h with h; exact .inl ⟨_, by simp [raisedBy], h.symm⟩
    split at h
    · injection h with h; exact .inl ⟨_, by simp [raisedBy], h.symm⟩
    split at h
    · injection h with h; exact .inl ⟨_, by simp [raisedBy], h.symm⟩
    split at h <;> injection h with h
    · exact .inl ⟨_, by simp [raisedBy], h.symm⟩
    · exact .inr ⟨_, s, h.symm, rfl⟩
  | pkreset => exact .inr ⟨_, _, by injection h with h; exact h.symm, rfl⟩
  | pushbit d =>
    simp only [exec, execPushbit] at h
    split at h
    · injection h with h; exact .inl ⟨_, by simp [raisedBy], h.symm⟩
    split at h
    · injection h with h; exact .inl ⟨_, by simp [raisedBy], h.symm⟩
    unfold orFault at h
    split at h
    · injection h with h
      exact .inr ⟨_, _, h.symm, by assumption, by omega, by assumption⟩
    · cases h
  | pushsym n =>
    simp only [exec, execPushsym] at h
    split at h
    · injection h with h; exact .inl ⟨_, by simp [raisedBy], h.symm⟩
    split at h
    · injection h with h; exact .inl ⟨_, by simp [raisedBy], h.symm⟩
    split at h
    · injection h with h; exact .inl ⟨_, by simp [raisedBy], h.symm⟩
    split at h
    · injection h with h; exact .inl ⟨_, by simp [raisedBy], h.symm⟩
    unfold orFault at h
    split at h
    · injection h with h
      refine .inr ⟨_, _, h.symm, by simp_all, _, ‹_›, ?_, ?_, ‹_›⟩
      · intro h0; simp_all
      · omega
    · cases h
  | rdpk d =>
    simp only [exec, execRdpk] at h
    split at h
    · injection h with h; exact .inl ⟨_, by simp [raisedBy], h.symm⟩
    split at h
    · cases h
    · injection h with h; exact .inr ⟨_, s, h.symm, rfl⟩
  | upreset => exact .inr ⟨_, _, by injection h with h; exact h.symm, rfl⟩
  | upbyte d =>
    simp only [exec, execUpbyte] at h
    split at h
    · injection h with h; exact .inl ⟨_, by simp [raisedBy], h.symm⟩
    split at h
    · injection h with h; exact .inl ⟨_, by simp [raisedBy], h.symm⟩
    unfold orFault State.umemWrite at h
    by_cases hl : s.upLen.toNat < s.params.ubufBytes
    · simp only [if_pos hl] at h
      injection h with h
      exact .inr ⟨_, _, h.symm, by assumption, hl, rfl⟩
    · simp only [if_neg hl] at h
      cases h
  | uprewind => exact .inr ⟨_, _, by injection h with h; exact h.symm, rfl⟩
  | nextbit =>
    simp only [exec, execNextbit] at h
    split at h
    · injection h with h; exact .inl ⟨_, by simp [raisedBy], h.symm⟩
    split at h
    · cases h
    · injection h with h
      exact .inr ⟨_, _, h.symm, by omega, rfl⟩

/-- No command is refused. -/
theorem exec_not_refused (i : Instr) (s : State) (r : Refusal) : exec i s ≠ .refused r := by
  intro h
  cases i <;>
    simp only [exec, execNop, execRdsr, execReset, execClrfreq, execSetfreq, execRdfreq, execBuild, execRdnode,
      execGencodes, execRdclen, execRdcode, execPkreset, execPushbit, execPushsym, execRdpk, execUpreset, execUpbyte,
      execUprewind, execNextbit, respond, raise, orFault] at h <;>
    first
      | cases h
      | (repeat' split at h) <;> cases h

/-- What a step can do: wait, reset, record E_ILLEGAL_CMD for a word that is no command, or execute the command. -/
theorem step_cases {s t : State} (h : step s = .next t) :
    (s.input = [] ∧ t = s) ∨
    (∃ rest, s.input = .hardReset :: rest ∧ t = hardReset { s with input := rest }) ∨
    (∃ w rest e, s.input = .command w :: rest ∧ decode w = .error e ∧
      t = errorEntry .illegalCmd w { s with input := rest }) ∨
    (∃ w rest i, s.input = .command w :: rest ∧ decode w = .ok i ∧ exec i { s with input := rest } = .next t) := by
  unfold step takeEvent at h
  cases hin : s.input with
  | nil =>
    simp only [hin] at h
    injection h with h
    exact .inl ⟨rfl, h.symm⟩
  | cons e rest =>
    simp only [hin] at h
    cases e with
    | hardReset =>
      injection h with h
      exact .inr (.inl ⟨rest, rfl, h.symm⟩)
    | command w =>
      cases hd : decode w with
      | ok i =>
        simp only [hd] at h
        exact .inr (.inr (.inr ⟨w, rest, i, rfl, hd, h⟩))
      | error e =>
        simp only [hd] at h
        injection h with h
        exact .inr (.inr (.inl ⟨w, rest, e, rfl, hd, h.symm⟩))

end Sys2Proof.Machine
end

