-- ==== Sys2Proof/Laws/HostSeq.lean ====
section
/-! SUPPORT. Facts of the host sequences' building blocks: `mustEach` over the parts of a list of commands, the bits of
a code that GETTABLE puts together again, the test for a prefix, HISTLOAD's table, and the code table in a state of the
invariant (spec/45_host_sequences.md). -/

namespace Sys2Proof.Machine

/-! ### mustEach -/

theorem mustEach_cons {i is s} : mustEach (i :: is) s = (match must i s with
    | .error e => .error e
    | .ok (x, t) =>
      match mustEach is t with
      | .error e => .error e
      | .ok (xs, u) => .ok (x :: xs, u)) := rfl

theorem mustEach_cons_ok {i is s xs u} (h : mustEach (i :: is) s = .ok (xs, u)) : ∃ x t ys, must i s = .ok (x, t) ∧ mustEach is t = .ok (ys, u) ∧ xs = x :: ys := by
  rw [mustEach_cons] at h
  cases h1 : must i s with
  | error e => rw [h1] at h; cases h
  | ok r =>
    obtain ⟨x, t⟩ := r
    rw [h1] at h
    simp only at h
    cases h2 : mustEach is t with
    | error e => rw [h2] at h; cases h
    | ok r =>
      obtain ⟨ys, u'⟩ := r
      rw [h2] at h
      simp only [Except.ok.injEq, Prod.mk.injEq] at h
      obtain ⟨rfl, rfl⟩ := h
      exact ⟨x, t, ys, rfl, h2, rfl⟩

theorem mustEach_cons_of {i is s x t ys u} (h1 : must i s = .ok (x, t)) (h2 : mustEach is t = .ok (ys, u)) : mustEach (i :: is) s = .ok (x :: ys, u) := by
  rw [mustEach_cons, h1]; simp only [h2]

theorem mustEach_append_of {a b s xs t ys u} (h1 : mustEach a s = .ok (xs, t)) (h2 : mustEach b t = .ok (ys, u)) : mustEach (a ++ b) s = .ok (xs ++ ys, u) := by
  induction a generalizing s xs with
  | nil => simp [mustEach] at h1; obtain ⟨rfl, rfl⟩ := h1; exact h2
  | cons i a ih =>
    obtain ⟨x, s1, zs, g1, g2, rfl⟩ := mustEach_cons_ok h1
    exact mustEach_cons_of g1 (ih g2)

theorem mustEach_append_ok {a b s zs u} (h : mustEach (a ++ b) s = .ok (zs, u)) : ∃ xs t ys, mustEach a s = .ok (xs, t) ∧ mustEach b t = .ok (ys, u) := by
  induction a generalizing s zs with
  | nil => exact ⟨[], s, zs, rfl, h⟩
  | cons i a ih =>
    obtain ⟨x, s1, ws, g1, g2, rfl⟩ := mustEach_cons_ok h
    obtain ⟨xs, t, ys, g3, g4⟩ := ih g2
    exact ⟨x :: xs, t, ys, mustEach_cons_of g1 g3, g4⟩

theorem mustEach_append_error {a b s xs t e} (h1 : mustEach a s = .ok (xs, t)) (h2 : mustEach b t = .error e) : mustEach (a ++ b) s = .error e := by
  induction a generalizing s xs with
  | nil => simp [mustEach] at h1; obtain ⟨rfl, rfl⟩ := h1; exact h2
  | cons i a ih =>
    obtain ⟨x, s1, zs, g1, g2, rfl⟩ := mustEach_cons_ok h1
    rw [List.cons_append, mustEach_cons, g1]; simp only [ih g2]

/-! ### Codes and tables -/

/-- The words that RDCODE returns hold the whole code (R104, R183). -/
theorem bitsOfWords_code (c : Code) (k : Nat) (h : c.length ≤ 32 * k) : bitsOfWords c.length ((List.range k).map (codeWord c)) = c := by
  have : ∀ k, ((List.range k).map (codeWord c)).flatMap (fun w => (List.range 32).map fun j => w.getLsbD (31 - j)) = (List.range (32 * k)).map fun j => c.getD j false := by
    intro k
    induction k with
    | zero => rfl
    | succ k ih =>
      rw [List.range_succ (n := k), List.map_append, List.flatMap_append, ih, show 32 * (k + 1) = 32 * k + 32 by omega, List.range_add, List.map_append, List.map_map]
      congr 1
      simp only [List.map_cons, List.map_nil, List.flatMap_cons, List.flatMap_nil, List.append_nil]
      apply List.map_congr_left
      intro j hj
      exact codeWord_getLsbD c k (List.mem_range.mp hj)
  unfold bitsOfWords
  rw [this]
  apply List.ext_getElem?
  intro i
  rw [List.getElem?_take]
  by_cases hi : i < c.length
  · rw [if_pos hi, List.getElem?_map, List.getElem?_range (by omega)]
    simp [List.getElem?_eq_getElem hi]
  · rw [if_neg hi, List.getElem?_eq_none (by omega)]

/-- The test for a prefix decides R10's relation. -/
theorem startsWith_iff : ∀ (p q : Code), startsWith p q = true ↔ IsPrefixOf p q
  | [], q => by simp [startsWith, IsPrefixOf]
  | b :: p, [] => by simp [startsWith, IsPrefixOf]
  | b :: p, c :: q => by
    simp only [startsWith, Bool.and_eq_true, beq_iff_eq, startsWith_iff p q, IsPrefixOf]
    constructor
    · rintro ⟨rfl, r, rfl⟩; exact ⟨r, rfl⟩
    · rintro ⟨r, h⟩; rw [List.cons_append] at h; injection h with h1 h2; exact ⟨h1.symm, r, h2⟩

/-! ### HISTLOAD's table -/

theorem histogram_toNat (B : List Byte) (v : Byte) : histogram B v.toNat = B.count v := by
  unfold histogram List.count
  apply List.countP_congr
  intro b _
  simp [BitVec.toNat_inj]

/-- Where every count fits 32 bits the host issues its commands. -/
theorem histPlan_ok {B : List Byte} (h : ∀ v : Byte, B.count v < 2 ^ 32) : histPlan B = .ok (histCommands B) := by
  unfold histPlan
  rw [if_neg]
  simp only [List.any_eq_true, decide_eq_true_eq, not_exists, not_and, List.mem_range]
  intro v hv
  have := h (BitVec.ofNat 8 v)
  rw [← histogram_toNat, show (BitVec.ofNat 8 v).toNat = v by simp; omega] at this
  omega

theorem histogramTable_read {B : List Byte} {s : State} (h : s.ft = histogramTable B) (v : Byte) :
    s.ftRead (byteSymbol v) = BitVec.ofNat 32 (B.count v) := by
  have hv : (byteSymbol v).val < 256 := v.isLt
  unfold State.ftRead
  simp only [hv, dif_pos, h, histogramTable, Vector.getElem_ofFn]
  rw [← histogram_toNat]; rfl

/-! ### The code table in a state of the invariant -/

/-- A valid code table is the one that BUILD and GENCODES make of the present FT (R45). -/
theorem ctRead_eq_codeFor {s : State} (h : StateInv s) (hv : s.ctValid = true) (n : SymbolId) :
    s.ctRead n = codeFor s.ft n := by
  obtain ⟨h1, h2, _⟩ := h.tree (h.flags.ctNeedsTree hv)
  have h3 := h.table hv
  rw [h1, h2] at h3
  unfold codeFor State.ctRead
  rw [h3]

end Sys2Proof.Machine
end

