-- ==== Sys2Proof/Laws/Optimal.lean ====
section
/-! SUPPORT. Huffman's theorem for the arena BUILD leaves (spec/40_tree_builder.md R120, R131): Kraft's inequality for
prefix-free codes, the exchange step, and the lower bound on every assignment of lengths that satisfies Kraft's
inequality, by induction over the merges in the order they were made. -/

namespace Sys2Proof.Machine

open InformationTheory

/-! ### Kraft's inequality -/

/-- Non-empty codes none of which is a prefix of another are uniquely decodable. -/
theorem uniquelyDecodable_of_prefixFree {S : Set Code} (h0 : [] ∉ S) (hp : ∀ p ∈ S, ∀ q ∈ S, IsPrefixOf p q → p = q) : UniquelyDecodable S := by
  intro L₁
  induction L₁ with
  | nil =>
    intro L₂ _ h2 he
    cases L₂ with
    | nil => rfl
    | cons w L₂ =>
      have hw : w = [] := List.length_eq_zero_iff.mp (by have := congrArg List.length he; simp at this; omega)
      exact absurd (hw ▸ h2 w (by simp)) h0
  | cons v L₁ ih =>
    intro L₂ h1 h2 he
    cases L₂ with
    | nil =>
      have hv : v = [] := by have := congrArg List.length he; simp at this; exact this.1
      exact absurd (hv ▸ h1 v (by simp)) h0
    | cons w L₂ =>
      rw [List.flatten_cons, List.flatten_cons] at he
      have hvw : v = w := by
        rcases List.append_eq_append_iff.mp he with ⟨a, e1, _⟩ | ⟨c, e1, _⟩
        · exact hp v (h1 v (by simp)) w (h2 w (by simp)) ⟨a, e1⟩
        · exact (hp w (h2 w (by simp)) v (h1 v (by simp)) ⟨c, e1⟩).symm
      subst hvw
      rw [ih L₂ (fun x hx => h1 x (by simp [hx])) (fun x hx => h2 x (by simp [hx])) (List.append_cancel_left he)]

/-- Kraft's inequality, scaled to natural numbers, for a finite family of codes none of which is a prefix of another. -/
theorem kraft_of_prefixFree {ι : Type} (Q : Finset ι) (C : ι → Code) (hne : ∀ j ∈ Q, C j ≠ []) (hp : ∀ i ∈ Q, ∀ j ∈ Q, i ≠ j → ¬ IsPrefixOf (C i) (C j)) (L : ℕ) (hL : ∀ j ∈ Q, (C j).length ≤ L) :
    ∑ j ∈ Q, 2 ^ (L - (C j).length) ≤ 2 ^ L := by
  classical
  have inj : Set.InjOn C Q := by
    intro i hi j hj e
    by_contra hij
    exact hp i hi j hj hij ⟨[], by rw [e]; simp⟩
  have hud : UniquelyDecodable ((Q.image C : Finset Code) : Set Code) := by
    apply uniquelyDecodable_of_prefixFree
    · intro h
      obtain ⟨j, hj, e⟩ := Finset.mem_image.mp h
      exact hne j hj e
    · intro p hp' q hq' hpq
      obtain ⟨i, hi, rfl⟩ := Finset.mem_image.mp hp'
      obtain ⟨j, hj, rfl⟩ := Finset.mem_image.mp hq'
      by_cases hij : i = j
      · rw [hij]
      · exact absurd hpq (hp i hi j hj hij)
  have k := kraft_mcmillan_inequality hud
  rw [Finset.sum_image inj] at k
  have k2 : (∑ j ∈ Q, (2 : ℝ) ^ (L - (C j).length)) ≤ 2 ^ L := by
    have e : ∀ j ∈ Q, (2 : ℝ) ^ (L - (C j).length) = 2 ^ L * (1 / (Fintype.card Bool : ℝ)) ^ (C j).length := by
      intro j hj
      have := hL j hj
      rw [Fintype.card_bool]
      conv_rhs => rw [show L = (L - (C j).length) + (C j).length by omega, pow_add]
      rw [mul_assoc, ← mul_pow]; norm_num
    rw [Finset.sum_congr rfl e, ← Finset.mul_sum]
    have : (0 : ℝ) ≤ 2 ^ L := by positivity
    nlinarith
  exact_mod_cast k2

/-! ### The exchange step -/

/-- Kraft's condition at level `L`. -/
def KraftAt (Q : Finset ℕ) (l : ℕ → ℕ) (L : ℕ) : Prop := (∀ j ∈ Q, l j ≤ L) ∧ ∑ j ∈ Q, 2 ^ (L - l j) ≤ 2 ^ L

/-- Two terms taken out of a sum. -/
theorem sum_two {Q : Finset ℕ} {x y : ℕ} (hx : x ∈ Q) (hy : y ∈ Q) (hxy : x ≠ y) (F : ℕ → ℕ) :
    ∑ j ∈ Q, F j = F x + (F y + ∑ j ∈ (Q.erase x).erase y, F j) := by
  rw [Finset.add_sum_erase _ _ (Finset.mem_erase.mpr ⟨hxy.symm, hy⟩), Finset.add_sum_erase _ _ hx]

/-- Swapping a greater length onto a smaller weight keeps Kraft's condition and costs nothing. -/
theorem swap_lengths {Q : Finset ℕ} {f l : ℕ → ℕ} {x y L : ℕ} (hx : x ∈ Q) (hy : y ∈ Q) (hf : f x ≤ f y) (hl : l x ≤ l y) (hk : KraftAt Q l L) :
    ∃ l', KraftAt Q l' L ∧ l' x = l y ∧ l' y = l x ∧ (∀ j, j ≠ x → j ≠ y → l' j = l j) ∧ ∑ j ∈ Q, f j * l' j ≤ ∑ j ∈ Q, f j * l j := by
  by_cases hxy : x = y
  · subst hxy; exact ⟨l, hk, rfl, rfl, fun _ _ _ => rfl, le_refl _⟩
  · refine ⟨fun j => if j = x then l y else if j = y then l x else l j, ⟨?_, ?_⟩, by simp, ?_, ?_, ?_⟩
    · intro j hj; dsimp only; split
      · exact hk.1 y hy
      · split
        · exact hk.1 x hx
        · exact hk.1 j hj
    · have h2 := hk.2
      rw [sum_two hx hy hxy] at h2 ⊢
      have : ∑ j ∈ (Q.erase x).erase y, 2 ^ (L - if j = x then l y else if j = y then l x else l j) = ∑ j ∈ (Q.erase x).erase y, 2 ^ (L - l j) := by
        apply Finset.sum_congr rfl
        intro j hj; simp only [Finset.mem_erase] at hj; rw [if_neg hj.2.1, if_neg hj.1]
      rw [this]
      simp only [if_true, if_neg (Ne.symm hxy)]
      omega
    · simp [Ne.symm hxy]
    · intro j h1 h2; simp [h1, h2]
    · rw [sum_two hx hy hxy, sum_two hx hy hxy]
      have : ∑ j ∈ (Q.erase x).erase y, (f j * if j = x then l y else if j = y then l x else l j) = ∑ j ∈ (Q.erase x).erase y, f j * l j := by
        apply Finset.sum_congr rfl
        intro j hj; simp only [Finset.mem_erase] at hj; rw [if_neg hj.2.1, if_neg hj.1]
      rw [this]
      simp only [if_true, if_neg (Ne.symm hxy)]
      obtain ⟨d, hd⟩ := Nat.exists_eq_add_of_le hf
      obtain ⟨e, he⟩ := Nat.exists_eq_add_of_le hl
      rw [hd, he]; nlinarith

/-- The exchange step of Huffman's theorem: some assignment that costs no more gives the two smallest weights the
greatest length. -/
theorem exchange {Q : Finset ℕ} {f : ℕ → ℕ} {a b : ℕ} (ha : a ∈ Q) (hb : b ∈ Q) (hab : a ≠ b) (hfa : ∀ j ∈ Q, f a ≤ f j) (hfb : ∀ j ∈ Q, j ≠ a → f b ≤ f j) :
    ∀ (t : ℕ) (l : ℕ → ℕ) (L : ℕ), ∑ j ∈ Q, l j = t → KraftAt Q l L →
      ∃ l' M, KraftAt Q l' (M + 1) ∧ l' a = M + 1 ∧ l' b = M + 1 ∧ ∑ j ∈ Q, f j * l' j ≤ ∑ j ∈ Q, f j * l j := by
  intro t
  induction t using Nat.strong_induction_on with
  | _ t ih =>
    intro l L ht hk
    obtain ⟨c, hc, hmax⟩ := Finset.exists_max_image Q l ⟨a, ha⟩
    -- Kraft at the maximum
    have hk0 : KraftAt Q l (l c) := by
      refine ⟨hmax, ?_⟩
      have h2 := hk.2
      have hL := hk.1 c hc
      have : ∑ j ∈ Q, 2 ^ (L - l j) = 2 ^ (L - l c) * ∑ j ∈ Q, 2 ^ (l c - l j) := by
        rw [Finset.mul_sum]
        apply Finset.sum_congr rfl
        intro j hj; rw [← pow_add]; congr 1; have := hmax j hj; omega
      rw [this, show L = (L - l c) + l c by omega, pow_add, Nat.add_sub_cancel] at h2
      exact Nat.le_of_mul_le_mul_left h2 (by positivity)
    have hpos : 1 ≤ l c := by
      by_contra h0
      have h0 : l c = 0 := by omega
      have h2 := hk0.2
      rw [h0, sum_two ha hb hab] at h2
      simp only [Nat.zero_sub, pow_zero] at h2
      omega
    by_cases hd : ∃ d ∈ Q, d ≠ c ∧ l d = l c
    · obtain ⟨d, hdQ, hdc, hdl⟩ := hd
      obtain ⟨l1, k1, e1, e2, e3, c1⟩ := swap_lengths (f := f) ha hc (hfa c hc) (hmax a ha) hk0
      have hmax1 : ∀ j ∈ Q, l1 j ≤ l c := k1.1
      have : ∃ d' ∈ Q, d' ≠ a ∧ l1 d' = l c := by
        by_cases hda : d = a
        · refine ⟨c, hc, fun h => hdc (hda.trans h.symm), ?_⟩
          rw [e2, ← hda, hdl]
        · exact ⟨d, hdQ, hda, by rw [e3 d hda hdc, hdl]⟩
      obtain ⟨d', hd'Q, hd'a, hd'l⟩ := this
      obtain ⟨l2, k2, g1, g2, g3, c2⟩ := swap_lengths (f := f) hb hd'Q (hfb d' hd'Q hd'a) (by rw [hd'l]; exact hmax1 b hb) k1
      refine ⟨l2, l c - 1, ?_, ?_, ?_, c2.trans c1⟩
      · rw [Nat.sub_add_cancel hpos]; exact k2
      · rw [Nat.sub_add_cancel hpos, g3 a hab (Ne.symm hd'a), e1]
      · rw [Nat.sub_add_cancel hpos, g1, hd'l]
    · push Not at hd
      have hodd : ∃ r, ∑ j ∈ Q.erase c, 2 ^ (l c - l j) = 2 * r := by
        refine ⟨∑ j ∈ Q.erase c, 2 ^ (l c - l j - 1), ?_⟩
        rw [Finset.mul_sum]
        apply Finset.sum_congr rfl
        intro j hj
        obtain ⟨h1, h2⟩ := Finset.mem_erase.mp hj
        have h3 := hmax j h2
        have h4 := hd j h2 h1
        rw [← pow_succ', Nat.sub_add_cancel (by omega)]
      obtain ⟨r, hr⟩ := hodd
      have h2 := hk0.2
      rw [← Finset.add_sum_erase _ _ hc, hr, Nat.sub_self, pow_zero] at h2
      have hev : 2 ^ l c = 2 * 2 ^ (l c - 1) := by rw [← pow_succ', Nat.sub_add_cancel hpos]
      have hsum : ∑ j ∈ Q, (Function.update l c (l c - 1)) j + 1 = t := by
        rw [← ht, ← Finset.add_sum_erase _ _ hc, ← Finset.add_sum_erase _ l hc, Function.update_self]
        have : ∑ j ∈ Q.erase c, Function.update l c (l c - 1) j = ∑ j ∈ Q.erase c, l j := by
          apply Finset.sum_congr rfl
          intro j hj; rw [Function.update_of_ne (Finset.mem_erase.mp hj).1]
        omega
      obtain ⟨l', M, q1, q2, q3, q4⟩ := ih (t - 1) (by omega) (Function.update l c (l c - 1)) (l c) (by omega) (by
        refine ⟨?_, ?_⟩
        · intro j hj
          by_cases e : j = c
          · rw [e, Function.update_self]; omega
          · rw [Function.update_of_ne e]; exact hmax j hj
        · rw [← Finset.add_sum_erase _ _ hc, Function.update_self]
          have : ∑ j ∈ Q.erase c, 2 ^ (l c - Function.update l c (l c - 1) j) = ∑ j ∈ Q.erase c, 2 ^ (l c - l j) := by
            apply Finset.sum_congr rfl
            intro j hj; rw [Function.update_of_ne (Finset.mem_erase.mp hj).1]
          rw [this, hr, show l c - (l c - 1) = 1 by omega]
          omega)
      refine ⟨l', M, q1, q2, q3, q4.trans ?_⟩
      apply Finset.sum_le_sum
      intro j hj
      by_cases e : j = c
      · rw [e, Function.update_self]; exact Nat.mul_le_mul_left _ (by omega)
      · rw [Function.update_of_ne e]

/-! ### The lower bound -/

section
open Classical
variable {ft : Vector Data 256} {nodes : List Node} {root : Nat}

/-- The nodes queued when node `k` is made (R124). -/
noncomputable def queued (nodes : List Node) (k : ℕ) : Finset ℕ := (Finset.range k).filter fun j => QueuedAt nodes k j

theorem mem_queued {k j : ℕ} : j ∈ queued nodes k ↔ QueuedAt nodes k j := by
  simp only [queued, Finset.mem_filter, Finset.mem_range]
  exact ⟨fun h => h.2, fun h => ⟨h.1, h⟩⟩

/-- A merge takes its two children out of the queue and puts the new node in. -/
theorem Arena.queued_succ (h : Arena ft nodes [root]) {k l r : ℕ} (hi : IsInternal nodes k l r) :
    queued nodes (k + 1) = insert k (((queued nodes k).erase l).erase r) := by
  ext j
  obtain ⟨hl, hr, hlr, pl, pr⟩ := h.children hi
  simp only [mem_queued, Finset.mem_insert, Finset.mem_erase]
  constructor
  · rintro ⟨h1, h2⟩
    by_cases e : j = k
    · exact .inl e
    · refine .inr ⟨?_, ?_, by omega, fun p hp => by have := h2 p hp; omega⟩
      · rintro rfl; have := h2 k pr; omega
      · rintro rfl; have := h2 k pl; omega
  · rintro (rfl | ⟨h1, h2, h3, h4⟩)
    · exact ⟨by omega, fun p hp => (h.child _ p hp).1⟩
    · refine ⟨by omega, fun p hp => ?_⟩
      have := h4 p hp
      rcases Nat.eq_or_lt_of_le this with e | e
      · subst e
        obtain ⟨_, _, l', r', h5, h6⟩ := h.child j _ hp
        obtain ⟨rfl, rfl⟩ := hi.unique h5
        rcases h6 with rfl | rfl
        · exact absurd rfl h2
        · exact absurd rfl h1
      · exact e

/-- The depth of a node. -/
noncomputable def depthAt (nodes : List Node) (root j : ℕ) : ℕ := if h : ∃ c, follow nodes root c = some j then h.choose.length else 0

/-- A node's depth is the length of its path. -/
theorem Arena.depthAt_eq (h : Arena ft nodes [root]) {c : Code} {j : ℕ} (hc : follow nodes root c = some j) : depthAt nodes root j = c.length := by
  have he : ∃ c, follow nodes root c = some j := ⟨c, hc⟩
  unfold depthAt
  rw [dif_pos he, h.follow_unique _ _ _ he.choose_spec hc]

/-- A child lies one deeper than its parent. -/
theorem Arena.depthAt_child (h : Arena ft nodes [root]) {k l r : ℕ} (hi : IsInternal nodes k l r) : depthAt nodes root l = depthAt nodes root k + 1 ∧ depthAt nodes root r = depthAt nodes root k + 1 := by
  obtain ⟨c, hc⟩ := h.reachable nodes.length k (by omega) hi.lt
  have f1 : follow nodes root (c ++ [false]) = some l := follow_snoc.mpr ⟨k, l, r, hc, hi, rfl⟩
  have f2 : follow nodes root (c ++ [true]) = some r := follow_snoc.mpr ⟨k, l, r, hc, hi, rfl⟩
  rw [h.depthAt_eq hc, h.depthAt_eq f1, h.depthAt_eq f2]
  simp

/-- From any merge on, the depths in the finished tree cost no more than any lengths that satisfy Kraft's condition. -/
theorem Arena.optimal (h : Arena ft nodes [root]) : ∀ (m k : ℕ), k + m = nodes.length → (presentSymbols ft).length ≤ k → ∀ (l : ℕ → ℕ) (L : ℕ), KraftAt (queued nodes k) l L →
    ∑ j ∈ queued nodes k, freqAt nodes j * depthAt nodes root j ≤ ∑ j ∈ queued nodes k, freqAt nodes j * l j
  | 0, k, hk, hN, l, L, _ => by
    have : ∑ j ∈ queued nodes k, freqAt nodes j * depthAt nodes root j = 0 := by
      apply Finset.sum_eq_zero
      intro j hj
      obtain ⟨h1, h2⟩ := mem_queued.mp hj
      have : parentAt nodes j = none := by
        cases hp : parentAt nodes j with
        | none => rfl
        | some p => have := h2 p hp; have := (h.child j p hp).2.1; omega
      have : j = root := (h.parent_eq_none_iff (by omega)).mp this
      subst this
      rw [h.depthAt_eq (c := []) rfl]; simp
    omega
  | m + 1, k, hk, hN, l, L, hK => by
    obtain ⟨a, b, hi, ha, hb, hab, pa, pb, hf⟩ := h.internal k hN (by omega)
    obtain ⟨qa, qb, fa, fb⟩ := h.first k a b hi
    have fle : ∀ {i j}, PopsBefore nodes i j → freqAt nodes i ≤ freqAt nodes j := by
      intro i j hp; unfold PopsBefore at hp; omega
    have qa' := mem_queued.mpr qa
    have qb' := mem_queued.mpr qb
    obtain ⟨l', M, k1, e1, e2, c1⟩ := exchange (f := freqAt nodes) qa' qb' hab
      (fun j hj => by
        by_cases e : j = a
        · rw [e]
        · exact fle (fa j (mem_queued.mp hj) e))
      (fun j hj hja => by
        by_cases e : j = b
        · rw [e]
        · exact fle (fb j (mem_queued.mp hj) hja e)) _ l L rfl hK
    have hnot : k ∉ ((queued nodes k).erase a).erase b := by
      intro hk'; have := (mem_queued.mp (Finset.mem_of_mem_erase (Finset.mem_of_mem_erase hk'))).1; omega
    have hne : ∀ j ∈ ((queued nodes k).erase a).erase b, j ≠ k := fun j hj e => hnot (e ▸ hj)
    have ih := h.optimal m (k + 1) (by omega) (by omega) (Function.update l' k M) (M + 1) (by
      rw [h.queued_succ hi]
      refine ⟨?_, ?_⟩
      · intro j hj
        rcases Finset.mem_insert.mp hj with rfl | hj
        · rw [Function.update_self]; omega
        · rw [Function.update_of_ne (hne j hj)]; exact k1.1 j (Finset.mem_of_mem_erase (Finset.mem_of_mem_erase hj))
      · rw [Finset.sum_insert hnot, Function.update_self]
        have h2 := k1.2
        rw [sum_two qa' qb' hab, e1, e2] at h2
        have : ∑ j ∈ ((queued nodes k).erase a).erase b, 2 ^ (M + 1 - Function.update l' k M j) = ∑ j ∈ ((queued nodes k).erase a).erase b, 2 ^ (M + 1 - l' j) :=
          Finset.sum_congr rfl fun j hj => by rw [Function.update_of_ne (hne j hj)]
        rw [this, show M + 1 - M = 1 by omega]
        simp only [Nat.sub_self, pow_zero] at h2
        omega)
    rw [h.queued_succ hi, Finset.sum_insert hnot, Finset.sum_insert hnot, Function.update_self] at ih
    have : ∑ j ∈ ((queued nodes k).erase a).erase b, freqAt nodes j * Function.update l' k M j = ∑ j ∈ ((queued nodes k).erase a).erase b, freqAt nodes j * l' j :=
      Finset.sum_congr rfl fun j hj => by rw [Function.update_of_ne (hne j hj)]
    rw [this, hf] at ih
    obtain ⟨d1, d2⟩ := h.depthAt_child hi
    refine le_trans ?_ c1
    rw [sum_two qa' qb' hab, sum_two qa' qb' hab, e1, e2, d1, d2]
    nlinarith

end

end Sys2Proof.Machine
end

