-- ==== Sys2Proof/Laws/PerInstr.lean ====
section
/-! SUPPORT. Statements for all instructions, one lemma per constructor. The family UnusedFieldsZero: a command's word has
zero in every field that its format does not use (spec/30_encoding.md R91, R94). -/

namespace Sys2Proof.Laws.UnusedFieldsZero

/-- The operand formats of R91. -/
inductive Format where
  | z | i | si | id | d
deriving DecidableEq, Repr

/-- The format of each command (R94). -/
def formatOf : Instr → Format
  | .nop | .reset | .clrfreq | .build | .gencodes | .pkreset | .upreset | .uprewind | .nextbit => .z
  | .rdsr _ | .rdfreq _ | .rdclen _ | .pushsym _ => .i
  | .rdnode _ _ | .rdcode _ _ => .si
  | .setfreq _ _ => .id
  | .pushbit _ | .rdpk _ | .upbyte _ => .d

/-- Which of the fields `s`, `i`, `d` a format uses (R91). -/
def uses : Format → Bool × Bool × Bool
  | .z => (false, false, false)
  | .i => (false, true, false)
  | .si => (true, true, false)
  | .id => (false, true, true)
  | .d => (false, false, true)

/-- R91: the fields of the word that the format does not use are zero. -/
def Statement (c : Instr) : Prop :=
  ((uses (formatOf c)).1 = false → sField (encode c) = 0) ∧
  ((uses (formatOf c)).2.1 = false → iField (encode c) = 0) ∧
  ((uses (formatOf c)).2.2 = false → dField (encode c) = 0)

theorem nop : Statement .nop := by simp [Statement, encode]
theorem rdsr (i : BitVec 16) : Statement (.rdsr i) := by simp [Statement, encode, formatOf, uses]
theorem reset : Statement .reset := by simp [Statement, encode]
theorem clrfreq : Statement .clrfreq := by simp [Statement, encode]
theorem setfreq (i : BitVec 16) (d : BitVec 32) : Statement (.setfreq i d) := by
  simp [Statement, encode, formatOf, uses]
theorem rdfreq (i : BitVec 16) : Statement (.rdfreq i) := by simp [Statement, encode, formatOf, uses]
theorem build : Statement .build := by simp [Statement, encode]
theorem rdnode (s : BitVec 8) (i : BitVec 16) : Statement (.rdnode s i) := by
  simp [Statement, encode, formatOf, uses]
theorem gencodes : Statement .gencodes := by simp [Statement, encode]
theorem rdclen (i : BitVec 16) : Statement (.rdclen i) := by simp [Statement, encode, formatOf, uses]
theorem rdcode (s : BitVec 8) (i : BitVec 16) : Statement (.rdcode s i) := by
  simp [Statement, encode, formatOf, uses]
theorem pkreset : Statement .pkreset := by simp [Statement, encode]
theorem pushbit (d : BitVec 32) : Statement (.pushbit d) := by simp [Statement, encode, formatOf, uses]
theorem pushsym (i : BitVec 16) : Statement (.pushsym i) := by simp [Statement, encode, formatOf, uses]
theorem rdpk (d : BitVec 32) : Statement (.rdpk d) := by simp [Statement, encode, formatOf, uses]
theorem upreset : Statement .upreset := by simp [Statement, encode]
theorem upbyte (d : BitVec 32) : Statement (.upbyte d) := by simp [Statement, encode, formatOf, uses]
theorem uprewind : Statement .uprewind := by simp [Statement, encode]
theorem nextbit : Statement .nextbit := by simp [Statement, encode]

end Sys2Proof.Laws.UnusedFieldsZero
end

