-- ==== Sys2Proof/Tests/Slice0.lean ====
section
/-! SUPPORT. The model's own tests: the WellFormed smoke test, words written out from the spec's encodings, one step per
command on small states, and for every statement with hypotheses a concrete state that meets them. Expected values come
from the worked examples of spec/40 to 44, spec/95_test_vectors.md and, where said, from a rule by hand. -/

namespace Sys2Proof.Tests

open Sys2Proof Sys2Proof.Machine

/-! ### WellFormed: one ill-formed command for each check (R206), beside the last well-formed one -/

theorem test_wellFormed_rdsr : ¬ (Instr.rdsr 15#16).WellFormed ∧ (Instr.rdsr 14#16).WellFormed := by decide
theorem test_wellFormed_setfreq : ¬ (Instr.setfreq 256#16 0#32).WellFormed ∧
    (Instr.setfreq 255#16 0xFFFFFFFF#32).WellFormed := by decide
theorem test_wellFormed_rdfreq : ¬ (Instr.rdfreq 257#16).WellFormed ∧ (Instr.rdfreq 256#16).WellFormed := by decide
theorem test_wellFormed_rdnode : ¬ (Instr.rdnode 7#8 0#16).WellFormed ∧
    (Instr.rdnode 6#8 0xFFFF#16).WellFormed := by decide
theorem test_wellFormed_rdclen : ¬ (Instr.rdclen 257#16).WellFormed ∧ (Instr.rdclen 256#16).WellFormed := by decide
theorem test_wellFormed_rdcode_selector : ¬ (Instr.rdcode 8#8 0#16).WellFormed ∧
    (Instr.rdcode 7#8 0#16).WellFormed := by decide
theorem test_wellFormed_rdcode_symbol : ¬ (Instr.rdcode 0#8 257#16).WellFormed ∧
    (Instr.rdcode 0#8 256#16).WellFormed := by decide
theorem test_wellFormed_pushbit : ¬ (Instr.pushbit 2#32).WellFormed ∧ (Instr.pushbit 1#32).WellFormed := by decide
theorem test_wellFormed_pushsym : ¬ (Instr.pushsym 257#16).WellFormed ∧ (Instr.pushsym 256#16).WellFormed := by decide
theorem test_wellFormed_upbyte : ¬ (Instr.upbyte 256#32).WellFormed ∧ (Instr.upbyte 255#32).WellFormed := by decide

/-! ### Words written out from R90, R91 and R94: every constructor, and one word bit by bit in every family -/

theorem test_decode_system :
    decode 0b0000000100000000000000000000101000000000000000000000000000000000#64 = .ok (.rdsr 10#16) ∧
    decode 0x0000000000000000#64 = .ok .nop ∧ decode 0x0200000000000000#64 = .ok .reset := ⟨rfl, rfl, rfl⟩
theorem test_decode_treeBuilder :
    decode 0b0001000100000000000000001111111110000000000000000000000000000001#64 =
      .ok (.setfreq 255#16 0x80000001#32) ∧
    decode 0x1000000000000000#64 = .ok .clrfreq ∧ decode 0x1200010000000000#64 = .ok (.rdfreq 256#16) ∧
    decode 0x1300000000000000#64 = .ok .build ∧ decode 0x1406020000000000#64 = .ok (.rdnode 6#8 512#16) :=
  ⟨rfl, rfl, rfl, rfl, rfl⟩
theorem test_decode_codeTable :
    decode 0b0010001000000111000000000000000000000000000000000000000000000000#64 = .ok (.rdcode 7#8 0#16) ∧
    decode 0x2000000000000000#64 = .ok .gencodes ∧ decode 0x2100010000000000#64 = .ok (.rdclen 256#16) :=
  ⟨rfl, rfl, rfl⟩
theorem test_decode_packer :
    decode 0b0011000100000000000000000000000000000000000000000000000000000001#64 = .ok (.pushbit 1#32) ∧
    decode 0x3000000000000000#64 = .ok .pkreset ∧ decode 0x3200010000000000#64 = .ok (.pushsym 256#16) ∧
    decode 0x330000000000FFFF#64 = .ok (.rdpk 0xFFFF#32) := ⟨rfl, rfl, rfl, rfl⟩
theorem test_decode_unpacker :
    decode 0b0100000100000000000000000000000000000000000000000000000010110000#64 = .ok (.upbyte 0xB0#32) ∧
    decode 0x4000000000000000#64 = .ok .upreset ∧ decode 0x4200000000000000#64 = .ok .uprewind ∧
    decode 0x4300000000000000#64 = .ok .nextbit := ⟨rfl, rfl, rfl, rfl⟩
/-- A legal opcode with a bit in an unused field, in each of the three unused places, and an unknown opcode (R101, R102). -/
theorem test_decode_illegal :
    decode 0x1401000000000001#64 = .error (.nonzeroUnusedField 0x14#8) ∧
    decode 0x1201000000000000#64 = .error (.nonzeroUnusedField 0x12#8) ∧
    decode 0x3300000100000000#64 = .error (.nonzeroUnusedField 0x33#8) ∧
    decode 0x1500000000000000#64 = .error (.unknownOpcode 0x15#8) := ⟨rfl, rfl, rfl, rfl⟩
theorem test_decodeTableWord : decodeTableWord 64 0x4300000000000000 = some .nextbit ∧
    decodeTableWord 64 0xFF00000000000000 = none := by decide

/-! ### Small states -/

/-- The response of the step that runs the command word `w` first. -/
def answer (w : Nat) (s : State) : Option Response :=
  match step (s.withFetchWord 64 w) with
  | .next t => t.resp
  | _ => none

/-- A field of the state after that step. -/
def after {α : Type} (w : Nat) (s : State) (f : State → α) : Option α :=
  match step (s.withFetchWord 64 w) with
  | .next t => some (f t)
  | _ => none

/-- FT['A'] = 4, the table of vector V2. -/
def ftV2 : Vector Data 256 := zeroFt.set 65 4#32

/-- The tree of vector V2. -/
def nodesV2 : List Node :=
  [ { body := .leaf 65, freq := 4#41, parent := some 2 },
    { body := .leaf 256, freq := 1#41, parent := some 2 },
    { body := .internal 1 0, freq := 5#41, parent := none } ]

/-- The code table of vector V2. -/
def ctV2 : Vector Code 257 := (emptyTable.set 65 [true]).set 256 [false]

def loadedV2 : State := { State.reset with ft := ftV2 }
def treeV2 : State := { loadedV2 with treeValid := true, nleaf := 2, nnode := 3, root := 2, nodes := nodesV2 }
def tableV2 : State := { treeV2 with ctValid := true, ct := ctV2 }

/-- A packer of one byte that holds the bits 1, 0, 1. -/
def packed3 : State := { State.reset with params := { pbufBytes := 1, ubufBytes := 1 }, pkBitcnt := 3, pmem := [(0, 0xA0#8)] }
/-- The same packer, full. -/
def packed8 : State := { packed3 with pkBitcnt := 8 }
/-- An unpacker of one byte, full, that has given 7 of its 8 bits. -/
def loaded7 : State := { State.reset with params := { pbufBytes := 1, ubufBytes := 1 }, upLen := 1, upPos := 7, umem := [(0, 0xB1#8)] }
/-- The same unpacker, exhausted. -/
def loaded8 : State := { loaded7 with upPos := 8 }

/-! ### One step of each command -/

theorem test_nop : answer 0 State.reset = some { err := 0, rdata := 0 } := by decide +kernel
/-- R52: STATUS reads 8 after reset. -/
theorem test_rdsr_status : answer 0x0100000100000000 State.reset = some { err := 0, rdata := 8 } := by decide +kernel
theorem test_rdsr_bad : answer 0x0100000F00000000 State.reset = some { err := 6, rdata := 0 } := by decide +kernel
/-- R172: RESET clears a sticky error and empties the packer. -/
theorem test_reset : after 0x0200000000000000 { packed3 with errflags := 0x20, lasterr := 6 }
    (fun t => (t.errflags, t.lasterr, t.pkBitcnt)) = some (0, 0, 0) := by decide +kernel
theorem test_clrfreq : after 0x1000000000000000 treeV2 (fun t => (t.ftRead 65, t.ftRead 256, t.treeValid, t.nnode)) =
    some (0, 1, false, 0) := by decide +kernel
theorem test_setfreq : after 0x11000041FFFFFFFF treeV2 (fun t => (t.ftRead 65, t.ftRead 66, t.treeValid, t.root)) =
    some (0xFFFFFFFF, 0, false, 0) := by decide +kernel
theorem test_setfreq_sentinel : answer 0x1100010000000005 State.reset = some { err := 6, rdata := 0 } := by
  decide +kernel
theorem test_rdfreq : answer 0x1200004100000000 loadedV2 = some { err := 0, rdata := 4 } := by decide +kernel
theorem test_rdfreq_sentinel : answer 0x1200010000000000 State.reset = some { err := 0, rdata := 1 } := by
  decide +kernel
theorem leavesV2 : leaves ftV2 = [leafNode 65 4#41, leafNode 256 1#41] := by decide +kernel

theorem buildV2 : buildTree ftV2 = (nodesV2, [2]) := by
  unfold buildTree
  rw [leavesV2]
  rfl

/-- Vector V2. -/
theorem test_build : exec .build loadedV2 = .next { treeV2 with resp := some { err := 0, rdata := 0 } } := by
  have h : exec .build loadedV2 = if (leaves ftV2).length = 0 then raise .emptyInput .build loadedV2 else
      respond 0 { loadedV2 with
        nodes := (buildTree ftV2).1
        root := BitVec.ofNat 32 (rootOf (buildTree ftV2).2)
        nleaf := BitVec.ofNat 32 (leaves ftV2).length
        nnode := BitVec.ofNat 32 (buildTree ftV2).1.length
        treeValid := true
        ctValid := false } := rfl
  rw [h, buildV2, leavesV2]
  rfl

/-- V2: the left child of the root is node 1, the sentinel's leaf. -/
theorem test_rdnode_left : answer 0x1404000200000000 treeV2 = some { err := 0, rdata := 1 } := by decide +kernel
theorem test_rdnode_root_parent : answer 0x1406000200000000 treeV2 = some { err := 0, rdata := 0xFFFFFFFF } := by
  decide +kernel
/-- Vector V2. -/
theorem test_gencodes : after 0x2000000000000000 treeV2 (fun t => (t.ctRead 65, t.ctRead 256, t.ctRead 66, t.ctValid)) =
    some ([true], [false], [], true) := by decide +kernel
theorem test_gencodes_sequence : answer 0x2000000000000000 loadedV2 = some { err := 7, rdata := 0 } := by
  decide +kernel
theorem test_rdclen : answer 0x2100010000000000 tableV2 = some { err := 0, rdata := 1 } := by decide +kernel
/-- R146: the one-bit code "1" is left-aligned. -/
theorem test_rdcode : answer 0x2200004100000000 tableV2 = some { err := 0, rdata := 0x80000000 } := by decide +kernel
theorem test_rdcode_noCode : answer 0x2200004200000000 tableV2 = some { err := 8, rdata := 0 } := by decide +kernel
theorem test_pkreset : after 0x3000000000000000 packed3 (fun t => (t.pkBitcnt, t.pkByteLen)) = some (0, 0) := by
  decide +kernel
/-- Example E1: 1011 packs to 0xB0. -/
theorem test_pushbit : after 0x3100000000000001 packed3 (fun t => (t.pmem, t.pkBitcnt)) = some ([(0, 0xB0#8)], 4) := by
  decide +kernel
theorem test_pushbit_full : answer 0x3100000000000001 packed8 = some { err := 9, rdata := 0 } := by decide +kernel
theorem test_pushsym : after 0x3200004100000000 { tableV2 with pkBitcnt := 8, pmem := [(0, 0x0F#8)] }
    (fun t => (t.pmem, t.pkBitcnt)) = some ([(0, 0x0F#8), (1, 0x80#8)], 9) := by decide +kernel
theorem test_rdpk : answer 0x3300000000000000 packed3 = some { err := 0, rdata := 0xA0 } := by decide +kernel
theorem test_rdpk_past : answer 0x3300000000000001 packed3 = some { err := 6, rdata := 0 } := by decide +kernel
theorem test_upreset : after 0x4000000000000000 loaded7 (fun t => (t.upLen, t.upPos)) = some (0, 0) := by
  decide +kernel
theorem test_upbyte : after 0x41000000000000B0 State.reset (fun t => (t.umem, t.upLen, t.upPos)) =
    some ([(0, 0xB0#8)], 1, 0) := by decide +kernel
theorem test_upbyte_full : answer 0x4100000000000000 loaded7 = some { err := 9, rdata := 0 } := by decide +kernel
theorem test_uprewind : after 0x4200000000000000 loaded8 (fun t => (t.upLen, t.upPos)) = some (1, 0) := by
  decide +kernel
/-- The eighth bit of 0xB1 is 1 (R60). -/
theorem test_nextbit : answer 0x4300000000000000 loaded7 = some { err := 0, rdata := 1 } := by decide +kernel
theorem test_nextbit_exhausted : answer 0x4300000000000000 loaded8 = some { err := 2, rdata := 0 } := by decide +kernel
/-- Program 3: an unknown opcode records its word. -/
theorem test_illegal : after 0x0500000000000000 State.reset (fun t => (t.errflags, t.lasterr, t.ecmdLo, t.ecmdHi)) =
    some (0x10, 5, 0, 0x05000000) := by decide +kernel

/-! ### Witnesses: concrete states that meet the hypotheses of the statements -/

theorem reset_inv : StateInv State.reset where
  counters := ⟨by decide, by decide, by decide, by decide⟩
  memories := ⟨rfl, rfl, by simp [State.reset, State.resetWith], by simp [State.reset, State.resetWith]⟩
  padding k h1 h2 := by simp [State.reset, State.resetWith, State.pkByteLen] at h2
  flags := ⟨by decide, by decide⟩
  tree h := by cases h
  table h := by cases h
  errors := ⟨by decide, by decide, fun h => absurd rfl h⟩

theorem treeV2_tree : TreeIsOfPresentFt treeV2 := by
  intro _
  refine ⟨?_, ?_, ?_, by decide⟩
  · show nodesV2 = (buildTree ftV2).1
    rw [buildV2]
  · show 2 = rootOf (buildTree ftV2).2
    rw [buildV2]; rfl
  · show 2 = (leaves ftV2).length
    rw [leavesV2]; rfl

theorem tableV2_inv : StateInv tableV2 where
  counters := ⟨by decide, by decide, by decide, by decide⟩
  memories := ⟨rfl, rfl, by simp [tableV2, treeV2, loadedV2, State.reset, State.resetWith],
    by simp [tableV2, treeV2, loadedV2, State.reset, State.resetWith]⟩
  padding k h1 h2 := by
    simp [tableV2, treeV2, loadedV2, State.reset, State.resetWith, State.pkByteLen] at h2
  flags := ⟨fun _ => rfl, fun h => by cases h⟩
  tree := treeV2_tree
  table _ := by rfl
  errors := ⟨by decide, by decide, fun h => absurd rfl h⟩

theorem ctV2_read (n : SymbolId) : tableV2.ctRead n = if n = 256 then [false] else if n = 65 then [true] else [] := by
  unfold State.ctRead
  show ctV2[n.val] = _
  unfold ctV2
  rw [Vector.getElem_set, Vector.getElem_set]
  by_cases h1 : n = 256
  · subst h1; rfl
  · rw [if_neg (fun e => h1 (Fin.ext e.symm)), if_neg h1]
    by_cases h2 : n = 65
    · subst h2; rfl
    · rw [if_neg (fun e => h2 (Fin.ext e.symm)), if_neg h2]; simp [emptyTable]

theorem ctV2_prefixFree : PrefixFree tableV2.ctRead := by
  rintro m n hmn hm hn ⟨r, hr⟩
  rw [ctV2_read] at hm hr
  rw [ctV2_read] at hn hr
  by_cases h1 : m = 256 <;> by_cases h2 : n = 256 <;> by_cases h3 : m = 65 <;> by_cases h4 : n = 65 <;>
    simp_all

theorem packed3_ok : CountersInBounds packed3 ∧ MemoriesCanonical packed3 ∧ PaddingZero packed3 := by
  refine ⟨⟨by decide, by decide, by decide, by decide⟩, ⟨by decide, by decide, by decide, by decide⟩, ?_⟩
  intro k h1 h2
  have h1 : 3 ≤ k := h1
  have h2 : k < 8 := h2
  interval_cases k <;> decide

theorem loaded7_ok : CountersInBounds loaded7 ∧ MemoriesCanonical loaded7 :=
  ⟨⟨by decide, by decide, by decide, by decide⟩, ⟨by decide, by decide, by decide, by decide⟩⟩

/-- DecodedWordIsTheEncodingOfItsCommand, DecoderFollowsMaskMatchTable. -/
theorem witness_decode : decode 0x0100000A00000000#64 = .ok (.rdsr 10#16) ∧
    ("RDSR", 0xFFFF0000FFFFFFFF#64, 0x0100000000000000#64) ∈ maskMatchTable ∧
    (0x0100000A00000000#64 &&& 0xFFFF0000FFFFFFFF#64) = 0x0100000000000000#64 := ⟨rfl, by decide, by decide⟩

/-- IllegalWordOnlyRecordsIllegalCmd. -/
theorem witness_illegal : (State.reset.present (.command 0x0500000000000000#64)).input = [.command 0x0500000000000000#64] ∧
    ∀ row ∈ maskMatchTable, 0x0500000000000000#64 &&& row.2.1 ≠ row.2.2 := ⟨rfl, by decide⟩

/-- StepRunsTheDecodedCommand; EveryStepCompletes and EveryStepKeepsTheInvariant with a command presented. -/
theorem witness_step_command : (State.reset.present (.command 0#64)).input = [.command 0#64] ∧ decode 0#64 = .ok .nop ∧
    StateInv (State.reset.present (.command 0#64)) ∧
    ∃ t, step (State.reset.present (.command 0#64)) = .next t :=
  ⟨rfl, rfl, ⟨⟨by decide, by decide, by decide, by decide⟩,
    ⟨rfl, rfl, reset_inv.memories.pmemAddr, reset_inv.memories.umemAddr⟩, reset_inv.padding,
    ⟨reset_inv.flags.ctNeedsTree, reset_inv.flags.noTree⟩, reset_inv.tree, reset_inv.table,
    ⟨reset_inv.errors.neverRaised, reset_inv.errors.noError, reset_inv.errors.lastError⟩⟩, _, rfl⟩

/-- StepWithNothingPresentedWaits; HardResetRestoresTheResetValues. -/
theorem witness_step_other : State.reset.input = [] ∧ (packed3.present .hardReset).input = [.hardReset] := ⟨rfl, rfl⟩

/-- CommandSucceedsOrOnlyRecordsItsError and CommandsRaiseOnlyTheirCodes, both alternatives; OnlyTheNamedCommandsWrite and
ValidityFlagsFollowTheirLifetimes, a command that succeeds and one that does not. -/
theorem witness_exec : exec .nop State.reset = .next { State.reset with resp := some { err := 0, rdata := 0 } } ∧
    exec .nextbit loaded8 = .next (errorEntry .outOfRange (encode .nextbit) loaded8) ∧
    (errorEntry .outOfRange (encode .nextbit) loaded8).resp = some { err := 2, rdata := 0 } := ⟨rfl, rfl, rfl⟩

/-- OperandOutsideItsFixedRangeIsBadOperand, at the first value outside. -/
theorem witness_outside : ¬ (Instr.rdsr 15#16).WellFormed := by decide

/-- SequenceErrorExactlyWithoutTreeOrTable: both clauses, and a state in which neither holds. -/
theorem witness_sequence : Instr.gencodes.WellFormed ∧ State.reset.treeValid = false ∧
    (Instr.pushsym 256#16).WellFormed ∧ treeV2.ctValid = false ∧ tableV2.ctValid = true := by decide +kernel

/-- ErrorFlagsAreSticky; ResetCommandRestoresTheResetValues, third clause. -/
theorem witness_sticky : Instr.nop ≠ .reset ∧ (∃ t, exec .nop { State.reset with errflags := 1 } = .next t) ∧
    ({ State.reset with errflags := 1 } : State).errflags.getLsbD 0 = true ∧
    ∃ t, exec .reset { State.reset with errflags := 1, lasterr := 1 } = .next t ∧ t.errflags = 0 ∧ t.lasterr = 0 :=
  ⟨by decide, ⟨_, rfl⟩, by decide, _, rfl, rfl, rfl⟩

/-- NopDoesNothing, ResetCommandRestoresTheResetValues, ClrfreqClearsTheTableAndInvalidates: words of the three opcodes
with a non-zero unused field. -/
theorem witness_unusedField :
    (0x0000000000000001#64).extractLsb' 56 8 = 0x00#8 ∧ 0x0000000000000001#64 ≠ 0x0000000000000000#64 ∧
    (0x0200000100000000#64).extractLsb' 56 8 = 0x02#8 ∧ 0x0200000100000000#64 ≠ 0x0200000000000000#64 ∧
    (0x1001000000000000#64).extractLsb' 56 8 = 0x10#8 ∧ 0x1001000000000000#64 ≠ 0x1000000000000000#64 := by
  refine ⟨rfl, ?_, rfl, ?_, rfl, ?_⟩ <;> simp

/-- The operand clauses of RDSR, SETFREQ, RDFREQ, RDCLEN, RDCODE, PUSHSYM, PUSHBIT and UPBYTE, at their boundary values. -/
theorem witness_operands : 15 ≤ (15#16).toNat ∧ (255#16).toNat ≤ 255 ∧ 256 ≤ (256#16).toNat ∧
    257 ≤ (257#16).toNat ∧ (256#16).toNat ≤ 256 ∧ 7 < (8#8).toNat ∧ (7#8).toNat ≤ 7 ∧ 2 ≤ (2#32).toNat ∧
    (1#32).toNat ≤ 1 ∧ (255#32).toNat ≤ 255 ∧ 256 ≤ (256#32).toNat := by decide

/-- BuildMakesATreeOfTheTable, BuildMergesTheTwoThatPopFirst, BuildDependsOnTheFrequencyTableAlone: a BUILD that makes an
internal node of two different leaves. -/
theorem witness_build : ∃ t, exec .build loadedV2 = .next t ∧ t.nleaf.toNat = 2 ∧ IsLeaf t.nodes 0 65 ∧
    IsLeaf t.nodes 1 256 ∧ IsInternal t.nodes 2 1 0 ∧ QueuedAt t.nodes 2 0 :=
  ⟨_, test_build, rfl, ⟨_, rfl, rfl⟩, ⟨_, rfl, rfl⟩, ⟨_, rfl, rfl⟩, by decide, fun p hp => by
    have : some 2 = some p := hp
    injection this with this
    omega⟩

/-- RdnodeReturnsTheFieldOfTheNode: a leaf, an internal node that is the root, a parent, and the three error clauses at
their boundaries. -/
theorem witness_rdnode : treeV2.treeValid = true ∧ (2#16).toNat < treeV2.nnode.toNat ∧
    (∃ nd, treeV2.nodes[(0#16).toNat]? = some nd ∧ nd.body = .leaf 65 ∧ nd.parent = some 2) ∧
    (∃ nd, treeV2.nodes[(2#16).toNat]? = some nd ∧ nd.body = .internal 1 0) ∧
    (2#16).toNat = treeV2.root.toNat ∧ (0#16).toNat ≠ treeV2.root.toNat ∧
    7 ≤ (7#8).toNat ∧ (6#8).toNat ≤ 6 ∧ State.reset.treeValid = false ∧ treeV2.nnode.toNat ≤ (3#16).toNat ∧
    TreeIsOfPresentFt treeV2 ∧ IsLeaf treeV2.nodes (0#16).toNat 65 :=
  ⟨rfl, by decide, ⟨_, rfl, rfl, rfl⟩, ⟨_, rfl, rfl⟩, by decide, by decide, by decide, by decide, rfl, by decide,
    treeV2_tree, ⟨_, rfl, rfl⟩⟩

/-- GencodesCompletesAndWritesOnlyTheTable, GencodesGivesEachLeafItsPath with two leaves. -/
theorem witness_gencodes : TreeIsOfPresentFt treeV2 ∧ treeV2.treeValid = true ∧ 2 ≤ treeV2.nleaf.toNat ∧
    (∃ t, exec .gencodes treeV2 = .next t ∧ t.ctRead 65 = [true]) ∧
    follow treeV2.nodes treeV2.root.toNat [true] = some 0 ∧ IsLeaf treeV2.nodes 0 65 ∧
    State.reset.treeValid = false :=
  ⟨treeV2_tree, rfl, by decide, ⟨_, rfl, rfl⟩, rfl, ⟨_, rfl, rfl⟩, rfl⟩

theorem leavesV1 : leaves zeroFt = [leafNode Config.eos 1#41] := by simp [leaves, byteLeaves, zeroFt]

theorem buildV1 : buildTree zeroFt = ([leafNode Config.eos 1#41], [0]) := by
  unfold buildTree
  rw [leavesV1]
  rfl

/-- GencodesGivesEachLeafItsPath with one leaf: vector V1. -/
theorem witness_gencodes_single : ∃ s : State, TreeIsOfPresentFt s ∧ s.treeValid = true ∧ s.nleaf.toNat = 1 ∧
    ∃ t, exec .gencodes s = .next t := by
  have hb := buildV1
  have hl := congrArg List.length leavesV1
  refine ⟨{ State.reset with ft := zeroFt, treeValid := true, nleaf := 1, nnode := 1, nodes := [leafNode Config.eos 1#41] },
    fun _ => ⟨?_, ?_, ?_, rfl⟩, rfl, rfl, _, rfl⟩
  · show _ = (buildTree zeroFt).1
    rw [hb]
  · show 0 = rootOf (buildTree zeroFt).2
    rw [hb]; rfl
  · show 1 = (leaves zeroFt).length
    rw [hl]; rfl

/-- CodeLengthsAreBounded, CodeTableIsPrefixFree, GettableReadsTheCodeTable, HuffmanCodeIsOptimal. -/
theorem witness_table : StateInv tableV2 ∧ tableV2.ctValid = true ∧ PrefixFree tableV2.ctRead ∧
    (∀ n, tableV2.ftRead n ≠ 0 → tableV2.ctRead n ≠ []) := by
  refine ⟨tableV2_inv, rfl, ctV2_prefixFree, fun n hn => ?_⟩
  rw [ctV2_read]
  by_cases h1 : n = 256
  · rw [if_pos h1]; decide
  · by_cases h2 : n = 65
    · rw [if_neg h1, if_pos h2]; decide
    · exfalso
      apply hn
      have h3 : n.val < 256 := by
        have := n.isLt
        have : n.val ≠ 256 := fun e => h1 (Fin.ext e)
        omega
      show State.ftRead tableV2 n = 0
      unfold State.ftRead
      rw [dif_pos h3]
      show ftV2[n.val] = 0
      unfold ftV2
      rw [Vector.getElem_set, if_neg (fun e => h2 (Fin.ext e.symm))]
      simp [zeroFt]

/-- RdclenReturnsTheCodeLength, RdcodeReturnsTheCodeWord, PushsymAppendsTheWholeCode: a symbol with a code and one without,
with a table and without one, room to the last bit and no room. -/
theorem witness_codes : tableV2.ctValid = true ∧ tableV2.ctRead 256 ≠ [] ∧ tableV2.ctRead 66 = [] ∧
    (66#16).toNat = (66 : SymbolId).val ∧ treeV2.ctValid = false ∧
    CountersInBounds tableV2 ∧ MemoriesCanonical tableV2 ∧ PaddingZero tableV2 ∧
    tableV2.pkBitcnt.toNat + (tableV2.ctRead 256).length ≤ 8 * tableV2.params.pbufBytes ∧
    (7 + (tableV2.ctRead 256).length = 8 * packed3.params.pbufBytes ∧
     8 * packed8.params.pbufBytes < packed8.pkBitcnt.toNat + (tableV2.ctRead 256).length) := by
  rw [ctV2_read, ctV2_read]
  exact ⟨rfl, by decide, by decide, by decide, rfl, tableV2_inv.counters, tableV2_inv.memories, tableV2_inv.padding,
    by decide, by decide, by decide⟩

/-- PushbitAppendsOneBit, RdpkReturnsThePackedByte, PackedBytesAreTheZeroPaddedStream: a partial byte, a fresh byte, a full
packer, and the first address outside. -/
theorem witness_packer : (CountersInBounds packed3 ∧ MemoriesCanonical packed3 ∧ PaddingZero packed3) ∧
    packed3.pkBitcnt.toNat < 8 * packed3.params.pbufBytes ∧ packed3.pkBitcnt.toNat % 8 ≠ 0 ∧
    State.reset.pkBitcnt.toNat % 8 = 0 ∧ packed8.pkBitcnt.toNat = 8 * packed8.params.pbufBytes ∧
    (0#32).toNat < (packed3.pkBitcnt.toNat + 7) / 8 ∧ (packed3.pkBitcnt.toNat + 7) / 8 ≤ (1#32).toNat ∧
    ∃ t, exec (.rdpk 0#32) packed3 = .next t ∧ t.resp = some { err := 0, rdata := 0xA0#32 } :=
  ⟨packed3_ok, by decide, by decide, by decide, by decide, by decide, by decide, _, rfl, by decide⟩

/-- UpbyteAppendsOneByte, NextbitReturnsTheNextBit, NextbitsReadTheStreamInOrder: room, a full unpacker, the last bit, and
no bit left. -/
theorem witness_unpacker : (CountersInBounds loaded7 ∧ MemoriesCanonical loaded7) ∧
    State.reset.upLen.toNat < State.reset.params.ubufBytes ∧ loaded7.upLen.toNat = loaded7.params.ubufBytes ∧
    loaded7.upPos.toNat < 8 * loaded7.upLen.toNat ∧ 8 * loaded8.upLen.toNat ≤ loaded8.upPos.toNat ∧
    loaded7.upPos.toNat + 1 ≤ 8 * loaded7.upLen.toNat :=
  ⟨loaded7_ok, by decide, by decide, by decide, by decide, by decide⟩

/-- EveryStepKeepsTheMemoriesCanonical; ResetStateSatisfiesTheInvariant at the least and the greatest capacity. -/
theorem witness_memories : MemoriesCanonical packed3 ∧ (∃ t, step packed3 = .next t) ∧
    Params.ok { pbufBytes := 1, ubufBytes := 1 } = true ∧
    Params.ok { pbufBytes := 2 ^ 28, ubufBytes := 2 ^ 28 } = true :=
  ⟨packed3_ok.2.1, ⟨_, rfl⟩, by decide, by decide⟩

/-- PackerAndUnpackerAreIndependent, one command of each side. -/
theorem witness_independent : (∃ t, exec .pkreset packed3 = .next t) ∧ ∃ t, exec .uprewind loaded8 = .next t :=
  ⟨⟨_, rfl⟩, _, rfl⟩

/-- UnobservableContentsNeverShow: two different states that are the same to the host. -/
theorem witness_same : SameToHost loadedV2 { loadedV2 with nodes := nodesV2, pmem := [(0, 1#8)] } ∧
    loadedV2 ≠ { loadedV2 with nodes := nodesV2, pmem := [(0, 1#8)] } ∧ MemoriesCanonical loadedV2 ∧
    MemoriesCanonical { loadedV2 with nodes := nodesV2, pmem := [(0, 1#8)] } ∧ ∃ t, step loadedV2 = .next t := by
  refine ⟨⟨rfl, rfl, rfl, rfl, rfl, rfl, rfl, fun h => (by cases h), fun _ => rfl, rfl, ?_, rfl, rfl, fun _ _ => rfl, rfl,
    rfl, rfl, rfl, rfl, rfl⟩, ?_, ⟨rfl, rfl, ?_, ?_⟩, ⟨by decide, rfl, by decide, ?_⟩, _, rfl⟩
  · intro a ha
    simp [State.pkByteLen, loadedV2, State.reset, State.resetWith] at ha
  · intro h
    have := congrArg State.nodes h
    simp [loadedV2, State.reset, State.resetWith, nodesV2] at this
  all_goals simp [loadedV2, State.reset, State.resetWith]

/-- HistloadLoadsTheHistogram, CompressSucceedsWhenTheStreamFits: an input whose counts fit, and one with a count of
2^32, the least that does not. -/
theorem witness_histload : (∀ v : Byte, ([65#8] : List Byte).count v < 2 ^ 32) ∧
    2 ^ 32 ≤ (List.replicate (2 ^ 32) (65#8 : Byte)).count 65#8 :=
  ⟨fun v => Nat.lt_of_le_of_lt List.count_le_length (by simp), Nat.le_of_eq List.count_replicate_self.symm⟩

/-- DecompressUndoesCompress, TruncatedStreamIsDetected: COMPRESS of the empty input, vector V1. -/
theorem witness_compress : StateInv State.reset ∧ ∃ t, compress [] State.reset = .ok (([(256, [false])], [0#8]), t) ∧
    ([0#8] : List Byte).length ≤ State.reset.params.ubufBytes := by
  refine ⟨reset_inv, ?_⟩
  have h : (compress [] State.reset).toOption.map (·.1) = some ([(256, [false])], [0#8]) := by decide +kernel
  cases e : compress [] State.reset with
  | error x => rw [e] at h; cases h
  | ok r =>
    obtain ⟨r1, t⟩ := r
    rw [e] at h
    have h : some r1 = some ([(256, [false])], [0#8]) := h
    injection h with h
    exact ⟨t, by rw [h], by decide⟩

/-- A one-byte block after reset. -/
def tiny : State := State.resetWith { pbufBytes := 1, ubufBytes := 1 }

theorem tiny_inv : StateInv tiny where
  counters := ⟨by decide, by decide, by decide, by decide⟩
  memories := ⟨rfl, rfl, by simp [tiny, State.resetWith], by simp [tiny, State.resetWith]⟩
  padding k h1 h2 := by simp [tiny, State.resetWith, State.pkByteLen] at h2
  flags := ⟨by decide, by decide⟩
  tree h := by cases h
  table h := by cases h
  errors := ⟨by decide, by decide, fun h => absurd rfl h⟩

/-- The input AABBCC of vector V3. -/
def aabbcc : List Byte := [65#8, 65#8, 66#8, 66#8, 67#8, 67#8]

/-- A block with two bytes of PMEM after reset. -/
def small : State := State.resetWith { pbufBytes := 2, ubufBytes := 1 }

theorem small_inv : StateInv small where
  counters := ⟨by decide, by decide, by decide, by decide⟩
  memories := ⟨rfl, rfl, by simp [small, State.resetWith], by simp [small, State.resetWith]⟩
  padding k h1 h2 := by simp [small, State.resetWith, State.pkByteLen] at h2
  flags := ⟨by decide, by decide⟩
  tree h := by cases h
  table h := by cases h
  errors := ⟨by decide, by decide, fun h => absurd rfl h⟩

/-- CompressSucceedsWhenTheStreamFits: the 14 bits of AABBCC (every code of R195 has two) fit two bytes and not one. -/
theorem witness_compress_fits : (encodedStream aabbcc).length = 14 ∧ (∀ v : Byte, aabbcc.count v < 2 ^ 32) ∧
    StateInv small ∧ 14 ≤ 8 * small.params.pbufBytes ∧ StateInv tiny ∧ 8 * tiny.params.pbufBytes < 14 :=
  ⟨by decide +kernel, fun v => Nat.lt_of_le_of_lt List.count_le_length (by simp [aabbcc]), small_inv, by decide,
    tiny_inv, by decide⟩

/-- CompressReportsOnlyCapacity: eight times the same byte is nine bits with the sentinel's (R193), one too many. -/
theorem witness_compress_capacity : StateInv tiny ∧
    compress (List.replicate 8 65#8) tiny = .error (.reported 9#8) := by
  refine ⟨tiny_inv, ?_⟩
  have h : (match compress (List.replicate 8 65#8) tiny with
    | .error x => decide (x = .reported 9#8)
    | .ok _ => false) = true := by decide +kernel
  cases e : compress (List.replicate 8 65#8) tiny with
  | ok r => rw [e] at h; cases h
  | error x => rw [e] at h; rw [of_decide_eq_true h]

/-- TablecheckAcceptsExactlyTheCodeTables, DecompressAlwaysEnds: no table, a table, and one byte too many. -/
theorem witness_decompress : tableCheck [] = false ∧ tableCheck [(256, [false])] = true ∧
    (([] : CodeMap).map (·.1)).Nodup ∧ (([(256, [false])] : CodeMap).map (·.1)).Nodup ∧
    ([0#8] : List Byte).length ≤ tiny.params.ubufBytes ∧ tiny.params.ubufBytes < ([0#8, 0#8] : List Byte).length := by
  decide

end Sys2Proof.Tests
end

section
/-! The parts of `StateInv` that hold wherever there is no tree, no table, nothing in the packer and no error, and the
reset state as such a state. -/

namespace Sys2Proof.Machine

section
variable {s : State}

/-- An empty packer has no last byte, so it has no unused bits (R47). -/
theorem paddingZero_of_empty (h : s.pkBitcnt = 0) : PaddingZero s := by
  intro k _ hk
  have hlen : s.pkByteLen = 0 := by simp [State.pkByteLen, h]
  omega

theorem flagsCoherent_of_invalid (hct : s.ctValid = false) (hleaf : s.nleaf = 0) (hnode : s.nnode = 0)
    (hroot : s.root = 0) : FlagsCoherent s where
  ctNeedsTree hv := absurd hv (by simp [hct])
  noTree _ := ⟨hleaf, hnode, hroot⟩

theorem treeIsOfPresentFt_of_invalid (h : s.treeValid = false) : TreeIsOfPresentFt s :=
  fun hv => absurd hv (by simp [h])

theorem tableIsOfPresentTree_of_invalid (h : s.ctValid = false) : TableIsOfPresentTree s :=
  fun hv => absurd hv (by simp [h])

theorem errorRecordCoherent_of_clear (hflags : s.errflags = 0) (hlast : s.lasterr = 0) (hlo : s.ecmdLo = 0)
    (hhi : s.ecmdHi = 0) : ErrorRecordCoherent s where
  neverRaised := by simp [hflags]
  noError _ := ⟨hflags, hlo, hhi⟩
  lastError hne := absurd hlast hne

end

/-- After reset the packer and the unpacker hold nothing, so no counter passes its bound. -/
theorem resetWith_countersInBounds {p : Params} (hp : p.ok = true) : CountersInBounds (State.resetWith p) where
  params := hp
  pk := Nat.zero_le _
  upLen := Nat.zero_le _
  upPos := Nat.zero_le _

/-- After reset neither memory lists a byte. -/
theorem resetWith_memoriesCanonical (p : Params) : MemoriesCanonical (State.resetWith p) where
  pmem := rfl
  umem := rfl
  pmemAddr _ hc := absurd hc List.not_mem_nil
  umemAddr _ hc := absurd hc List.not_mem_nil

/-- Settles O45: the legal parameters give the bounds of R8, and every other part holds since the reset state has no
tree, no table, no bit in a stream and no error (R52). -/
theorem resetStateSatisfiesTheInvariant : Obligations.ResetStateSatisfiesTheInvariant := fun _ hp =>
  { counters := resetWith_countersInBounds hp
    memories := resetWith_memoriesCanonical _
    padding := paddingZero_of_empty rfl
    flags := flagsCoherent_of_invalid rfl rfl rfl rfl
    tree := treeIsOfPresentFt_of_invalid rfl
    table := tableIsOfPresentTree_of_invalid rfl
    errors := errorRecordCoherent_of_clear rfl rfl rfl rfl }

end Sys2Proof.Machine
end

section
/-! The tree and the code table in a state of the invariant: what `Arena` and `genCodes_spec` say of the stored NODE,
ROOT, NLEAF and CT, and from it the three parts of R43. -/

namespace Sys2Proof.Machine

section
variable {s : State}

/-- A valid tree is a finished arena of the present FT. -/
theorem TreeIsOfPresentFt.arena (h : TreeIsOfPresentFt s) (hv : s.treeValid = true) :
    Arena s.ft s.nodes [s.root.toNat] := by
  obtain ⟨hnodes, hroot, _, _⟩ := h hv
  rw [hnodes, hroot]
  exact buildTree_arena s.ft

theorem TreeIsOfPresentFt.nleaf_eq (h : TreeIsOfPresentFt s) (hv : s.treeValid = true) :
    s.nleaf.toNat = (presentSymbols s.ft).length := by
  obtain ⟨_, _, hleaf, _⟩ := h hv
  rw [hleaf, leaves_length]

/-- Where the sentinel is the only symbol present, it is the only one of non-zero count (R142). -/
theorem ftAt_ne_zero_iff_eos {ft : Vector Data 256} (h : (presentSymbols ft).length = 1) (n : SymbolId) :
    ftAt ft n ≠ 0 ↔ n = Config.eos := by
  have heos : Config.eos ∈ presentSymbols ft := mem_presentSymbols.mpr (by rw [ftAt_eos]; decide)
  obtain ⟨x, hx⟩ := List.length_eq_one_iff.mp h
  rw [← mem_presentSymbols, hx, List.mem_singleton]
  rw [hx, List.mem_singleton] at heos
  rw [heos]

/-- The codes of a table: the sentinel's single bit where it is the only symbol (R142), else each code is the path to
its symbol's leaf, and the symbols of zero count have none (R141). -/
def CodesArePaths (s : State) : Prop :=
  ((presentSymbols s.ft).length = 1 ∧ ∀ n, s.ctRead n = if n = Config.eos then [false] else []) ∨
  ∀ n, (∃ i, follow s.nodes s.root.toNat (s.ctRead n) = some i ∧ IsLeaf s.nodes i n ∧ s.ctRead n ≠ []) ∨
    (s.ctRead n = [] ∧ ftAt s.ft n = 0)

theorem emptyTable_set_getElem (m n : SymbolId) (c : Code) :
    (emptyTable.set m.val c m.isLt)[n.val] = if n = m then c else [] := by
  rw [Vector.getElem_set]
  simp [emptyTable, Fin.ext_iff, eq_comm]

theorem StateInv.codesArePaths (h : StateInv s) (hv : s.ctValid = true) : CodesArePaths s := by
  have ha := h.tree.arena (h.flags.ctNeedsTree hv)
  obtain ⟨ct, hct, hone, hmore⟩ := ha.genCodes_spec
  obtain rfl : s.ct = ct := by
    have := (h.table hv).symm.trans hct
    injection this
  have hpos := presentSymbols_length_pos s.ft
  by_cases hN : (presentSymbols s.ft).length = 1
  · refine .inl ⟨hN, fun n => ?_⟩
    unfold State.ctRead
    rw [hone hN, emptyTable_set_getElem]
  · exact .inr (hmore (by omega))

/-- R43 (a): exactly the symbols of non-zero count have a code. -/
theorem CodesArePaths.has_code_iff (h : CodesArePaths s) (ha : Arena s.ft s.nodes [s.root.toNat]) (n : SymbolId) :
    1 ≤ (s.ctRead n).length ↔ s.ftRead n ≠ 0 := by
  rw [Nat.one_le_iff_ne_zero, Ne, List.length_eq_zero_iff, ftRead_eq]
  rcases h with ⟨hN, hone⟩ | hpath
  · rw [hone n, ftAt_ne_zero_iff_eos hN]
    by_cases e : n = Config.eos <;> simp [e]
  · rcases hpath n with ⟨i, _, hleaf, hne⟩ | ⟨hnil, hzero⟩
    · exact iff_of_true hne (ha.ne_zero_of_leaf hleaf)
    · exact iff_of_false (fun hne => hne hnil) (fun hne => hne hzero)

/-- R43 (c), R144: a path is no longer than NLEAF − 1. -/
theorem CodesArePaths.length_le (h : CodesArePaths s) (ha : Arena s.ft s.nodes [s.root.toNat]) (n : SymbolId) :
    (s.ctRead n).length ≤ max 1 ((presentSymbols s.ft).length - 1) := by
  rcases h with ⟨_, hone⟩ | hpath
  · rw [hone n]
    split <;> simp
  · rcases hpath n with ⟨i, hfollow, _, hne⟩ | ⟨hnil, _⟩
    · exact (ha.follow_length hfollow hne).trans (le_max_right _ _)
    · simp [hnil]

/-- R43 (b): the path to one leaf does not go on to another. -/
theorem CodesArePaths.prefixFree (h : CodesArePaths s) : PrefixFree s.ctRead := by
  rintro m n hmn hm hn ⟨rest, hrest⟩
  rcases h with ⟨_, hone⟩ | hpath
  · rw [hone] at hm hn
    have hm' : m = Config.eos := by by_contra e; simp [e] at hm
    have hn' : n = Config.eos := by by_contra e; simp [e] at hn
    exact hmn (hm'.trans hn'.symm)
  · obtain ⟨i, hi, hleafm, _⟩ := (hpath m).resolve_right fun hz => hm hz.1
    obtain ⟨j, hj, hleafn, _⟩ := (hpath n).resolve_right fun hz => hn hz.1
    rw [hrest, follow_append, hi] at hj
    obtain ⟨_, rfl⟩ := follow_leaf hleafm hj
    exact hmn (hleafm.unique hleafn)

end

/-- Settles O30: the codes are paths to leaves, and no path goes on past a leaf. -/
theorem codeTableIsPrefixFree : Obligations.CodeTableIsPrefixFree := fun _ h hv => (h.codesArePaths hv).prefixFree

/-- Settles O29: the codes are paths to the leaves of the present symbols, of which there are at most 257. -/
theorem codeLengthsAreBounded : Obligations.CodeLengthsAreBounded := by
  intro s h hv n
  have hpaths := h.codesArePaths hv
  have htree := h.flags.ctNeedsTree hv
  have ha := h.tree.arena htree
  have hlen := hpaths.length_le ha n
  have hcount := presentSymbols_length_le s.ft
  refine ⟨hpaths.has_code_iff ha n, ?_, ?_, (hpaths.has_code_iff ha Config.eos).mpr ?_⟩
  · rw [h.tree.nleaf_eq htree]
    exact hlen
  · unfold Config.maxCodeLen
    omega
  · rw [ftRead_eq, ftAt_eos]
    decide

end Sys2Proof.Machine
end

section
/-! Which pieces of state a command that succeeds can have written, said once for all commands; the rules about what the
commands leave alone are read off it. -/

namespace Sys2Proof.Machine

/-- `u` differs from `s` at most in what the spec lets command `i` write (R22, R28, R34, R35, R37, R42, R45, R46,
R48). -/
structure WritesOnlyItsOwn (i : Instr) (s u : State) : Prop where
  params : u.params = s.params
  input : u.input = s.input
  ft : u.ft = s.ft ∨ i = .clrfreq ∨ i = .reset ∨ ∃ n d, i = .setfreq n d
  tree : (u.treeValid = s.treeValid ∧ u.nleaf = s.nleaf ∧ u.nnode = s.nnode ∧ u.root = s.root) ∨
    i = .build ∨ i = .clrfreq ∨ i = .reset ∨ ∃ n d, i = .setfreq n d
  ctValid : u.ctValid = s.ctValid ∨ i = .gencodes ∨ i = .build ∨ i = .clrfreq ∨ i = .reset ∨ ∃ n d, i = .setfreq n d
  nodes : u.nodes = s.nodes ∨ i = .build
  ct : u.ct = s.ct ∨ i = .gencodes
  pmem : u.pmem = s.pmem ∨ (∃ d, i = .pushbit d) ∨ ∃ n, i = .pushsym n
  umem : u.umem = s.umem ∨ ∃ d, i = .upbyte d
  pkBitcnt : u.pkBitcnt = s.pkBitcnt ∨ i = .pkreset ∨ i = .reset ∨ (∃ d, i = .pushbit d) ∨ ∃ n, i = .pushsym n
  upLen : u.upLen = s.upLen ∨ i = .upreset ∨ i = .reset ∨ ∃ d, i = .upbyte d
  upPos : u.upPos = s.upPos ∨ i = .upreset ∨ i = .uprewind ∨ i = .nextbit ∨ i = .reset
  errors : (u.errflags = s.errflags ∧ u.lasterr = s.lasterr ∧ u.ecmdLo = s.ecmdLo ∧ u.ecmdHi = s.ecmdHi) ∨ i = .reset

theorem WritesOnlyItsOwn.refl (i : Instr) (s : State) : WritesOnlyItsOwn i s s := by
  constructor <;> simp

section
variable {i : Instr} {s t u : State}

theorem Success.writesOnlyItsOwn (h : Success i s u) : WritesOnlyItsOwn i s u := by
  cases i with
  | nop | rdsr | rdfreq | rdnode | rdclen | rdcode | rdpk => exact h ▸ .refl _ _
  | reset | clrfreq | build | pkreset | upreset | uprewind => subst h; constructor <;> simp
  | setfreq => obtain ⟨b, _, rfl⟩ := h; constructor <;> simp
  | gencodes => obtain ⟨_, ct, _, rfl⟩ := h; constructor <;> simp
  | pushbit => obtain ⟨_, _, h⟩ := h; rw [(pkAppend_eq h).1, appended_frame]; constructor <;> simp
  | pushsym => obtain ⟨_, n, _, _, _, h⟩ := h; rw [pkAppendAll_frame h]; constructor <;> simp
  | upbyte => obtain ⟨_, _, rfl⟩ := h; constructor <;> simp [loaded]
  | nextbit => obtain ⟨_, rfl⟩ := h; constructor <;> simp

/-- Settles O48: a command that ends in error writes the error registers alone, one that succeeds its own pieces. -/
theorem onlyTheNamedCommandsWrite : Obligations.OnlyTheNamedCommandsWrite := by
  intro i s t h
  rcases exec_cases h with ⟨e, _, rfl⟩ | ⟨v, u, rfl, hs⟩
  · exact ⟨rfl, rfl, .inl rfl, .inl ⟨rfl, rfl, rfl, rfl⟩, .inl rfl, .inl rfl, .inl rfl, .inl rfl, .inl rfl, .inl rfl,
      .inl rfl, .inl rfl, .inr (.inr ⟨_, rfl, e.code_ne_zero⟩)⟩
  · obtain ⟨hparams, hinput, hft, htree, hctv, hnodes, hct, hpmem, humem, hpk, hlen, hpos, herr⟩ := hs.writesOnlyItsOwn
    exact ⟨hparams, hinput, hft, htree, hctv, hnodes, hct, hpmem, humem, hpk, hlen, hpos, herr.imp_right .inl⟩

/-- Settles O15: an error sets a flag and clears none, and a command that succeeds leaves the flags alone. -/
theorem errorFlagsAreSticky : Obligations.ErrorFlagsAreSticky := by
  intro i s t k hi h hk
  rcases exec_cases h with ⟨e, _, rfl⟩ | ⟨v, u, rfl, hs⟩
  · simp [hk]
  · obtain ⟨hflags, _⟩ := hs.writesOnlyItsOwn.errors.resolve_right hi
    exact hflags ▸ hk

/-- Settles O49: an error leaves both flags, and each success says what it makes of them. -/
theorem validityFlagsFollowTheirLifetimes : Obligations.ValidityFlagsFollowTheirLifetimes := by
  intro i s t r h hr
  rcases exec_cases h with ⟨e, _, rfl⟩ | ⟨v, u, rfl, hs⟩
  · obtain rfl := Option.some.inj hr
    rw [if_pos e.code_ne_zero, if_pos e.code_ne_zero]
    exact ⟨rfl, rfl⟩
  · obtain rfl := Option.some.inj hr
    rw [if_neg (not_not_intro rfl), if_neg (not_not_intro rfl)]
    cases i with
    | nop | rdsr | rdfreq | rdnode | rdclen | rdcode | rdpk | reset | clrfreq | build | pkreset | upreset | uprewind =>
      subst hs; exact ⟨rfl, rfl⟩
    | setfreq => obtain ⟨b, _, rfl⟩ := hs; exact ⟨rfl, rfl⟩
    | gencodes => obtain ⟨_, ct, _, rfl⟩ := hs; exact ⟨rfl, rfl⟩
    | pushbit => obtain ⟨_, _, hs⟩ := hs; rw [(pkAppend_eq hs).1]; exact ⟨rfl, rfl⟩
    | pushsym => obtain ⟨_, n, _, _, _, hs⟩ := hs; rw [pkAppendAll_frame hs]; exact ⟨rfl, rfl⟩
    | upbyte => obtain ⟨_, _, rfl⟩ := hs; exact ⟨rfl, rfl⟩
    | nextbit => obtain ⟨_, rfl⟩ := hs; exact ⟨rfl, rfl⟩

theorem loadedBits_congr (hmem : t.umem = s.umem) (hlen : t.upLen = s.upLen) : loadedBits t = loadedBits s := by
  unfold loadedBits umemBit
  rw [hmem, hlen]

theorem packedBits_congr (hmem : t.pmem = s.pmem) (hcnt : t.pkBitcnt = s.pkBitcnt) : packedBits t = packedBits s := by
  unfold packedBits pmemBit
  rw [hmem, hcnt]

/-- Settles O50: the packer's commands write neither UMEM nor the unpacker's counters, the unpacker's neither PMEM nor
PK_BITCNT. -/
theorem packerAndUnpackerAreIndependent : Obligations.PackerAndUnpackerAreIndependent := by
  intro i s t h
  obtain ⟨_, _, _, _, _, _, _, hpmem, humem, hpk, hlen, hpos, _⟩ := onlyTheNamedCommandsWrite i s t h
  constructor <;> intro hi
  · have hu : t.umem = s.umem ∧ t.upLen = s.upLen ∧ t.upPos = s.upPos := by
      rcases hi with rfl | ⟨d, rfl⟩ | ⟨n, rfl⟩ | ⟨d, rfl⟩ <;> simpa using And.intro humem (And.intro hlen hpos)
    obtain ⟨humem, hlen, hpos⟩ := hu
    have hbits := loadedBits_congr humem hlen
    exact ⟨hbits, by rw [remainingBits, remainingBits, hbits, hpos]⟩
  · have hp : t.pmem = s.pmem ∧ t.pkBitcnt = s.pkBitcnt := by
      rcases hi with rfl | ⟨d, rfl⟩ | rfl | rfl <;> simpa using And.intro hpmem hpk
    obtain ⟨hpmem, hpk⟩ := hp
    exact ⟨packedBits_congr hpmem hpk, by rw [State.pkByteLen, State.pkByteLen, hpk], fun a => by rw [hpmem]⟩

end

end Sys2Proof.Machine
end

section
/-! What a step is for each thing the host can present (R71, R95, R230, R231). -/

namespace Sys2Proof.Machine

section
variable {s : State}

theorem step_idle (h : s.input = []) : step s = .next s := by simp [step, takeEvent, h]

theorem step_hardReset {rest : List HostEvent} (h : s.input = .hardReset :: rest) :
    step s = .next (hardReset { s with input := rest }) := by
  simp [step, takeEvent, h]

theorem step_decoded {w : CommandWord} {rest : List HostEvent} {i : Instr} (h : s.input = .command w :: rest)
    (hd : decode w = .ok i) : step s = exec i { s with input := rest } := by
  simp [step, takeEvent, h, hd]

theorem step_illegal {w : CommandWord} {rest : List HostEvent} {why : DecodeError} (h : s.input = .command w :: rest)
    (hd : decode w = .error why) : step s = .next (errorEntry .illegalCmd w { s with input := rest }) := by
  simp [step, takeEvent, h, hd, illegalCommand]

end

end Sys2Proof.Machine
end

section
/-! The values of R52 in every state whose tables, counters and error registers are as reset leaves them. -/

namespace Sys2Proof.Machine

section
variable {s : State}

theorem ftRead_of_zeroFt (h : s.ft = zeroFt) {n : SymbolId} (hn : n ≠ Config.eos) : s.ftRead n = 0 := by
  have hlt : n.val < 256 := Nat.lt_of_le_of_ne (Nat.le_of_lt_succ n.isLt) fun e => hn (Fin.ext e)
  simp [ftRead_eq, ftAt, hlt, h, zeroFt]

theorem pkByteLen_of_empty (h : s.pkBitcnt = 0) : s.pkByteLen = 0 := by simp [State.pkByteLen, h]

/-- STATUS after reset: nothing is valid, nothing went wrong, and the unpacker is exhausted (R26, R52). -/
theorem statusWord_of_reset (htree : s.treeValid = false) (hct : s.ctValid = false) (hflags : s.errflags = 0)
    (hlen : s.upLen = 0) (hpos : s.upPos = 0) : statusWord s = 0x00000008#32 := by
  simp [statusWord, errAny, upExhausted, flagBit, htree, hct, hflags, hlen, hpos]

/-- Reset replaces every field of R52, whatever the state it came to. -/
theorem resetState_hasResetValues (s : State) : HasResetValues (resetState s) where
  ft _ hn := ftRead_of_zeroFt rfl hn
  sentinel := ftAt_eos _
  flags := ⟨rfl, rfl⟩
  tree := ⟨rfl, rfl, rfl⟩
  packer := ⟨rfl, pkByteLen_of_empty rfl⟩
  unpacker := ⟨rfl, rfl⟩
  errors := ⟨rfl, rfl, rfl, rfl⟩
  status := congrArg some (statusWord_of_reset rfl rfl rfl rfl rfl)
  constants := ⟨rfl, rfl, rfl⟩

/-- The response is none of the values of R52. -/
theorem HasResetValues.withResp (h : HasResetValues s) (r : Option Response) : HasResetValues { s with resp := r } :=
  { h with }

theorem resetState_resetWith (p : Params) : resetState (State.resetWith p) = State.resetWith p := rfl

end

/-- Settles O9: a hard reset is the effect of RESET on the state with the event taken off the port, and no response. -/
theorem hardResetRestoresTheResetValues : Obligations.HardResetRestoresTheResetValues := fun _ _ h =>
  ⟨_, step_hardReset h, (resetState_hasResetValues _).withResp none, rfl, rfl, rfl⟩

/-- Settles O10: reset leaves the reset state as it is. -/
theorem resetStateHasTheResetValues : Obligations.ResetStateHasTheResetValues :=
  ⟨fun p => ⟨resetState_resetWith p ▸ resetState_hasResetValues _, rfl, rfl⟩, rfl⟩

end Sys2Proof.Machine
end

section
/-! The invariant, part by part: both memories stay canonical whatever the rest of the state holds, an error leaves a
coherent record, and every success keeps the bounds, the padding and the lifetimes of the two tables. -/

namespace Sys2Proof.Machine

section
variable {i : Instr} {s t u : State}

/-! ### The memories -/

/-- A state with the same memories and parameters. -/
theorem MemoriesCanonical.congr (h : MemoriesCanonical s) (hparams : u.params = s.params) (hpmem : u.pmem = s.pmem)
    (humem : u.umem = s.umem) : MemoriesCanonical u where
  pmem := hpmem ▸ h.pmem
  umem := humem ▸ h.umem
  pmemAddr := by rw [hpmem, hparams]; exact h.pmemAddr
  umemAddr := by rw [humem, hparams]; exact h.umemAddr

theorem pkAppendAll_singleton {b : Bool} (h : pkAppend b s = .ok u) : pkAppendAll [b] s = .ok u := by
  simp [pkAppendAll, h]

theorem MemoriesCanonical.append (h : MemoriesCanonical s) {c : Code} (hu : pkAppendAll c s = .ok u) :
    MemoriesCanonical u := by
  obtain ⟨hwf, haddr⟩ := pkAppendAll_memory hu h.pmem h.pmemAddr
  rw [pkAppendAll_frame hu]
  exact ⟨hwf, h.umem, haddr, h.umemAddr⟩

theorem MemoriesCanonical.loaded (h : MemoriesCanonical s) (B : Byte) (hroom : s.upLen.toNat < s.params.ubufBytes) :
    MemoriesCanonical (loaded B s) where
  pmem := h.pmem
  umem := Memory.write_wf h.umem _ _
  pmemAddr := h.pmemAddr
  umemAddr c hc := by
    rcases Memory.mem_write hc with heq | hold
    · exact heq ▸ hroom
    · exact h.umemAddr c hold

theorem MemoriesCanonical.success (h : MemoriesCanonical s) (hs : Success i s u) : MemoriesCanonical u := by
  cases i with
  | pushbit => obtain ⟨_, _, hs⟩ := hs; exact h.append (pkAppendAll_singleton hs)
  | pushsym => obtain ⟨_, _, _, _, _, hs⟩ := hs; exact h.append hs
  | upbyte => obtain ⟨_, hroom, rfl⟩ := hs; exact h.loaded _ hroom
  | _ =>
    have hw := hs.writesOnlyItsOwn
    exact h.congr hw.params (by simpa using hw.pmem) (by simpa using hw.umem)

theorem MemoriesCanonical.exec (h : MemoriesCanonical s) (hexec : exec i s = .next t) : MemoriesCanonical t := by
  rcases exec_cases hexec with ⟨_, _, rfl⟩ | ⟨_, _, rfl, hs⟩
  · exact h.congr rfl rfl rfl
  · exact (h.success hs).congr rfl rfl rfl

/-- Settles O47: only the packer's appends and UPBYTE write a memory, inside its capacity and in canonical form. -/
theorem everyStepKeepsTheMemoriesCanonical : Obligations.EveryStepKeepsTheMemoriesCanonical := by
  intro s t h hstep
  rcases step_cases hstep with ⟨_, rfl⟩ | ⟨rest, _, rfl⟩ | ⟨w, rest, e, _, _, rfl⟩ | ⟨w, rest, i, _, _, hexec⟩
  · exact h
  · exact h.congr rfl rfl rfl
  · exact h.congr rfl rfl rfl
  · exact MemoriesCanonical.exec (s := { s with input := rest }) (h.congr rfl rfl rfl) hexec

/-! ### The error record -/

/-- No command raises a code whose flag is bit 0, 2 or 3 (R28, R200). -/
theorem flag_of_raisedBy {e : ErrCode} (h : e ∈ raisedBy i) : e.flag &&& 0b000001101#9 = 0 := by
  cases e with
  | emptyInput | truncated | invalidTable => cases i <;> simp [raisedBy] at h
  | _ => decide

theorem ErrorRecordCoherent.errorEntry (h : ErrorRecordCoherent s) {e : ErrCode}
    (he : e.flag &&& 0b000001101#9 = 0) (w : CommandWord) : ErrorRecordCoherent (errorEntry e w s) where
  neverRaised := by
    rw [errorEntry_errflags, BitVec.and_or_distrib_right, h.neverRaised, he]
    rfl
  noError hz := absurd hz e.code_ne_zero
  lastError _ := ⟨e, rfl, by ext k; simp +contextual⟩

/-! ### What keeps which part -/

theorem StateInv.withPort (h : StateInv s) (input : List HostEvent) (resp : Option Response) :
    StateInv { s with input := input, resp := resp } where
  counters := { h.counters with }
  memories := { h.memories with }
  padding := h.padding
  flags := { h.flags with }
  tree := h.tree
  table := h.table
  errors := { h.errors with }

theorem StateInv.errorEntry (h : StateInv s) {e : ErrCode} (he : e.flag &&& 0b000001101#9 = 0) (w : CommandWord) :
    StateInv (errorEntry e w s) where
  counters := { h.counters with }
  memories := { h.memories with }
  padding := h.padding
  flags := { h.flags with }
  tree := h.tree
  table := h.table
  errors := h.errors.errorEntry he w

theorem StateInv.resetState (h : StateInv s) : StateInv (resetState s) where
  counters := { params := h.counters.params, pk := Nat.zero_le _, upLen := Nat.zero_le _, upPos := Nat.zero_le _ }
  memories := { h.memories with }
  padding := paddingZero_of_empty rfl
  flags := flagsCoherent_of_invalid rfl rfl rfl rfl
  tree := treeIsOfPresentFt_of_invalid rfl
  table := tableIsOfPresentTree_of_invalid rfl
  errors := errorRecordCoherent_of_clear rfl rfl rfl rfl

/-- A write to the frequency table, the tree and the code table alone. -/
theorem StateInv.withTables (h : StateInv s)
    (hframe : u = { s with ft := u.ft, treeValid := u.treeValid, ctValid := u.ctValid, nleaf := u.nleaf,
                           nnode := u.nnode, root := u.root, nodes := u.nodes, ct := u.ct })
    (hflags : FlagsCoherent u) (htree : TreeIsOfPresentFt u) (htable : TableIsOfPresentTree u) : StateInv u where
  counters := by rw [hframe]; exact { h.counters with }
  memories := by rw [hframe]; exact { h.memories with }
  padding := by rw [hframe]; exact h.padding
  flags := hflags
  tree := htree
  table := htable
  errors := by rw [hframe]; exact { h.errors with }

/-- A write to the packer and the unpacker alone. -/
theorem StateInv.withStreams (h : StateInv s)
    (hframe : u = { s with pkBitcnt := u.pkBitcnt, pmem := u.pmem, upLen := u.upLen, upPos := u.upPos, umem := u.umem })
    (hcounters : CountersInBounds u) (hmemories : MemoriesCanonical u) (hpadding : PaddingZero u) : StateInv u where
  counters := hcounters
  memories := hmemories
  padding := hpadding
  flags := by rw [hframe]; exact { h.flags with }
  tree := by rw [hframe]; exact h.tree
  table := by rw [hframe]; exact h.table
  errors := by rw [hframe]; exact { h.errors with }

/-! ### The tables -/

theorem StateInv.invalidate (h : StateInv s) (ft : Vector Data 256) : StateInv (invalidate { s with ft := ft }) :=
  h.withTables rfl (flagsCoherent_of_invalid rfl rfl rfl rfl) (treeIsOfPresentFt_of_invalid rfl)
    (tableIsOfPresentTree_of_invalid rfl)

/-- The number of nodes of the finished tree, the place of its root and the bound of R37. -/
theorem buildTree_size (ft : Vector Data 256) :
    (buildTree ft).1.length = 2 * (presentSymbols ft).length - 1 ∧
    rootOf (buildTree ft).2 + 1 = (buildTree ft).1.length ∧ (buildTree ft).1.length ≤ Config.maxNode := by
  have harena := buildTree_arena ft
  have hcount := harena.count
  rw [List.length_singleton] at hcount
  have hle := presentSymbols_length_le ft
  unfold Config.maxNode
  exact ⟨by omega, harena.root_eq, by omega⟩

/-- What BUILD stores is the tree of FT: no index or count of it exceeds a data word. -/
theorem Success.treeIsOfPresentFt (h : Success .build s u) : TreeIsOfPresentFt u := by
  obtain ⟨_, hroot, hsize⟩ := buildTree_size s.ft
  have hleaves := presentSymbols_length_le s.ft
  unfold Config.maxNode at hsize
  subst h
  refine fun _ => ⟨rfl, ?_, ?_, ?_⟩ <;> simp only [BitVec.toNat_ofNat, leaves_length] <;>
    exact Nat.mod_eq_of_lt (by omega)

theorem StateInv.build (h : StateInv s) (hs : Success .build s u) : StateInv u := by
  have htree := hs.treeIsOfPresentFt
  subst hs
  exact h.withTables rfl ⟨fun hct => absurd hct Bool.false_ne_true, fun hnt => absurd hnt.symm Bool.false_ne_true⟩ htree
    (tableIsOfPresentTree_of_invalid rfl)

theorem StateInv.gencodes (h : StateInv s) (hs : Success .gencodes s u) : StateInv u := by
  obtain ⟨hvalid, ct, hct, rfl⟩ := hs
  exact h.withTables rfl ⟨fun _ => hvalid, h.flags.noTree⟩ h.tree fun _ => hct

/-! ### The streams -/

theorem StateInv.append (h : StateInv s) {c : Code} (hroom : s.pkBitcnt.toNat + c.length ≤ 8 * s.params.pbufBytes)
    (hu : pkAppendAll c s = .ok u) : StateInv u := by
  obtain ⟨t, ht, hframe, _, hpad, _, hcnt, _⟩ := pkAppendAll_ok c s h.counters.params h.memories.pmem h.padding hroom
  obtain rfl : u = t := by
    have := hu.symm.trans ht
    injection this
  have hpk : u.pkBitcnt.toNat ≤ 8 * s.params.pbufBytes := hcnt ▸ hroom
  refine h.withStreams (by rw [hframe]) ?_ (h.memories.append hu) hpad
  rw [hframe]
  exact { h.counters with pk := hpk }

/-- A write to the unpacker's position alone, inside the loaded stream. -/
theorem StateInv.withUpPos (h : StateInv s) {pos : Data} (hpos : pos.toNat ≤ 8 * s.upLen.toNat) :
    StateInv { s with upPos := pos } :=
  h.withStreams rfl { h.counters with upPos := hpos } { h.memories with } h.padding

theorem StateInv.loaded (h : StateInv s) (B : Byte) (hroom : s.upLen.toNat < s.params.ubufBytes) :
    StateInv (loaded B s) := by
  have hlen := loaded_upLen B h.counters.params hroom
  have hpos := h.counters.upPos
  refine h.withStreams rfl { h.counters with upLen := ?_, upPos := ?_ } (h.memories.loaded B hroom) h.padding
  · rw [hlen]; exact hroom
  · rw [hlen]; exact hpos.trans (by omega)

/-! ### Every success, every step -/

theorem StateInv.success (h : StateInv s) (hs : Success i s u) : StateInv u := by
  cases i with
  | nop | rdsr | rdfreq | rdnode | rdclen | rdcode | rdpk => exact hs ▸ h
  | reset => exact hs ▸ h.resetState
  | clrfreq => exact hs ▸ h.invalidate zeroFt
  | setfreq => obtain ⟨b, _, rfl⟩ := hs; exact h.invalidate _
  | build => exact h.build hs
  | gencodes => exact h.gencodes hs
  | pkreset =>
    subst hs
    exact h.withStreams rfl { h.counters with pk := Nat.zero_le _ } { h.memories with } (paddingZero_of_empty rfl)
  | pushbit =>
    obtain ⟨hne, _, hs⟩ := hs
    have hpk := h.counters.pk
    exact h.append (by rw [List.length_singleton]; omega) (pkAppendAll_singleton hs)
  | pushsym => obtain ⟨_, _, _, _, hroom, hs⟩ := hs; exact h.append hroom hs
  | upreset =>
    subst hs
    exact h.withStreams rfl { h.counters with upLen := Nat.zero_le _, upPos := Nat.zero_le _ } { h.memories with }
      h.padding
  | upbyte => obtain ⟨_, hroom, rfl⟩ := hs; exact h.loaded _ hroom
  | uprewind => exact hs ▸ h.withUpPos (Nat.zero_le _)
  | nextbit =>
    obtain ⟨hlt, rfl⟩ := hs
    refine h.withUpPos ?_
    rw [BitVec.toNat_ofNat]
    exact (Nat.mod_le _ _).trans hlt

theorem StateInv.exec (h : StateInv s) (hexec : exec i s = .next t) : StateInv t := by
  rcases exec_cases hexec with ⟨e, he, rfl⟩ | ⟨v, u, rfl, hs⟩
  · exact h.errorEntry (flag_of_raisedBy he) _
  · exact (h.success hs).withPort _ _

/-- Settles O44: waiting changes nothing, and a hard reset, an illegal word and a command each keep the invariant. -/
theorem everyStepKeepsTheInvariant : Obligations.EveryStepKeepsTheInvariant := by
  intro s t h hstep
  rcases step_cases hstep with ⟨_, rfl⟩ | ⟨rest, _, rfl⟩ | ⟨w, rest, e, _, _, rfl⟩ | ⟨w, rest, i, _, _, hexec⟩
  · exact h
  · exact (h.withPort rest s.resp).resetState.withPort _ _
  · exact (h.withPort rest s.resp).errorEntry (by decide) w
  · exact (h.withPort rest s.resp).exec hexec

end

end Sys2Proof.Machine
end

section
/-! What BUILD stores: the finished arena of FT (`Arena`), read as the shape of the tree (R130) and as the order of the
merges (R124). -/

namespace Sys2Proof.Machine

section
variable {s t : State} {ft : Vector Data 256} {nodes : List Node} {q : List Nat}

/-- BUILD stores a valid tree of the FT it read, which it leaves unchanged. -/
theorem exec_build_tree (h : exec .build s = .next t) : TreeIsOfPresentFt t ∧ t.treeValid = true ∧ t.ft = s.ft := by
  rcases exec_cases h with ⟨_, he, _⟩ | ⟨_, u, rfl, hs⟩
  · exact absurd he List.not_mem_nil
  · refine ⟨hs.treeIsOfPresentFt, ?_⟩
    subst hs
    exact ⟨rfl, rfl⟩

theorem exec_build_arena (h : exec .build s = .next t) : Arena s.ft t.nodes [t.root.toNat] := by
  obtain ⟨htree, hv, hft⟩ := exec_build_tree h
  exact hft ▸ htree.arena hv

/-! ### The leaves -/

theorem Arena.leaf_lt (h : Arena ft nodes q) {j : Nat} {n : SymbolId} (hl : IsLeaf nodes j n) :
    j < (presentSymbols ft).length :=
  (List.getElem?_eq_some_iff.mp (h.isLeaf_iff.mp hl)).1

theorem Arena.leaf_iff_ne_zero (h : Arena ft nodes q) {n : SymbolId} :
    (∃ j, j < (presentSymbols ft).length ∧ IsLeaf nodes j n) ↔ ftAt ft n ≠ 0 := by
  constructor
  · rintro ⟨_, _, hl⟩
    exact h.ne_zero_of_leaf hl
  · intro hn
    obtain ⟨j, hl⟩ := h.exists_leaf hn
    exact ⟨j, h.leaf_lt hl, hl⟩

/-- R125: the leaves' symbols ascend with the index. -/
theorem Arena.leaf_symbols_sorted (h : Arena ft nodes q) {j k : Nat} {m n : SymbolId} (hjk : j < k)
    (hj : IsLeaf nodes j m) (hk : IsLeaf nodes k n) : m < n := by
  obtain ⟨hjlt, rfl⟩ := List.getElem?_eq_some_iff.mp (h.isLeaf_iff.mp hj)
  obtain ⟨hklt, rfl⟩ := List.getElem?_eq_some_iff.mp (h.isLeaf_iff.mp hk)
  exact List.pairwise_iff_getElem.mp (presentSymbols_sorted ft) j k hjlt hklt hjk

/-- R125: a leaf's frequency is its symbol's count. -/
theorem Arena.leaf_freq (h : Arena ft nodes q) {j : Nat} (hj : j < (presentSymbols ft).length) :
    ∃ n, IsLeaf nodes j n ∧ freqAt nodes j = (ftAt ft n).toNat := by
  obtain ⟨nd, hnd, hbody, hfreq⟩ := h.leaf j _ (List.getElem?_eq_getElem hj)
  refine ⟨_, ⟨nd, hnd, hbody⟩, ?_⟩
  rw [freqAt_of_getElem? hnd, hfreq]
  exact BitVec.toNat_setWidth_of_le (by decide)

/-! ### The links and the root -/

variable {root : Nat}

/-- Every node but the root has a parent, and a later one (R130). -/
theorem Arena.exists_parent (h : Arena ft nodes [root]) {j : Nat} (hj : j < root) :
    ∃ p, parentAt nodes j = some p ∧ j < p ∧ p < nodes.length := by
  have hlen := h.root_eq
  cases hp : parentAt nodes j with
  | none => exact absurd ((h.parent_eq_none_iff (by omega)).mp hp) (Nat.ne_of_lt hj)
  | some p =>
    obtain ⟨hjp, hpl, _⟩ := h.child j p hp
    exact ⟨p, rfl, hjp, hpl⟩

/-- Symbols of zero count add nothing to a sum of counts. -/
theorem sum_filter_ftAt (ft : Vector Data 256) (l : List SymbolId) :
    ((l.filter fun n => ftAt ft n != 0).map fun n => (ftAt ft n).toNat).sum =
      (l.map fun n => (ftAt ft n).toNat).sum := by
  induction l with
  | nil => rfl
  | cons n l ih =>
    by_cases h : ftAt ft n = 0
    · rw [List.filter_cons_of_neg (by simp [h]), ih, List.map_cons, List.sum_cons, h]
      simp
    · rw [List.filter_cons_of_pos (by simpa using h), List.map_cons, List.sum_cons, ih, List.map_cons, List.sum_cons]

/-- The sentinel's count is the 1 of R130's sum. -/
theorem sum_presentSymbols (ft : Vector Data 256) : ((presentSymbols ft).map fun n => (ftAt ft n).toNat).sum =
    1 + ((List.finRange 256).map fun b => (ftAt ft b.castSucc).toNat).sum := by
  have hsplit : List.finRange 257 = (List.finRange 256).map Fin.castSucc ++ [Config.eos] := List.finRange_succ_last
  rw [presentSymbols, sum_filter_ftAt, hsplit, List.map_append, List.sum_append, List.map_map, Nat.add_comm]
  rfl

theorem Arena.root_freq (h : Arena ft nodes [root]) :
    freqAt nodes root = 1 + ((List.finRange 256).map fun b => (ftAt ft b.castSucc).toNat).sum := by
  rw [← sum_presentSymbols, ← h.total, List.map_singleton, List.sum_singleton]

/-- Settles O23: the counts of the nodes are those of the finished arena, and each of its parts is a clause of R130. -/
theorem buildMakesATreeOfTheTable : Obligations.BuildMakesATreeOfTheTable := by
  intro s t h
  obtain ⟨htree, hv, hft⟩ := exec_build_tree h
  have ha := exec_build_arena h
  have hleaf : t.nleaf.toNat = (presentSymbols s.ft).length := hft ▸ htree.nleaf_eq hv
  obtain ⟨_, _, _, hnode⟩ := htree hv
  have hroot := ha.root_eq
  have hcount := ha.count
  rw [List.length_singleton] at hcount
  have hpos := presentSymbols_length_pos s.ft
  have hle := presentSymbols_length_le s.ft
  rw [hnode, hleaf]
  refine ⟨hpos, hle, by omega, rfl, by omega, fun n => ha.leaf_iff_ne_zero,
    fun j k m n hjk _ hj hk => ha.leaf_symbols_sorted hjk hj hk, fun j hj => ha.leaf_freq hj, ha.internal,
    fun j hj => ha.exists_parent (by omega), ?_, ha.root_freq⟩
  exact (ha.parent_eq_none_iff (ha.inside _ (List.mem_singleton_self _))).mpr rfl

/-- Settles O24: the merges' order is a part of the arena's invariant. -/
theorem buildMergesTheTwoThatPopFirst : Obligations.BuildMergesTheTwoThatPopFirst := fun _ _ k l r h hi =>
  (exec_build_arena h).first k l r hi

end

end Sys2Proof.Machine
end

section
/-! Two states the same to the host (U3): what a command checks, reads and writes is the same in both, so it goes the
same way in both and leaves states the same to the host. -/

namespace Sys2Proof.Machine

section
variable {s t u v : State}

/-! ### What the two states share -/

theorem SameToHost.srRead_eq (h : SameToHost s t) (n : Nat) : s.srRead n = t.srRead n := by
  simp only [State.srRead, statusWord, errAny, upExhausted, State.pkByteLen, h.params, h.treeValid, h.ctValid, h.nleaf,
    h.nnode, h.root, h.pkBitcnt, h.upLen, h.upPos, h.errflags, h.lasterr, h.ecmdLo, h.ecmdHi]

theorem SameToHost.ftRead_eq (h : SameToHost s t) (n : SymbolId) : s.ftRead n = t.ftRead n := by
  rw [Machine.ftRead_eq, Machine.ftRead_eq, h.ft]

theorem SameToHost.ctRead_eq (h : SameToHost s t) (hv : s.ctValid = true) (n : SymbolId) : s.ctRead n = t.ctRead n := by
  rw [State.ctRead, State.ctRead, h.ct hv]

theorem SameToHost.pkByteLen_eq (h : SameToHost s t) : s.pkByteLen = t.pkByteLen := by
  rw [State.pkByteLen, State.pkByteLen, h.pkBitcnt]

theorem SameToHost.pmemRead_eq (h : SameToHost s t) {a : Nat} (ha : a < s.pkByteLen) : s.pmemRead a = t.pmemRead a := by
  rw [State.pmemRead, State.pmemRead, h.params, h.pmem a ha]

theorem SameToHost.umemRead_eq (h : SameToHost s t) {a : Nat} (ha : a < s.upLen.toNat) :
    s.umemRead a = t.umemRead a := by
  rw [State.umemRead, State.umemRead, h.params, h.umem a ha]

/-! ### Writes that keep the two the same -/

theorem SameToHost.withPort (h : SameToHost s t) (input : List HostEvent) (resp : Option Response) :
    SameToHost { s with input := input, resp := resp } { t with input := input, resp := resp } :=
  { h with input := rfl, resp := rfl }

theorem SameToHost.errorEntry (h : SameToHost s t) (e : ErrCode) (w : CommandWord) :
    SameToHost (errorEntry e w s) (errorEntry e w t) :=
  { h with
    errflags := congrArg (· ||| e.flag) h.errflags
    lasterr := rfl
    ecmdLo := rfl
    ecmdHi := rfl
    resp := rfl }

/-- After a reset no tree, no table and no byte of a stream is observable (R232). -/
theorem SameToHost.resetState (h : SameToHost s t) : SameToHost (resetState s) (resetState t) :=
  { h with
    ft := rfl, treeValid := rfl, ctValid := rfl, nleaf := rfl, nnode := rfl, root := rfl
    nodes := fun hv => absurd hv Bool.false_ne_true
    ct := fun hv => absurd hv Bool.false_ne_true
    pkBitcnt := rfl
    pmem := fun a ha => absurd ha (by rw [pkByteLen_of_empty rfl]; exact Nat.not_lt_zero a)
    upLen := rfl
    upPos := rfl
    umem := fun a ha => absurd ha (Nat.not_lt_zero a)
    errflags := rfl, lasterr := rfl, ecmdLo := rfl, ecmdHi := rfl }

theorem SameToHost.invalidate (h : SameToHost s t) (ft : Vector Data 256) :
    SameToHost (invalidate { s with ft := ft }) (invalidate { t with ft := ft }) :=
  { h with
    ft := rfl, treeValid := rfl, ctValid := rfl, nleaf := rfl, nnode := rfl, root := rfl
    nodes := fun hv => absurd hv Bool.false_ne_true
    ct := fun hv => absurd hv Bool.false_ne_true }

/-- The bytes below PK_BYTELEN after an append are those below it before and the one it writes, whose other bits come
from below it too (R156). -/
theorem SameToHost.appended (h : SameToHost s t) (hs : Memory.wf s.pmem = true) (ht : Memory.wf t.pmem = true)
    (b : Bool) : SameToHost (appended b s) (appended b t) := by
  have hbyte : appendedByte b s = appendedByte b t := by
    unfold appendedByte
    rw [h.pkBitcnt]
    split
    · rfl
    · rw [h.pmem _ (by rw [h.pkByteLen_eq]; unfold streamAddr State.pkByteLen; omega)]
  refine { h with pkBitcnt := congrArg (fun k : Data => BitVec.ofNat 32 (k.toNat + 1)) h.pkBitcnt, pmem := ?_ }
  intro a ha
  rw [appended_read b hs, appended_read b ht, ← h.pkBitcnt, hbyte]
  split
  · rfl
  · next hne =>
    refine h.pmem a ?_
    have hcnt : (Machine.appended b s).pkBitcnt.toNat ≤ s.pkBitcnt.toNat + 1 := by
      simp only [Machine.appended, BitVec.toNat_ofNat]
      exact Nat.mod_le _ _
    unfold State.pkByteLen at ha ⊢
    unfold streamAddr at hne
    omega

theorem SameToHost.pkAppend (h : SameToHost s t) (hs : Memory.wf s.pmem = true) (ht : Memory.wf t.pmem = true)
    {b : Bool} (hu : pkAppend b s = .ok u) : ∃ v, pkAppend b t = .ok v ∧ SameToHost u v := by
  obtain ⟨rfl, haddr⟩ := pkAppend_eq hu
  refine ⟨_, pkAppend_ok b ?_, h.appended hs ht b⟩
  rw [← h.pkBitcnt, ← h.params]
  unfold streamAddr at haddr
  omega

theorem SameToHost.pkAppendAll : ∀ {c : Code} {s t : State}, SameToHost s t → Memory.wf s.pmem = true →
    Memory.wf t.pmem = true → pkAppendAll c s = .ok u → ∃ v, pkAppendAll c t = .ok v ∧ SameToHost u v
  | [], _, t, h, _, _, hu => by
    injection hu with hu
    exact ⟨t, rfl, hu ▸ h⟩
  | b :: c, s, t, h, hs, ht, hu => by
    rw [Machine.pkAppendAll] at hu
    cases hb : Machine.pkAppend b s with
    | error f => simp [hb] at hu
    | ok s₁ =>
      obtain ⟨t₁, ht₁, h₁⟩ := h.pkAppend hs ht hb
      obtain ⟨rfl, _⟩ := pkAppend_eq hb
      obtain ⟨rfl, _⟩ := pkAppend_eq ht₁
      simp only [hb] at hu
      simpa only [Machine.pkAppendAll, ht₁] using h₁.pkAppendAll (Memory.write_wf hs _ _) (Memory.write_wf ht _ _) hu

/-- The bytes below UP_LEN after a load are those below it before and the one loaded. -/
theorem SameToHost.loaded (h : SameToHost s t) (hs : Memory.wf s.umem = true) (ht : Memory.wf t.umem = true)
    (B : Byte) : SameToHost (loaded B s) (loaded B t) := by
  refine { h with upLen := congrArg (fun n : Data => BitVec.ofNat 32 (n.toNat + 1)) h.upLen, umem := ?_ }
  intro a ha
  rw [loaded_read B hs, loaded_read B ht, ← h.upLen]
  split
  · rfl
  · next hne =>
    have hlen : (Machine.loaded B s).upLen.toNat ≤ s.upLen.toNat + 1 := by
      simp only [Machine.loaded, BitVec.toNat_ofNat]
      exact Nat.mod_le _ _
    exact h.umem a (by omega)

/-! ### Outcomes -/

/-- If the first outcome is a next state, so is the second, and the two are the same to the host. -/
def SameNext (o p : Host.Outcome State Fault Refusal) : Prop :=
  ∀ s', o = .next s' → ∃ t', p = .next t' ∧ SameToHost s' t'

theorem SameNext.next (h : SameToHost u v) : SameNext (.next u) (.next v) := by
  rintro _ ⟨⟩
  exact ⟨v, rfl, h⟩

theorem SameNext.fault (f : Fault) (p : Host.Outcome State Fault Refusal) : SameNext (.fault f) p := by
  rintro _ ⟨⟩

theorem SameNext.ite {c d : Prop} [Decidable c] [Decidable d] {o o' p p' : Host.Outcome State Fault Refusal}
    (hcd : c ↔ d) (hpos : c → SameNext o o') (hneg : ¬ c → SameNext p p') :
    SameNext (if c then o else p) (if d then o' else p') := by
  by_cases hc : c
  · rw [if_pos hc, if_pos (hcd.mp hc)]
    exact hpos hc
  · rw [if_neg hc, if_neg (mt hcd.mpr hc)]
    exact hneg hc

theorem SameNext.orFault {r r' : Except Fault State} {k k' : State → Host.Outcome State Fault Refusal}
    (h : ∀ u, r = .ok u → ∃ v, r' = .ok v ∧ SameNext (k u) (k' v)) : SameNext (orFault r k) (orFault r' k') := by
  cases r with
  | error f => exact .fault f _
  | ok u =>
    obtain ⟨v, rfl, hk⟩ := h u rfl
    exact hk

theorem SameToHost.respond (h : SameToHost u v) (x : Data) : SameNext (respond x u) (respond x v) :=
  .next { h with resp := rfl }

theorem SameToHost.raise (h : SameToHost s t) (e : ErrCode) (i : Instr) : SameNext (raise e i s) (raise e i t) :=
  .next (h.errorEntry e _)

/-! ### The commands -/

theorem SameToHost.execRdsr (h : SameToHost s t) (i : BitVec 16) : SameNext (execRdsr i s) (execRdsr i t) := by
  unfold Machine.execRdsr
  rw [h.srRead_eq]
  cases t.srRead i.toNat with
  | none => exact h.raise _ _
  | some x => exact h.respond x

theorem SameToHost.execSetfreq (h : SameToHost s t) (i : BitVec 16) (d : BitVec 32) :
    SameNext (execSetfreq i d s) (execSetfreq i d t) := by
  unfold Machine.execSetfreq
  cases byteSymbolOf i with
  | none => exact h.raise _ _
  | some b =>
    unfold State.ftWrite
    rw [h.ft]
    exact (h.invalidate _).respond 0

theorem SameToHost.execRdfreq (h : SameToHost s t) (i : BitVec 16) : SameNext (execRdfreq i s) (execRdfreq i t) := by
  unfold Machine.execRdfreq
  cases symbolOf i with
  | none => exact h.raise _ _
  | some n =>
    dsimp only
    exact h.ftRead_eq n ▸ h.respond _

theorem SameToHost.execBuild (h : SameToHost s t) : SameNext (execBuild s) (execBuild t) := by
  unfold Machine.execBuild
  rw [h.ft]
  refine .ite Iff.rfl (fun _ => h.raise _ _) fun _ => SameToHost.respond ?_ 0
  exact { h with
    ft := rfl, root := rfl, nleaf := rfl, nnode := rfl, treeValid := rfl, ctValid := rfl
    nodes := fun _ => rfl
    ct := fun hv => absurd hv Bool.false_ne_true }

theorem SameToHost.execRdnode (h : SameToHost s t) (sel : BitVec 8) (i : BitVec 16) :
    SameNext (execRdnode sel i s) (execRdnode sel i t) := by
  unfold Machine.execRdnode
  refine .ite Iff.rfl (fun _ => h.raise _ _) fun _ => ?_
  refine .ite (by rw [h.treeValid]) (fun _ => h.raise _ _) fun hv => ?_
  refine .ite (by rw [h.nnode]) (fun _ => h.raise _ _) fun _ => ?_
  rw [h.nodes (eq_true_of_ne_false hv), h.root]
  cases t.nodes[i.toNat]? with
  | none => exact .fault _ _
  | some nd =>
    dsimp only
    cases nodeField sel.toNat nd (decide (i.toNat = t.root.toNat)) with
    | none => exact h.raise _ _
    | some x => exact h.respond x

theorem SameToHost.execGencodes (h : SameToHost s t) : SameNext (execGencodes s) (execGencodes t) := by
  unfold Machine.execGencodes
  refine .ite (by rw [h.treeValid]) (fun _ => h.raise _ _) fun hv => ?_
  have hgen : genCodes s.nodes s.root.toNat = genCodes t.nodes t.root.toNat := by
    rw [h.nodes (eq_true_of_ne_false hv), h.root]
  rw [hgen]
  cases genCodes t.nodes t.root.toNat with
  | error f => exact .fault _ _
  | ok ct =>
    refine SameToHost.respond ?_ 0
    exact { h with ct := fun _ => rfl, ctValid := rfl }

theorem SameToHost.execRdclen (h : SameToHost s t) (i : BitVec 16) : SameNext (execRdclen i s) (execRdclen i t) := by
  unfold Machine.execRdclen
  cases symbolOf i with
  | none => exact h.raise _ _
  | some n =>
    refine .ite (by rw [h.ctValid]) (fun _ => h.raise _ _) fun hv => ?_
    exact h.ctRead_eq (eq_true_of_ne_false hv) n ▸ h.respond _

theorem SameToHost.execRdcode (h : SameToHost s t) (sel : BitVec 8) (i : BitVec 16) :
    SameNext (execRdcode sel i s) (execRdcode sel i t) := by
  unfold Machine.execRdcode
  cases symbolOf i with
  | none => exact h.raise _ _
  | some n =>
    refine .ite Iff.rfl (fun _ => h.raise _ _) fun _ => ?_
    refine .ite (by rw [h.ctValid]) (fun _ => h.raise _ _) fun hv => ?_
    have hcode := h.ctRead_eq (eq_true_of_ne_false hv) n
    refine .ite (by rw [hcode]) (fun _ => h.raise _ _) fun _ => ?_
    exact hcode ▸ h.respond _

theorem SameToHost.execPkreset (h : SameToHost s t) : SameNext (execPkreset s) (execPkreset t) := by
  refine SameToHost.respond ?_ 0
  exact { h with
    pkBitcnt := rfl
    pmem := fun a ha => absurd ha (by rw [pkByteLen_of_empty rfl]; exact Nat.not_lt_zero a) }

theorem SameToHost.execPushbit (h : SameToHost s t) (hs : Memory.wf s.pmem = true) (ht : Memory.wf t.pmem = true)
    (d : BitVec 32) : SameNext (execPushbit d s) (execPushbit d t) := by
  unfold Machine.execPushbit
  refine .ite Iff.rfl (fun _ => h.raise _ _) fun _ => ?_
  refine .ite (by rw [h.pkBitcnt, h.params]) (fun _ => h.raise _ _) fun _ => .orFault fun u hu => ?_
  obtain ⟨v, hv, hsame⟩ := h.pkAppend hs ht hu
  exact ⟨v, hv, hsame.respond 0⟩

theorem SameToHost.execPushsym (h : SameToHost s t) (hs : Memory.wf s.pmem = true) (ht : Memory.wf t.pmem = true)
    (i : BitVec 16) : SameNext (execPushsym i s) (execPushsym i t) := by
  unfold Machine.execPushsym
  cases symbolOf i with
  | none => exact h.raise _ _
  | some n =>
    refine .ite (by rw [h.ctValid]) (fun _ => h.raise _ _) fun hv => ?_
    have hcode := h.ctRead_eq (eq_true_of_ne_false hv) n
    refine .ite (by rw [hcode]) (fun _ => h.raise _ _) fun _ => ?_
    refine .ite (by rw [hcode, h.pkBitcnt, h.params]) (fun _ => h.raise _ _) fun _ => .orFault fun u hu => ?_
    obtain ⟨v, hv, hsame⟩ := h.pkAppendAll hs ht hu
    exact ⟨v, hcode ▸ hv, hsame.respond 0⟩

theorem SameToHost.execRdpk (h : SameToHost s t) (d : BitVec 32) : SameNext (execRdpk d s) (execRdpk d t) := by
  unfold Machine.execRdpk
  refine .ite (by rw [h.pkByteLen_eq]) (fun _ => h.raise _ _) fun hlt => ?_
  rw [h.pmemRead_eq (Nat.lt_of_not_le hlt)]
  cases t.pmemRead d.toNat with
  | error f => exact .fault _ _
  | ok B => exact h.respond _

theorem SameToHost.execUpreset (h : SameToHost s t) : SameNext (execUpreset s) (execUpreset t) := by
  refine SameToHost.respond ?_ 0
  exact { h with upLen := rfl, upPos := rfl, umem := fun a ha => absurd ha (Nat.not_lt_zero a) }

theorem SameToHost.execUpbyte (h : SameToHost s t) (hs : Memory.wf s.umem = true) (ht : Memory.wf t.umem = true)
    (d : BitVec 32) : SameNext (execUpbyte d s) (execUpbyte d t) := by
  unfold Machine.execUpbyte
  refine .ite Iff.rfl (fun _ => h.raise _ _) fun _ => ?_
  refine .ite (by rw [h.upLen, h.params]) (fun _ => h.raise _ _) fun _ => ?_
  by_cases hroom : s.upLen.toNat < s.params.ubufBytes
  · rw [umemWrite_ok _ hroom, umemWrite_ok _ (h.params ▸ h.upLen ▸ hroom)]
    exact (h.loaded hs ht _).respond 0
  · rw [State.umemWrite, if_neg hroom]
    exact .fault _ _

theorem SameToHost.execUprewind (h : SameToHost s t) : SameNext (execUprewind s) (execUprewind t) := by
  refine SameToHost.respond ?_ 0
  exact { h with upPos := rfl }

theorem SameToHost.execNextbit (h : SameToHost s t) : SameNext (execNextbit s) (execNextbit t) := by
  unfold Machine.execNextbit
  refine .ite (by rw [h.upPos, h.upLen]) (fun _ => h.raise _ _) fun hlt => ?_
  rw [h.umemRead_eq (by unfold streamAddr; omega), h.upPos]
  cases t.umemRead (streamAddr t.upPos.toNat) with
  | error f => exact .fault _ _
  | ok B =>
    refine SameToHost.respond ?_ _
    exact { h with upPos := rfl }

theorem SameToHost.exec (h : SameToHost s t) (hs : MemoriesCanonical s) (ht : MemoriesCanonical t) (i : Instr) :
    SameNext (exec i s) (exec i t) := by
  cases i with
  | nop => exact h.respond 0
  | rdsr i => exact h.execRdsr i
  | reset => exact h.resetState.respond 0
  | clrfreq => exact (h.invalidate zeroFt).respond 0
  | setfreq i d => exact h.execSetfreq i d
  | rdfreq i => exact h.execRdfreq i
  | build => exact h.execBuild
  | rdnode sel i => exact h.execRdnode sel i
  | gencodes => exact h.execGencodes
  | rdclen i => exact h.execRdclen i
  | rdcode sel i => exact h.execRdcode sel i
  | pkreset => exact h.execPkreset
  | pushbit d => exact h.execPushbit hs.pmem ht.pmem d
  | pushsym i => exact h.execPushsym hs.pmem ht.pmem i
  | rdpk d => exact h.execRdpk d
  | upreset => exact h.execUpreset
  | upbyte d => exact h.execUpbyte hs.umem ht.umem d
  | uprewind => exact h.execUprewind
  | nextbit => exact h.execNextbit

/-- Settles O51: both states have the same event presented, and each kind of event keeps them the same. -/
theorem unobservableContentsNeverShow : Obligations.UnobservableContentsNeverShow := by
  intro s t hs ht h
  change SameNext (step s) (step t)
  have hport (rest : List HostEvent) : SameToHost { s with input := rest } { t with input := rest } :=
    { h with input := rfl }
  cases hin : s.input with
  | nil =>
    rw [step_idle hin, step_idle (h.input ▸ hin)]
    exact .next h
  | cons e rest =>
    have hin' : t.input = e :: rest := h.input ▸ hin
    cases e with
    | hardReset =>
      rw [step_hardReset hin, step_hardReset hin']
      exact .next { (hport rest).resetState with resp := rfl }
    | command w =>
      cases hd : decode w with
      | error why =>
        rw [step_illegal hin hd, step_illegal hin' hd]
        exact .next ((hport rest).errorEntry _ _)
      | ok i =>
        rw [step_decoded hin hd, step_decoded hin' hd]
        exact (hport rest).exec (hs.congr rfl rfl rfl) (ht.congr rfl rfl rfl) i

end

end Sys2Proof.Machine
end

section
/-! The port: a word presented is taken off it and executed (R71, R95), and NEXTBIT after NEXTBIT reads the stream in
the order of its bits (R60, R61, R160). -/

namespace Sys2Proof.Machine

/-- Settles O7: the first word on the port is the one decoded. -/
theorem stepRunsTheDecodedCommand : Obligations.StepRunsTheDecodedCommand := fun _ _ _ _ => step_decoded

/-- A command that succeeds gives `must` its data. What the host presents is taken off the port again, so the command
runs in the host's own state. -/
theorem must_of_exec {i : Instr} {s t : State} {v : Data} (hd : decode (encode i) = .ok i) (h : exec i s = .next t)
    (hr : t.resp = some { err := 0, rdata := v }) : must i s = .ok (v, t) := by
  have hstep : step (s.present (.command (encode i))) = .next t := (step_decoded rfl hd).trans h
  simp [must, issue, hstep, hr]

/-- The state after a NEXTBIT that succeeds (R164). -/
def afterNextbit (s : State) : State :=
  { s with
    upPos := BitVec.ofNat 32 (s.upPos.toNat + 1)
    resp := some { err := 0, rdata := bitData (umemBit s s.upPos.toNat) } }

section
variable {s : State} (hs : CountersInBounds s) (hlt : s.upPos.toNat < 8 * s.upLen.toNat)
include hs hlt

/-- UP_POS never wraps: the stream has at most 8 × 2^28 bits (R8, R165). -/
theorem afterNextbit_upPos : (afterNextbit s).upPos.toNat = s.upPos.toNat + 1 := by
  have hp := hs.params
  have hlen := hs.upLen
  simp only [Params.ok, Bool.and_eq_true, decide_eq_true_eq] at hp
  rw [afterNextbit, BitVec.toNat_ofNat]
  omega

theorem afterNextbit_countersInBounds : CountersInBounds (afterNextbit s) where
  params := hs.params
  pk := hs.pk
  upLen := hs.upLen
  upPos := (afterNextbit_upPos hs hlt).trans_le hlt

theorem remainingBits_afterNextbit : remainingBits s = umemBit s s.upPos.toNat :: remainingBits (afterNextbit s) := by
  rw [remainingBits_eq_cons s hlt, ← afterNextbit_upPos hs hlt]
  rfl

/-- With a bit left, the byte it stands in is one of those loaded, so the read does not fault. -/
theorem exec_nextbit_ok : exec .nextbit s = .next (afterNextbit s) := by
  have hlen := hs.upLen
  have haddr : streamAddr s.upPos.toNat < s.params.ubufBytes := by unfold streamAddr; omega
  simp only [exec, execNextbit, if_neg (Nat.not_le_of_lt hlt), umemRead_ok haddr]
  rfl

theorem must_nextbit_ok : must .nextbit s = .ok (bitData (umemBit s s.upPos.toNat), afterNextbit s) :=
  must_of_exec rfl (exec_nextbit_ok hs hlt) rfl

end

/-- Settles O43, by induction on the number of NEXTBITs: each returns the first of the bits that remain. -/
theorem nextbitsReadTheStreamInOrder : Obligations.NextbitsReadTheStreamInOrder := by
  intro n
  induction n with
  | zero => exact fun s _ _ => ⟨s, rfl, rfl⟩
  | succ n ih =>
    intro s hs hleft
    have hlt : s.upPos.toNat < 8 * s.upLen.toNat := by omega
    have hleft' : (afterNextbit s).upPos.toNat + n ≤ 8 * (afterNextbit s).upLen.toNat := by
      rw [afterNextbit_upPos hs hlt]
      exact (Nat.add_right_comm _ 1 n).trans_le hleft
    obtain ⟨t, hrun, hrest⟩ := ih _ (afterNextbit_countersInBounds hs hlt) hleft'
    rw [remainingBits_afterNextbit hs hlt]
    exact ⟨t, mustEach_cons_of (must_nextbit_ok hs hlt) hrun, hrest⟩

end Sys2Proof.Machine
end

section
/-! The encoding (R90 to R96): `encode` and `decode` are inverse to each other, and the table of masks and matches says
of a word what the decoder does. -/

namespace Sys2Proof

/-! ### Encoding and decoding -/

/-- Settles O2: the fields of an assembled word are those it was made of, and the unused ones are zero. -/
theorem encodedCommandDecodesToItself : Obligations.EncodedCommandDecodesToItself := by
  intro c
  cases c with
  | nop | reset | clrfreq | build | gencodes | pkreset | upreset | uprewind | nextbit => simp [encode, decode, formatZ]
  | rdsr | rdfreq | rdclen | pushsym => simp [encode, decode, formatI]
  | rdnode | rdcode => simp [encode, decode, formatSI]
  | setfreq => simp [encode, decode, formatID]
  | pushbit | rdpk | upbyte => simp [encode, decode, formatD]

section
variable {w : CommandWord} {c : Instr}

theorem assemble_eq {op s : BitVec 8} {i : BitVec 16} {d : BitVec 32} (hop : opField w = op) (hs : sField w = s)
    (hi : iField w = i) (hd : dField w = d) : assemble op s i d = w := by
  rw [← hop, ← hs, ← hi, ← hd, assemble_fields]

theorem encode_of_formatZ {j : Instr} (h : formatZ w j = .ok c) (hj : encode j = assemble (opField w) 0 0 0) :
    encode c = w := by
  obtain ⟨rfl, hs, hi, hd⟩ := formatZ_ok h
  exact hj.trans (assemble_eq rfl hs hi hd)

theorem encode_of_formatI {mk : BitVec 16 → Instr} (h : formatI w mk = .ok c)
    (hmk : ∀ i, encode (mk i) = assemble (opField w) 0 i 0) : encode c = w := by
  obtain ⟨rfl, hs, hd⟩ := formatI_ok h
  exact (hmk _).trans (assemble_eq rfl hs rfl hd)

theorem encode_of_formatSI {mk : BitVec 8 → BitVec 16 → Instr} (h : formatSI w mk = .ok c)
    (hmk : ∀ s i, encode (mk s i) = assemble (opField w) s i 0) : encode c = w := by
  obtain ⟨rfl, hd⟩ := formatSI_ok h
  exact (hmk _ _).trans (assemble_eq rfl rfl rfl hd)

theorem encode_of_formatID {mk : BitVec 16 → BitVec 32 → Instr} (h : formatID w mk = .ok c)
    (hmk : ∀ i d, encode (mk i d) = assemble (opField w) 0 i d) : encode c = w := by
  obtain ⟨rfl, hs⟩ := formatID_ok h
  exact (hmk _ _).trans (assemble_eq rfl hs rfl rfl)

theorem encode_of_formatD {mk : BitVec 32 → Instr} (h : formatD w mk = .ok c)
    (hmk : ∀ d, encode (mk d) = assemble (opField w) 0 0 d) : encode c = w := by
  obtain ⟨rfl, hs, hi⟩ := formatD_ok h
  exact (hmk _).trans (assemble_eq rfl hs hi rfl)

end

/-- Settles O3: the row of the opcode says which fields are operands, and the others were checked to be zero. -/
theorem decodedWordIsTheEncodingOfItsCommand : Obligations.DecodedWordIsTheEncodingOfItsCommand := by
  intro w c h
  unfold decode at h
  split at h
  case h_20 => cases h
  case h_1 | h_3 | h_4 | h_7 | h_9 | h_12 | h_16 | h_18 | h_19 =>
    rename_i hop
    exact encode_of_formatZ h (by rw [hop]; rfl)
  case h_2 | h_6 | h_10 | h_14 =>
    rename_i hop
    exact encode_of_formatI h (by rw [hop]; exact fun _ => rfl)
  case h_8 | h_11 =>
    rename_i hop
    exact encode_of_formatSI h (by rw [hop]; exact fun _ _ => rfl)
  case h_5 =>
    rename_i hop
    exact encode_of_formatID h (by rw [hop]; exact fun _ _ => rfl)
  case h_13 | h_15 | h_17 =>
    rename_i hop
    exact encode_of_formatD h (by rw [hop]; exact fun _ => rfl)

/-- Settles O1. -/
theorem specWordsDecodeToTheirCommands : Obligations.SpecWordsDecodeToTheirCommands :=
  ⟨rfl, rfl, rfl, rfl, rfl, rfl, rfl, rfl, rfl, rfl⟩

/-! ### The table of masks and matches -/

section
variable (v w : CommandWord)

@[simp] theorem opField_and : opField (v &&& w) = opField v &&& opField w := BitVec.extractLsb'_and
@[simp] theorem sField_and : sField (v &&& w) = sField v &&& sField w := BitVec.extractLsb'_and
@[simp] theorem iField_and : iField (v &&& w) = iField v &&& iField w := BitVec.extractLsb'_and
@[simp] theorem dField_and : dField (v &&& w) = dField v &&& dField w := BitVec.extractLsb'_and

/-- Two words are equal where their fields are. -/
theorem eq_iff_fields : v = w ↔
    opField v = opField w ∧ sField v = sField w ∧ iField v = iField w ∧ dField v = dField w := by
  constructor
  · rintro rfl
    exact ⟨rfl, rfl, rfl, rfl⟩
  · rintro ⟨hop, hs, hi, hd⟩
    exact (assemble_fields v).symm.trans (assemble_eq hop.symm hs.symm hi.symm hd.symm)

end

open Laws.UnusedFieldsZero

/-- The mask of a format (R96): ones at the opcode and at the fields that the format does not use. -/
def formatMask : Format → CommandWord
  | .z => 0xFFFFFFFFFFFFFFFF#64
  | .i => 0xFFFF0000FFFFFFFF#64
  | .si => 0xFF000000FFFFFFFF#64
  | .id => 0xFFFF000000000000#64
  | .d => 0xFFFFFFFF00000000#64

section
variable (f : Format)

@[simp] theorem opField_formatMask : opField (formatMask f) = BitVec.allOnes 8 := by cases f <;> decide
@[simp] theorem sField_formatMask : sField (formatMask f) = if (uses f).1 then 0 else BitVec.allOnes 8 := by
  cases f <;> decide
@[simp] theorem iField_formatMask : iField (formatMask f) = if (uses f).2.1 then 0 else BitVec.allOnes 16 := by
  cases f <;> decide
@[simp] theorem dField_formatMask : dField (formatMask f) = if (uses f).2.2 then 0 else BitVec.allOnes 32 := by
  cases f <;> decide

/-- A field under a mask of ones, if it is an unused one, or of zeros. -/
theorem and_mask_eq_zero_iff {n : Nat} (x : BitVec n) (used : Bool) :
    x &&& (if used then 0 else BitVec.allOnes n) = 0 ↔ (used = false → x = 0) := by
  cases used
  · rw [if_neg Bool.false_ne_true, BitVec.and_allOnes, forall_prop_of_true rfl]
  · simp

/-- What a word that matches a row is: the row's opcode, and zero in the fields its format does not use. -/
theorem and_formatMask_eq_iff {w : CommandWord} {op : BitVec 8} : w &&& formatMask f = assemble op 0 0 0 ↔
    opField w = op ∧ ((uses f).1 = false → sField w = 0) ∧ ((uses f).2.1 = false → iField w = 0) ∧
      ((uses f).2.2 = false → dField w = 0) := by
  rw [eq_iff_fields]
  simp only [opField_and, sField_and, iField_and, dField_and, opField_formatMask, sField_formatMask, iField_formatMask,
    dField_formatMask, opField_assemble, sField_assemble, iField_assemble, dField_assemble, BitVec.and_allOnes,
    and_mask_eq_zero_iff]

end

/-- The row of a command in the opcode table. -/
def rowOf (c : Instr) : String × CommandWord × CommandWord :=
  (c.mnemonic, formatMask (formatOf c), assemble (opField (encode c)) 0 0 0)

theorem unusedFieldsZero : ∀ c, Statement c
  | .nop => nop
  | .rdsr _ => rdsr _
  | .reset => reset
  | .clrfreq => clrfreq
  | .setfreq _ _ => setfreq _ _
  | .rdfreq _ => rdfreq _
  | .build => build
  | .rdnode _ _ => rdnode _ _
  | .gencodes => gencodes
  | .rdclen _ => rdclen _
  | .rdcode _ _ => rdcode _ _
  | .pkreset => pkreset
  | .pushbit _ => pushbit _
  | .pushsym _ => pushsym _
  | .rdpk _ => rdpk _
  | .upreset => upreset
  | .upbyte _ => upbyte _
  | .uprewind => uprewind
  | .nextbit => nextbit

/-- Each command's row stands in the table; operands are no part of it, so it is one of 19 fixed triples. -/
theorem rowOf_mem (c : Instr) : rowOf c ∈ maskMatchTable := by
  cases c <;> simp [rowOf, maskMatchTable, encode, formatOf, formatMask, Instr.mnemonic] <;> decide

/-- The table has no row but those of the commands. -/
theorem exists_rowOf_eq : ∀ row ∈ maskMatchTable, ∃ c, row = rowOf c := by
  have h : maskMatchTable = [.nop, .rdsr 0, .reset, .clrfreq, .setfreq 0 0, .rdfreq 0, .build, .rdnode 0 0, .gencodes,
      .rdclen 0, .rdcode 0 0, .pkreset, .pushbit 0, .pushsym 0, .rdpk 0, .upreset, .upbyte 0, .uprewind,
      .nextbit].map rowOf := by decide
  intro row hrow
  rw [h] at hrow
  obtain ⟨c, _, rfl⟩ := List.mem_map.mp hrow
  exact ⟨c, rfl⟩

theorem encode_matches_rowOf (c : Instr) : encode c &&& (rowOf c).2.1 = (rowOf c).2.2 :=
  (and_formatMask_eq_iff _).mpr ⟨rfl, unusedFieldsZero c⟩

/-- The same command with other operands. -/
def Instr.withOperands (s : BitVec 8) (i : BitVec 16) (d : BitVec 32) : Instr → Instr
  | .rdsr _ => .rdsr i
  | .setfreq _ _ => .setfreq i d
  | .rdfreq _ => .rdfreq i
  | .rdnode _ _ => .rdnode s i
  | .rdclen _ => .rdclen i
  | .rdcode _ _ => .rdcode s i
  | .pushbit _ => .pushbit d
  | .pushsym _ => .pushsym i
  | .rdpk _ => .rdpk d
  | .upbyte _ => .upbyte d
  | c => c

theorem Instr.mnemonic_withOperands (s : BitVec 8) (i : BitVec 16) (d : BitVec 32) (c : Instr) :
    (c.withOperands s i d).mnemonic = c.mnemonic := by
  cases c <;> rfl

/-- A word that matches a command's row is that command with the word's own fields as operands. -/
theorem encode_of_matches_rowOf {w : CommandWord} {c : Instr} (h : w &&& (rowOf c).2.1 = (rowOf c).2.2) :
    encode (c.withOperands (sField w) (iField w) (dField w)) = w := by
  obtain ⟨hop, hs, hi, hd⟩ := (and_formatMask_eq_iff _).mp h
  cases c with
  | nop | reset | clrfreq | build | gencodes | pkreset | upreset | uprewind | nextbit =>
    exact assemble_eq (by simpa [encode] using hop) (hs rfl) (hi rfl) (hd rfl)
  | rdsr | rdfreq | rdclen | pushsym => exact assemble_eq (by simpa [encode] using hop) (hs rfl) rfl (hd rfl)
  | rdnode | rdcode => exact assemble_eq (by simpa [encode] using hop) rfl rfl (hd rfl)
  | setfreq => exact assemble_eq (by simpa [encode] using hop) (hs rfl) rfl rfl
  | pushbit | rdpk | upbyte => exact assemble_eq (by simpa [encode] using hop) (hs rfl) (hi rfl) rfl

/-- Settles O4: the rows are those of the commands, a command's word matches its row, and a word that matches a row is
one of its command's. -/
theorem decoderFollowsMaskMatchTable : Obligations.DecoderFollowsMaskMatchTable := by
  refine ⟨fun w c h => ?_, fun w row hrow h => ?_⟩
  · obtain rfl := decodedWordIsTheEncodingOfItsCommand w c h
    exact ⟨rowOf c, rowOf_mem c, rfl, encode_matches_rowOf c⟩
  · obtain ⟨c, rfl⟩ := exists_rowOf_eq row hrow
    exact ⟨_, (congrArg decode (encode_of_matches_rowOf h)).symm.trans (encodedCommandDecodesToItself _),
      c.mnemonic_withOperands _ _ _⟩

end Sys2Proof

namespace Sys2Proof.Machine

/-- Settles O5: the decoder gives no command for such a word, since a command's word matches its row. -/
theorem illegalWordOnlyRecordsIllegalCmd : Obligations.IllegalWordOnlyRecordsIllegalCmd := by
  intro s w rest hin hno
  cases hd : decode w with
  | error why => exact step_illegal hin hd
  | ok c =>
    obtain ⟨row, hrow, _, hmatch⟩ := decoderFollowsMaskMatchTable.1 w c hd
    exact absurd hmatch (hno row hrow)

/-- Settles O6: `err` and the zeros are the two parts of the word above `rdata`. -/
theorem responseWordHoldsErrAndData : Obligations.ResponseWordHoldsErrAndData := fun _ =>
  ⟨(BitVec.extractLsb'_append_eq_of_le (by decide)).trans BitVec.extractLsb'_append_eq_left,
    (BitVec.extractLsb'_append_eq_of_le (by decide)).trans BitVec.extractLsb'_append_eq_right,
    BitVec.extractLsb'_append_eq_right⟩

end Sys2Proof.Machine
end

section
/-! Every command is answered (R93, R95, R241): it succeeds or records its error, and in a state of the invariant no
access of it faults. -/

namespace Sys2Proof.Machine

section
variable {i : Instr} {s t : State}

/-- Settles O11: the two cases of `exec_cases`, and of what a success writes only RESET's includes error registers. -/
theorem commandSucceedsOrOnlyRecordsItsError : Obligations.CommandSucceedsOrOnlyRecordsItsError := by
  intro i s t h
  rcases exec_cases h with ⟨e, _, rfl⟩ | ⟨v, u, rfl, hs⟩
  · exact .inr ⟨e, rfl⟩
  · exact .inl ⟨v, rfl, fun hi => hs.writesOnlyItsOwn.errors.resolve_right hi⟩

theorem exec_resp_isSome (h : exec i s = .next t) : t.resp.isSome = true := by
  rcases exec_cases h with ⟨_, _, rfl⟩ | ⟨_, _, rfl, _⟩ <;> rfl

/-! ### Where a meaning cannot fault -/

/-- A command's meaning gives a next state: it ends in no fault. -/
def Completes (o : Host.Outcome State Fault Refusal) : Prop := ∃ t, o = .next t

theorem Completes.respond (v : Data) (s : State) : Completes (respond v s) := ⟨_, rfl⟩

theorem Completes.raise (e : ErrCode) (i : Instr) (s : State) : Completes (raise e i s) := ⟨_, rfl⟩

theorem Completes.ite {c : Prop} [Decidable c] {o p : Host.Outcome State Fault Refusal} (ho : c → Completes o)
    (hp : ¬ c → Completes p) : Completes (if c then o else p) := by
  split
  · exact ho ‹_›
  · exact hp ‹_›

theorem pkByteLen_le (hs : CountersInBounds s) : s.pkByteLen ≤ s.params.pbufBytes := by
  have := hs.pk
  unfold State.pkByteLen
  omega

theorem pmemRead_ok {a : Nat} (h : a < s.params.pbufBytes) : s.pmemRead a = .ok (Memory.read s.pmem a) := by
  simp [State.pmemRead, h]

/-- Every byte that the packed stream reaches exists (R68). -/
theorem exec_rdpk_ok (hs : CountersInBounds s) {d : BitVec 32} (hd : d.toNat < s.pkByteLen) :
    exec (.rdpk d) s = respond ((Memory.read s.pmem d.toNat).zeroExtend 32) s := by
  simp only [exec, execRdpk, if_neg (Nat.not_le_of_lt hd), pmemRead_ok (hd.trans_le (pkByteLen_le hs))]

/-- A valid tree has a code table. -/
theorem TreeIsOfPresentFt.genCodes_ok (h : TreeIsOfPresentFt s) (hv : s.treeValid = true) :
    ∃ ct, genCodes s.nodes s.root.toNat = .ok ct := by
  obtain ⟨ct, hct, _⟩ := (h.arena hv).genCodes_spec
  exact ⟨ct, hct⟩

theorem exec_gencodes_ok (h : TreeIsOfPresentFt s) (hv : s.treeValid = true) :
    ∃ ct, exec .gencodes s = respond 0 { s with ct := ct, ctValid := true } := by
  obtain ⟨ct, hct⟩ := h.genCodes_ok hv
  exact ⟨ct, by simp [exec, execGencodes, hv, hct]⟩

theorem StateInv.execRdnode_completes (h : StateInv s) (sel : BitVec 8) (n : BitVec 16) :
    Completes (execRdnode sel n s) := by
  refine .ite (fun _ => .raise _ _ _) fun _ => .ite (fun _ => .raise _ _ _) fun hv =>
    .ite (fun _ => .raise _ _ _) fun hn => ?_
  obtain ⟨_, _, _, hnode⟩ := h.tree (by simpa using hv)
  rw [List.getElem?_eq_getElem (hnode ▸ Nat.lt_of_not_le hn)]
  simp only
  split
  · exact .raise _ _ _
  · exact .respond _ _

theorem StateInv.execGencodes_completes (h : StateInv s) : Completes (execGencodes s) := by
  by_cases hv : s.treeValid = true
  · obtain ⟨ct, hct⟩ := exec_gencodes_ok h.tree hv
    exact ⟨_, hct⟩
  · exact ⟨_, if_pos (by simpa using hv)⟩

theorem StateInv.execPushbit_completes (h : StateInv s) (d : BitVec 32) : Completes (execPushbit d s) := by
  refine .ite (fun _ => .raise _ _ _) fun _ => .ite (fun _ => .raise _ _ _) fun hne => ?_
  rw [pkAppend_ok _ (lt_of_le_of_ne h.counters.pk hne)]
  exact .respond _ _

/-- A whole code that fits is appended without a fault. -/
theorem StateInv.pkAppendAll_ok (h : StateInv s) {c : Code}
    (hroom : s.pkBitcnt.toNat + c.length ≤ 8 * s.params.pbufBytes) :
    ∃ t, pkAppendAll c s = .ok t ∧ packedBits t = packedBits s ++ c := by
  obtain ⟨t, ht, _, hbits, _⟩ := Machine.pkAppendAll_ok c s h.counters.params h.memories.pmem h.padding hroom
  exact ⟨t, ht, hbits⟩

theorem StateInv.execPushsym_completes (h : StateInv s) (n : BitVec 16) : Completes (execPushsym n s) := by
  unfold execPushsym
  split
  · exact .raise _ _ _
  refine .ite (fun _ => .raise _ _ _) fun _ => .ite (fun _ => .raise _ _ _) fun _ =>
    .ite (fun _ => .raise _ _ _) fun hroom => ?_
  obtain ⟨t, ht, _⟩ := h.pkAppendAll_ok (Nat.le_of_not_lt hroom)
  rw [ht]
  exact .respond _ _

theorem StateInv.execRdpk_completes (h : StateInv s) (d : BitVec 32) : Completes (execRdpk d s) := by
  by_cases hd : d.toNat < s.pkByteLen
  · exact ⟨_, exec_rdpk_ok h.counters hd⟩
  · exact ⟨_, if_pos (Nat.le_of_not_lt hd)⟩

theorem StateInv.execUpbyte_completes (h : StateInv s) (d : BitVec 32) : Completes (execUpbyte d s) := by
  refine .ite (fun _ => .raise _ _ _) fun _ => .ite (fun _ => .raise _ _ _) fun hne => ?_
  rw [umemWrite_ok _ (lt_of_le_of_ne h.counters.upLen hne)]
  exact .respond _ _

theorem StateInv.execNextbit_completes (h : StateInv s) : Completes (execNextbit s) := by
  by_cases hlt : s.upPos.toNat < 8 * s.upLen.toNat
  · exact ⟨_, exec_nextbit_ok h.counters hlt⟩
  · exact ⟨_, if_pos (Nat.le_of_not_lt hlt)⟩

/-- In a state of the invariant every command gives a next state. -/
theorem StateInv.exec_completes (h : StateInv s) (i : Instr) : Completes (Machine.exec i s) := by
  cases i with
  | nop | reset | clrfreq | pkreset | upreset | uprewind => exact .respond _ _
  | rdsr | setfreq | rdfreq =>
    simp only [Machine.exec, execRdsr, execSetfreq, execRdfreq]
    split
    · exact .raise _ _ _
    · exact .respond _ _
  | build => exact .ite (fun _ => .raise _ _ _) fun _ => .respond _ _
  | rdnode sel n => exact h.execRdnode_completes sel n
  | gencodes => exact h.execGencodes_completes
  | rdclen =>
    simp only [Machine.exec, execRdclen]
    split
    · exact .raise _ _ _
    · exact .ite (fun _ => .raise _ _ _) fun _ => .respond _ _
  | rdcode =>
    simp only [Machine.exec, execRdcode]
    split
    · exact .raise _ _ _
    · exact .ite (fun _ => .raise _ _ _) fun _ => .ite (fun _ => .raise _ _ _) fun _ =>
        .ite (fun _ => .raise _ _ _) fun _ => .respond _ _
  | pushbit d => exact h.execPushbit_completes d
  | pushsym n => exact h.execPushsym_completes n
  | rdpk d => exact h.execRdpk_completes d
  | upbyte d => exact h.execUpbyte_completes d
  | nextbit => exact h.execNextbit_completes

/-- Settles O46: a word is answered by E_ILLEGAL_CMD or by its command, which completes. -/
theorem everyStepCompletes : Obligations.EveryStepCompletes := by
  intro s h
  cases hin : s.input with
  | nil => exact ⟨s, step_idle hin, fun _ _ hw => nomatch hw⟩
  | cons e rest =>
    cases e with
    | hardReset => exact ⟨_, step_hardReset hin, fun _ _ hw => nomatch hw⟩
    | command w =>
      cases hd : decode w with
      | error why => exact ⟨_, step_illegal hin hd, fun _ _ _ => rfl⟩
      | ok i =>
        obtain ⟨t, ht⟩ := (h.withPort rest s.resp).exec_completes i
        exact ⟨t, (step_decoded hin hd).trans ht, fun _ _ _ => exec_resp_isSome ht⟩

/-! ### The packed bytes -/

/-- Up to the end of the last byte the packed stream is followed by zeros (R155). -/
theorem pmemBit_eq_getD (hpad : PaddingZero s) {k : Nat} (hk : k < 8 * s.pkByteLen) :
    pmemBit s k = (packedBits s).getD k false := by
  by_cases hlt : k < s.pkBitcnt.toNat
  · simp [packedBits, hlt]
  · rw [hpad k (Nat.le_of_not_lt hlt) hk, List.getD_eq_default _ _ (by simpa using hlt)]

theorem pmemBit_byte (s : State) (a : Nat) {j : Nat} (hj : j < 8) :
    pmemBit s (8 * a + j) = bitOf (Memory.read s.pmem a) (7 - j) := by
  unfold pmemBit streamAddr streamPos
  rw [show (8 * a + j) / 8 = a by omega, show (8 * a + j) % 8 = j by omega]

/-- Settles O38: RDPK gives the byte in which the eight bits stand. -/
theorem packedBytesAreTheZeroPaddedStream : Obligations.PackedBytesAreTheZeroPaddedStream := by
  intro s t d r j hs hpad h hr herr hj
  by_cases hd : d.toNat < s.pkByteLen
  · rw [exec_rdpk_ok hs hd] at h
    injection h with h
    subst h
    obtain rfl := Option.some.inj hr
    rw [← pmemBit_eq_getD hpad (by omega), pmemBit_byte s _ hj, bitOf_eq]
    simp [show 7 - j < 32 by omega]
  · have hbad : exec (.rdpk d) s = raise .badOperand (.rdpk d) s := if_pos (Nat.le_of_not_lt hd)
    rw [hbad] at h
    injection h with h
    subst h
    obtain rfl := Option.some.inj hr
    exact absurd herr ErrCode.badOperand.code_ne_zero

end

end Sys2Proof.Machine
end

section
/-! The host's commands (R180): what `must` and `mustEach` give for a command that succeeds, that only reads, or that
ends with an error. -/

namespace Sys2Proof.Machine

section
variable {i : Instr} {s t : State}

/-- A command that succeeds gives `must` its data. -/
theorem must_ok {v : Data} {u : State} (h : exec i s = respond v u) :
    must i s = .ok (v, { u with resp := some { err := 0, rdata := v } }) :=
  must_of_exec (encodedCommandDecodesToItself i) h rfl

/-- A command that ends with an error has the host abandon the sequence with its code. -/
theorem must_error {e : ErrCode} (h : exec i s = raise e i s) : must i s = .error (abandonWith e) := by
  have hstep : step (s.present (.command (encode i))) = .next (errorEntry e (encode i) s) :=
    (step_decoded rfl (encodedCommandDecodesToItself i)).trans h
  simp only [must, issue, hstep, errorEntry_resp, Option.map_some, if_neg e.code_ne_zero, abandonWith]

theorem mustEach_cons_error {is : List Instr} {a : Abandon} (h : must i s = .error a) :
    mustEach (i :: is) s = .error a := by
  rw [mustEach_cons, h]

/-- Commands that only read give the data of each, and leave the state but for the response. -/
theorem mustEach_reads {α : Type} (command : α → Instr) (data : α → Data) (l : List α)
    (h : ∀ a ∈ l, ∀ r, exec (command a) { s with resp := r } = respond (data a) { s with resp := r })
    (r : Option Response) :
    ∃ r', mustEach (l.map command) { s with resp := r } = .ok (l.map data, { s with resp := r' }) := by
  induction l generalizing r with
  | nil => exact ⟨r, rfl⟩
  | cons a l ih =>
    obtain ⟨r', hrest⟩ := ih (fun b hb => h b (List.mem_cons_of_mem a hb)) (some { err := 0, rdata := data a })
    exact ⟨r', mustEach_cons_of (must_ok (h a List.mem_cons_self r)) hrest⟩

end

/-! ### HISTLOAD -/

/-- HISTLOAD's command for a byte value: a SETFREQ where the value occurs. -/
def countCommand (B : List Byte) (v : Nat) : Option Instr :=
  if histogram B v = 0 then none else some (.setfreq (BitVec.ofNat 16 v) (BitVec.ofNat 32 (histogram B v)))

theorem histCommands_eq (B : List Byte) :
    histCommands B = .clrfreq :: (List.range 256).filterMap (countCommand B) := rfl

/-- FT after HISTLOAD's commands for the byte values of a list. -/
def countsSet (B : List Byte) : List Nat → Vector Data 256 → Vector Data 256
  | [], ft => ft
  | v :: l, ft =>
    countsSet B l (if histogram B v = 0 then ft else ft.setIfInBounds v (BitVec.ofNat 32 (histogram B v)))

theorem countsSet_getElem (B : List Byte) (w : Nat) (hw : w < 256) : ∀ (l : List Nat) (ft : Vector Data 256),
    (countsSet B l ft)[w] =
      if w ∈ l ∧ histogram B w ≠ 0 then BitVec.ofNat 32 (histogram B w) else ft[w]
  | [], ft => by simp [countsSet]
  | v :: l, ft => by
    rw [countsSet, countsSet_getElem B w hw l]
    by_cases hv : w = v
    · subst hv
      by_cases h0 : histogram B w = 0 <;> simp [h0]
    · by_cases h0 : histogram B v = 0 <;> simp [h0, hv, Ne.symm hv]

theorem set_eq_setIfInBounds (ft : Vector Data 256) {v : Nat} (hv : v < 256) (d : Data) :
    ft.set v d hv = ft.setIfInBounds v d := by
  refine Vector.ext fun w hw => ?_
  rw [Vector.getElem_set, Vector.getElem_setIfInBounds]

/-- The state with a new FT, and so without a tree and a code table (R45). -/
def withCounts (ft : Vector Data 256) (r : Option Response) (s : State) : State :=
  { invalidate { s with ft := ft } with resp := r }

@[simp] theorem withCounts_ft (ft : Vector Data 256) (r : Option Response) (s : State) :
    (withCounts ft r s).ft = ft := rfl
@[simp] theorem withCounts_params (ft : Vector Data 256) (r : Option Response) (s : State) :
    (withCounts ft r s).params = s.params := rfl

theorem must_clrfreq (s : State) : must .clrfreq s = .ok (0, withCounts zeroFt (some { err := 0, rdata := 0 }) s) :=
  must_ok rfl

theorem must_setfreq {v : Nat} (hv : v < 256) (d : Data) (ft : Vector Data 256) (r : Option Response) (s : State) :
    must (.setfreq (BitVec.ofNat 16 v) d) (withCounts ft r s) =
      .ok (0, withCounts (ft.set v d hv) (some { err := 0, rdata := 0 }) s) := by
  have hnat : (BitVec.ofNat 16 v).toNat = v := by rw [BitVec.toNat_ofNat]; omega
  have hsym : byteSymbolOf (BitVec.ofNat 16 v) = some ⟨v, hv⟩ := by
    rw [byteSymbolOf_eq_some (hnat.trans_lt hv)]
    simp only [hnat]
  have hexec : exec (.setfreq (BitVec.ofNat 16 v) d) (withCounts ft r s) =
      respond 0 (invalidate ((withCounts ft r s).ftWrite ⟨v, hv⟩ d)) := by
    simp only [exec, execSetfreq, hsym]
  exact must_ok hexec

/-- The SETFREQs of HISTLOAD write the counts of their byte values and nothing else. -/
theorem mustEach_countCommands (B : List Byte) (s : State) (l : List Nat) (hl : ∀ v ∈ l, v < 256)
    (ft : Vector Data 256) (r : Option Response) : ∃ xs r',
      mustEach (l.filterMap (countCommand B)) (withCounts ft r s) = .ok (xs, withCounts (countsSet B l ft) r' s) := by
  induction l generalizing ft r with
  | nil => exact ⟨[], r, rfl⟩
  | cons v l ih =>
    have hv : v < 256 := hl v List.mem_cons_self
    have hl' : ∀ w ∈ l, w < 256 := fun w hw => hl w (List.mem_cons_of_mem v hw)
    by_cases h0 : histogram B v = 0
    · have hnone : countCommand B v = none := if_pos h0
      rw [List.filterMap_cons_none hnone, countsSet, if_pos h0]
      exact ih hl' ft r
    · have hsome : countCommand B v = some _ := if_neg h0
      rw [List.filterMap_cons_some hsome, countsSet, if_neg h0, ← set_eq_setIfInBounds ft hv]
      obtain ⟨xs, r', hrest⟩ := ih hl' _ _
      exact ⟨_, r', mustEach_cons_of (must_setfreq hv _ ft r s) hrest⟩

theorem countsSet_all (B : List Byte) : countsSet B (List.range 256) zeroFt = histogramTable B := by
  refine Vector.ext fun v hv => ?_
  rw [countsSet_getElem B v hv]
  by_cases h : histogram B v = 0 <;> simp [histogramTable, zeroFt, h, hv]

/-- R182: where every count fits 32 bits, HISTLOAD writes the counts and invalidates both tables. -/
theorem histLoad_ok {B : List Byte} (hB : ∀ v : Byte, B.count v < 2 ^ 32) (s : State) :
    ∃ r, histLoad B s = .ok (withCounts (histogramTable B) r s) := by
  obtain ⟨xs, r, hrest⟩ := mustEach_countCommands B s (List.range 256) (fun _ => List.mem_range.mp) zeroFt
    (some { err := 0, rdata := 0 })
  have hrun : mustEach (histCommands B) s = .ok (0 :: xs, withCounts (histogramTable B) r s) := by
    rw [histCommands_eq, mustEach_cons_of (must_clrfreq s) hrest, countsSet_all]
  exact ⟨r, by rw [histLoad, histPlan_ok hB]; simp only [hrun]⟩

/-- R182: a count that does not fit is refused before a command is issued. -/
theorem histPlan_error {B : List Byte} {v : Byte} (h : 2 ^ 32 ≤ B.count v) :
    histPlan B = .error (abandonWith .capacity) := by
  unfold histPlan
  rw [if_pos]
  simp only [List.any_eq_true, List.mem_range, decide_eq_true_eq]
  exact ⟨v.toNat, v.isLt, (histogram_toNat B v).symm ▸ h⟩

theorem histLoad_error {B : List Byte} {v : Byte} (h : 2 ^ 32 ≤ B.count v) (s : State) :
    histLoad B s = .error (abandonWith .capacity) := by
  simp only [histLoad, histPlan_error h]

end Sys2Proof.Machine
end

section
/-! COMPRESS in the block (R182 to R184): BUILD and GENCODES make the code table of the counts, each PUSHSYM appends its
symbol's code, GETTABLE reads the table out and the RDPKs the packed bytes. -/

namespace Sys2Proof.Machine

/-! ### Packing -/

/-- A state of the invariant, with parameters `p`, whose code table is that of the frequency table `ft`. -/
structure ReadyToPack (ft : Vector Data 256) (p : Params) (s : State) : Prop where
  inv : StateInv s
  ctValid : s.ctValid = true
  ft : s.ft = ft
  params : s.params = p

section
variable {ft : Vector Data 256} {p : Params} {s t : State}

theorem ReadyToPack.ctRead_eq (h : ReadyToPack ft p s) (n : SymbolId) : s.ctRead n = codeFor ft n := by
  rw [ctRead_eq_codeFor h.inv h.ctValid, h.ft]

theorem StateInv.must_build (h : StateInv s) : ∃ t, must .build s = .ok (0, t) ∧ StateInv t ∧ t.treeValid = true ∧
    t.ft = s.ft ∧ t.params = s.params := by
  have hexec : Machine.exec .build s = respond 0 _ := if_neg (by simp [leaves])
  obtain ⟨_, hv, hft⟩ := exec_build_tree hexec
  exact ⟨_, must_ok hexec, h.exec hexec, hv, hft, rfl⟩

theorem StateInv.must_gencodes (h : StateInv s) (hv : s.treeValid = true) : ∃ t, must .gencodes s = .ok (0, t) ∧
    ReadyToPack s.ft s.params t := by
  obtain ⟨ct, hexec⟩ := exec_gencodes_ok h.tree hv
  exact ⟨_, must_ok hexec, h.exec hexec, rfl, rfl, rfl⟩

theorem ReadyToPack.must_pkreset (h : ReadyToPack ft p s) : ∃ t, must .pkreset s = .ok (0, t) ∧ ReadyToPack ft p t ∧
    packedBits t = [] := by
  have hexec : exec .pkreset s = respond 0 { s with pkBitcnt := 0 } := rfl
  exact ⟨_, must_ok hexec, ⟨h.inv.exec hexec, h.ctValid, h.ft, h.params⟩, rfl⟩

/-- BUILD, GENCODES and PKRESET leave the code table of the present counts and an empty packer. -/
theorem StateInv.mustEach_prepare (h : StateInv s) : ∃ xs t, mustEach [.build, .gencodes, .pkreset] s = .ok (xs, t) ∧
    ReadyToPack s.ft s.params t ∧ packedBits t = [] := by
  obtain ⟨s1, hbuild, h1, hv, hft, hparams⟩ := h.must_build
  obtain ⟨s2, hgen, h2⟩ := h1.must_gencodes hv
  obtain ⟨s3, hreset, h3, hempty⟩ := h2.must_pkreset
  rw [hft, hparams] at h3
  exact ⟨_, s3, mustEach_cons_of hbuild (mustEach_cons_of hgen (mustEach_cons_of hreset rfl)), h3, hempty⟩

/-- COMPRESS's command for a symbol. -/
def pushCommand (n : SymbolId) : Instr := .pushsym (BitVec.ofNat 16 n.val)

theorem ReadyToPack.exec_pushsym (h : ReadyToPack ft p s) {n : SymbolId} (hn : codeFor ft n ≠ []) :
    exec (pushCommand n) s =
      if 8 * p.pbufBytes < (packedBits s ++ codeFor ft n).length then raise .capacity (pushCommand n) s
      else orFault (pkAppendAll (codeFor ft n) s) (respond 0) := by
  have hlen : (codeFor ft n).length ≠ 0 := fun h0 => hn (List.length_eq_zero_iff.mp h0)
  rw [List.length_append, packedBits_length]
  simp only [pushCommand, exec, execPushsym, symbolOf_val, h.ctValid, h.ctRead_eq, h.params, if_neg hlen, gt_iff_lt,
    Bool.true_eq_false, if_false]

theorem ReadyToPack.push_ok (h : ReadyToPack ft p s) {n : SymbolId} (hn : codeFor ft n ≠ [])
    (hroom : (packedBits s ++ codeFor ft n).length ≤ 8 * p.pbufBytes) :
    ∃ t, must (pushCommand n) s = .ok (0, t) ∧ ReadyToPack ft p t ∧ packedBits t = packedBits s ++ codeFor ft n := by
  have hexec := h.exec_pushsym hn
  rw [if_neg (Nat.not_lt_of_le hroom)] at hexec
  rw [List.length_append, packedBits_length, ← h.params] at hroom
  obtain ⟨t, ht, hbits⟩ := h.inv.pkAppendAll_ok hroom
  rw [ht] at hexec
  replace hexec : exec (pushCommand n) s = respond 0 t := hexec
  have hframe := pkAppendAll_frame ht
  refine ⟨_, must_ok hexec, ⟨h.inv.exec hexec, ?_, ?_, ?_⟩, hbits⟩
  · exact (congrArg State.ctValid hframe).trans h.ctValid
  · exact (congrArg State.ft hframe).trans h.ft
  · exact (congrArg State.params hframe).trans h.params

theorem ReadyToPack.push_error (h : ReadyToPack ft p s) {n : SymbolId} (hn : codeFor ft n ≠ [])
    (hroom : 8 * p.pbufBytes < (packedBits s ++ codeFor ft n).length) :
    must (pushCommand n) s = .error (abandonWith .capacity) :=
  must_error ((h.exec_pushsym hn).trans (if_pos hroom))

/-- PUSHSYM after PUSHSYM appends the codes in order, where all of them fit. -/
theorem ReadyToPack.pushes_ok (ns : List SymbolId) (hns : ∀ n ∈ ns, codeFor ft n ≠ []) (h : ReadyToPack ft p s)
    (hroom : (packedBits s ++ ns.flatMap (codeFor ft)).length ≤ 8 * p.pbufBytes) :
    ∃ xs t, mustEach (ns.map pushCommand) s = .ok (xs, t) ∧ ReadyToPack ft p t ∧
      packedBits t = packedBits s ++ ns.flatMap (codeFor ft) := by
  induction ns generalizing s with
  | nil => exact ⟨[], s, rfl, h, (List.append_nil _).symm⟩
  | cons n ns ih =>
    rw [List.flatMap_cons, ← List.append_assoc] at hroom
    have hfirst : (packedBits s ++ codeFor ft n).length ≤ 8 * p.pbufBytes :=
      (List.sublist_append_left _ _).length_le.trans hroom
    obtain ⟨u, hpush, hu, hbits⟩ := h.push_ok (hns n List.mem_cons_self) hfirst
    obtain ⟨xs, t, hrest, ht, hall⟩ := ih (fun m hm => hns m (List.mem_cons_of_mem n hm)) hu (hbits ▸ hroom)
    refine ⟨_, t, mustEach_cons_of hpush hrest, ht, ?_⟩
    rw [hall, hbits, List.flatMap_cons, List.append_assoc]

/-- Where the codes do not all fit, the first that does not ends the sequence with E_CAPACITY. -/
theorem ReadyToPack.pushes_error (ns : List SymbolId) (hns : ∀ n ∈ ns, codeFor ft n ≠ []) (h : ReadyToPack ft p s)
    (hroom : 8 * p.pbufBytes < (packedBits s ++ ns.flatMap (codeFor ft)).length) :
    mustEach (ns.map pushCommand) s = .error (abandonWith .capacity) := by
  induction ns generalizing s with
  | nil =>
    have hpk := h.inv.counters.pk
    rw [h.params, ← packedBits_length] at hpk
    simp only [List.flatMap_nil, List.append_nil] at hroom
    exact absurd hpk (Nat.not_le_of_lt hroom)
  | cons n ns ih =>
    have hn := hns n List.mem_cons_self
    by_cases hfirst : (packedBits s ++ codeFor ft n).length ≤ 8 * p.pbufBytes
    · obtain ⟨u, hpush, hu, hbits⟩ := h.push_ok hn hfirst
      rw [List.flatMap_cons, ← List.append_assoc, ← hbits] at hroom
      rw [List.map_cons, mustEach_cons, hpush]
      simp only [ih (fun m hm => hns m (List.mem_cons_of_mem n hm)) hu hroom]
    · exact mustEach_cons_error (h.push_error hn (Nat.lt_of_not_le hfirst))

end

/-- The symbols of an input in the order in which they are packed: its bytes, then the sentinel (R107). -/
def inputSymbols (B : List Byte) : List SymbolId := B.map byteSymbol ++ [Config.eos]

theorem encodedStream_eq (B : List Byte) :
    encodedStream B = (inputSymbols B).flatMap (codeFor (histogramTable B)) := by
  simp [encodedStream, inputSymbols, List.flatMap_map]

theorem packCommands_eq (B : List Byte) :
    packCommands B = [.build, .gencodes, .pkreset] ++ (inputSymbols B).map pushCommand := by
  have hbyte : pushCommand ∘ byteSymbol = fun v : Byte => .pushsym (v.zeroExtend 16) := by
    funext v
    simp [pushCommand, byteSymbol]
  have heos : pushCommand Config.eos = .pushsym 256#16 := rfl
  rw [packCommands, inputSymbols, List.map_append, List.map_map, hbyte, List.map_singleton, heos, List.append_assoc]

/-- Where the counts fit, every symbol of the input has a code. -/
theorem ReadyToPack.codeFor_ne_nil {B : List Byte} {p : Params} {s : State}
    (h : ReadyToPack (histogramTable B) p s) (hB : ∀ v : Byte, B.count v < 2 ^ 32) :
    ∀ n ∈ inputSymbols B, codeFor (histogramTable B) n ≠ [] := by
  intro n hn
  have hcode := (codeLengthsAreBounded s h.inv h.ctValid n).1
  rw [h.ctRead_eq] at hcode
  refine List.length_pos_iff.mp (hcode.mpr ?_)
  rcases List.mem_append.mp hn with hn | hn
  · obtain ⟨v, hv, rfl⟩ := List.mem_map.mp hn
    rw [histogramTable_read h.ft]
    have hpos : 0 < B.count v := List.count_pos_iff.mpr hv
    intro h0
    have hzero := congrArg BitVec.toNat h0
    rw [BitVec.toNat_ofNat, Nat.mod_eq_of_lt (hB v)] at hzero
    exact absurd hzero (Nat.ne_of_gt hpos)
  · rw [List.mem_singleton.mp hn, ftRead_eq, ftAt_eos]
    decide

end Sys2Proof.Machine
end

section
/-! Reading back (R183, R184): GETTABLE's code table, and the bytes that the RDPKs give. -/

namespace Sys2Proof.Machine

section
variable {s : State}

/-! ### GETTABLE -/

/-- The entries of a code table for the symbols of a list: those that have a code. -/
def codeEntries (s : State) (ns : List SymbolId) : CodeMap :=
  (ns.filter fun n => s.ctRead n != []).map fun n => (n.val, s.ctRead n)

theorem mem_codeEntries {e : Nat × Code} :
    e ∈ codeEntries s (List.finRange 257) ↔ ∃ n : SymbolId, s.ctRead n ≠ [] ∧ e = (n.val, s.ctRead n) := by
  simp only [codeEntries, List.mem_map, List.mem_filter, List.mem_finRange, true_and, bne_iff_ne, ne_eq,
    eq_comm (b := e)]

theorem codeEntries_cons_nil {n : SymbolId} (hn : s.ctRead n = []) (ns : List SymbolId) :
    codeEntries s (n :: ns) = codeEntries s ns := by
  simp [codeEntries, hn]

theorem codeEntries_cons_code {n : SymbolId} (hn : s.ctRead n ≠ []) (ns : List SymbolId) :
    codeEntries s (n :: ns) = (n.val, s.ctRead n) :: codeEntries s ns := by
  simp [codeEntries, hn]

theorem exec_rdclen_ok (hv : s.ctValid = true) (n : SymbolId) :
    exec (.rdclen (BitVec.ofNat 16 n.val)) s = respond (BitVec.ofNat 32 (s.ctRead n).length) s := by
  simp [exec, execRdclen, symbolOf_val, hv]

theorem exec_rdcode_ok (hv : s.ctValid = true) {n : SymbolId} (hn : s.ctRead n ≠ []) {w : Nat} (hw : w ≤ 7) :
    exec (.rdcode (BitVec.ofNat 8 w) (BitVec.ofNat 16 n.val)) s = respond (codeWord (s.ctRead n) w) s := by
  have hnat : (BitVec.ofNat 8 w).toNat = w := by rw [BitVec.toNat_ofNat]; omega
  simp [exec, execRdcode, symbolOf_val, hv, hn, hnat, Nat.not_lt_of_le hw]

/-- The RDCODEs for a code of at most 256 bits give its words. -/
theorem mustEach_codeCommands (hv : s.ctValid = true) {n : SymbolId} (hn : s.ctRead n ≠ [])
    (hlen : (s.ctRead n).length ≤ 256) (r : Option Response) :
    ∃ ws r', mustEach (codeCommands n.val (s.ctRead n).length) { s with resp := r } =
      .ok (ws, { s with resp := r' }) ∧ bitsOfWords (s.ctRead n).length ws = s.ctRead n := by
  have hread : ∀ w ∈ List.range (((s.ctRead n).length - 1) / 32 + 1), ∀ r,
      exec (.rdcode (BitVec.ofNat 8 w) (BitVec.ofNat 16 n.val)) { s with resp := r } =
        respond (codeWord (s.ctRead n) w) { s with resp := r } := fun w hw r => by
    have hw := List.mem_range.mp hw
    exact exec_rdcode_ok (s := { s with resp := r }) hv hn (by omega)
  obtain ⟨r', hrun⟩ := mustEach_reads _ _ _ hread r
  exact ⟨_, r', hrun, bitsOfWords_code _ _ (by omega)⟩

theorem getTableOf_ok (hv : s.ctValid = true) (hlen : ∀ n, (s.ctRead n).length ≤ 256) (ns : List SymbolId)
    (r : Option Response) : ∃ r', getTableOf (ns.map (·.val)) { s with resp := r } =
      .ok (codeEntries s ns, { s with resp := r' }) := by
  induction ns generalizing r with
  | nil => exact ⟨r, rfl⟩
  | cons n ns ih =>
    have hl := hlen n
    have hnat : (BitVec.ofNat 32 (s.ctRead n).length).toNat = (s.ctRead n).length := by
      rw [BitVec.toNat_ofNat]; omega
    have hclen : must (.rdclen (BitVec.ofNat 16 n.val)) { s with resp := r } =
        .ok (BitVec.ofNat 32 (s.ctRead n).length, { s with resp := some { err := 0, rdata := _ } }) :=
      must_ok (exec_rdclen_ok (s := { s with resp := r }) hv n)
    by_cases hn : s.ctRead n = []
    · obtain ⟨r', hrest⟩ := ih (some { err := 0, rdata := BitVec.ofNat 32 (s.ctRead n).length })
      refine ⟨r', ?_⟩
      have hz : BitVec.ofNat 32 (s.ctRead n).length = 0 := by rw [hn]; rfl
      rw [List.map_cons, getTableOf, hclen]
      simp only [if_pos hz, hrest, codeEntries_cons_nil hn]
    · obtain ⟨ws, r1, hwords, hcode⟩ := mustEach_codeCommands hv hn hl
        (some { err := 0, rdata := BitVec.ofNat 32 (s.ctRead n).length })
      obtain ⟨r', hrest⟩ := ih r1
      refine ⟨r', ?_⟩
      have hz : BitVec.ofNat 32 (s.ctRead n).length ≠ 0 := fun h0 => by
        rw [h0] at hnat
        exact hn (List.length_eq_zero_iff.mp hnat.symm)
      rw [List.map_cons, getTableOf, hclen]
      simp only [if_neg hz, hnat, hwords, hrest, hcode, codeEntries_cons_code hn]

/-- R183: GETTABLE reads the code table out and leaves the state but for the response. -/
theorem StateInv.getTable_ok (h : StateInv s) (hv : s.ctValid = true) :
    ∃ r, getTable s = .ok (codeEntries s (List.finRange 257), { s with resp := r }) := by
  have hlen : ∀ n, (s.ctRead n).length ≤ 256 := fun n => by
    obtain ⟨_, _, hle, _⟩ := codeLengthsAreBounded s h hv n
    exact hle
  obtain ⟨r, hrun⟩ := getTableOf_ok hv hlen (List.finRange 257) s.resp
  refine ⟨r, ?_⟩
  rw [getTable, ← hrun, List.map_coe_finRange_eq_range]

/-! ### The packed bytes -/

/-- The packed bytes, PK_BYTELEN of them. -/
def packedBytes (s : State) : List Byte := (List.range s.pkByteLen).map (Memory.read s.pmem)

@[simp] theorem packedBytes_length (s : State) : (packedBytes s).length = ((packedBits s).length + 7) / 8 := by
  simp [packedBytes, State.pkByteLen]

theorem flatMap_range_bytes (f : Nat → Bool) (n : Nat) :
    (List.range n).flatMap (fun a => (List.range 8).map fun j => f (8 * a + j)) = (List.range (8 * n)).map f := by
  induction n with
  | zero => rfl
  | succ n ih =>
    rw [List.range_succ (n := n), List.flatMap_append, ih, List.flatMap_singleton, Nat.mul_succ, List.range_add,
      List.map_append, List.map_map]
    rfl

theorem byteBits_read (s : State) (a : Nat) :
    byteBits (Memory.read s.pmem a) = (List.range 8).map fun j => pmemBit s (8 * a + j) := by
  refine List.map_congr_left fun j hj => ?_
  have hj := List.mem_range.mp hj
  rw [pmemBit_byte s a hj, streamPos, Nat.mod_eq_of_lt hj]

/-- R105: the bits of the packed bytes are the packed stream and then zeros. -/
theorem packedBytes_bits (hpad : PaddingZero s) : (packedBytes s).flatMap byteBits =
    packedBits s ++ List.replicate (8 * (packedBytes s).length - (packedBits s).length) false := by
  have hbits : (packedBytes s).flatMap byteBits = (List.range (8 * s.pkByteLen)).map (pmemBit s) := by
    rw [packedBytes, List.flatMap_map]
    simp only [byteBits_read, flatMap_range_bytes]
  have hsplit : 8 * s.pkByteLen = s.pkBitcnt.toNat + (8 * s.pkByteLen - s.pkBitcnt.toNat) := by
    unfold State.pkByteLen
    omega
  rw [hbits, hsplit, List.range_add, List.map_append, List.map_map, packedBytes, List.length_map, List.length_range,
    packedBits_length, packedBits]
  refine congrArg _ (List.eq_replicate_iff.mpr ⟨by simp, fun b hb => ?_⟩)
  obtain ⟨k, hk, rfl⟩ := List.mem_map.mp hb
  have hk := List.mem_range.mp hk
  have hend : s.pkBitcnt.toNat + k < 8 * s.pkByteLen := by omega
  exact hpad _ (Nat.le_add_right _ _) hend

theorem pkByteLen_toNat (s : State) : (BitVec.ofNat 32 s.pkByteLen).toNat = s.pkByteLen := by
  have := s.pkBitcnt.isLt
  rw [BitVec.toNat_ofNat, State.pkByteLen]
  omega

theorem must_rdsr_pkByteLen (s : State) (r : Option Response) : must (.rdsr 10#16) { s with resp := r } =
    .ok (BitVec.ofNat 32 s.pkByteLen, { s with resp := some { err := 0, rdata := BitVec.ofNat 32 s.pkByteLen } }) :=
  must_ok rfl

/-- The RDPKs of COMPRESS give the packed bytes. -/
theorem mustEach_rdpks (hs : CountersInBounds s) (r : Option Response) : ∃ xs r',
    mustEach ((List.range s.pkByteLen).map fun a => .rdpk (BitVec.ofNat 32 a)) { s with resp := r } =
      .ok (xs, { s with resp := r' }) ∧ xs.map (fun x => x.extractLsb' 0 8) = packedBytes s := by
  have hcap := pkByteLen_toNat s
  have hread : ∀ a ∈ List.range s.pkByteLen, ∀ r, exec (.rdpk (BitVec.ofNat 32 a)) { s with resp := r } =
      respond ((Memory.read s.pmem a).zeroExtend 32) { s with resp := r } := fun a ha r => by
    have ha := List.mem_range.mp ha
    have hnat : (BitVec.ofNat 32 a).toNat = a := by
      rw [BitVec.toNat_ofNat] at hcap ⊢
      omega
    have hbyte := exec_rdpk_ok (s := { s with resp := r }) { hs with } (hnat.trans_lt ha)
    rwa [hnat] at hbyte
  obtain ⟨r', hrun⟩ := mustEach_reads _ _ _ hread r
  refine ⟨_, r', hrun, ?_⟩
  rw [List.map_map]
  exact List.map_congr_left fun a _ =>
    (BitVec.extractLsb'_setWidth_of_le (by decide)).trans BitVec.extractLsb'_eq_self

end

/-! ### COMPRESS -/

/-- COMPRESS up to the first PUSHSYM: the code table of the input's counts, and an empty packer. -/
theorem StateInv.histLoad_prepare {s : State} (h : StateInv s) {B : List Byte} (hB : ∀ v : Byte, B.count v < 2 ^ 32) :
    ∃ s1 xs s2, histLoad B s = .ok s1 ∧ mustEach [.build, .gencodes, .pkreset] s1 = .ok (xs, s2) ∧
      ReadyToPack (histogramTable B) s.params s2 ∧
      packedBits s2 ++ (inputSymbols B).flatMap (codeFor (histogramTable B)) = encodedStream B := by
  have hcounts : ∀ ft r, StateInv (withCounts ft r s) := fun ft r => (h.invalidate ft).withPort s.input r
  obtain ⟨r, hload⟩ := histLoad_ok hB s
  obtain ⟨xs, s2, hprep, h2, hempty⟩ := (hcounts _ r).mustEach_prepare
  rw [withCounts_ft, withCounts_params] at h2
  exact ⟨_, xs, s2, hload, hprep, h2, by rw [hempty, List.nil_append, encodedStream_eq]⟩

/-- COMPRESS after the last PUSHSYM: it reads back the code table and the packed bytes. -/
theorem compress_of_packed {B : List Byte} {s s1 u : State} {xs : List Data} (hload : histLoad B s = .ok s1)
    (hpack : mustEach (packCommands B) s1 = .ok (xs, u)) (h : StateInv u) (hv : u.ctValid = true) :
    ∃ r, compress B s = .ok ((codeEntries u (List.finRange 257), packedBytes u), { u with resp := r }) := by
  obtain ⟨r1, htable⟩ := h.getTable_ok hv
  obtain ⟨ys, r, hread, hbytes⟩ := mustEach_rdpks h.counters (some { err := 0, rdata := BitVec.ofNat 32 u.pkByteLen })
  refine ⟨r, ?_⟩
  rw [← hbytes]
  simp only [compress, hload, hpack, htable, must_rdsr_pkByteLen, pkByteLen_toNat, hread]

/-- Where the counts and the stream fit, COMPRESS gives the code table of the counts and the packing of the stream. -/
theorem StateInv.compress_ok {s : State} (h : StateInv s) {B : List Byte} (hB : ∀ v : Byte, B.count v < 2 ^ 32)
    (hfit : (encodedStream B).length ≤ 8 * s.params.pbufBytes) : ∃ u r,
      compress B s = .ok ((codeEntries u (List.finRange 257), packedBytes u), { u with resp := r }) ∧
      ReadyToPack (histogramTable B) s.params u ∧ packedBits u = encodedStream B := by
  obtain ⟨s1, xs, s2, hload, hprep, h2, hstream⟩ := h.histLoad_prepare hB
  obtain ⟨ys, u, hpush, hu, hbits⟩ := h2.pushes_ok (inputSymbols B) (h2.codeFor_ne_nil hB) (hstream.symm ▸ hfit)
  have hpack := mustEach_append_of hprep hpush
  rw [← packCommands_eq] at hpack
  obtain ⟨r, hrun⟩ := compress_of_packed hload hpack hu.inv hu.ctValid
  exact ⟨u, r, hrun, hu, hbits.trans hstream⟩

theorem StateInv.compress_error {s : State} (h : StateInv s) {B : List Byte} (hB : ∀ v : Byte, B.count v < 2 ^ 32)
    (hroom : 8 * s.params.pbufBytes < (encodedStream B).length) : compress B s = .error (abandonWith .capacity) := by
  obtain ⟨s1, xs, s2, hload, hprep, h2, hstream⟩ := h.histLoad_prepare hB
  have hpush := h2.pushes_error (inputSymbols B) (h2.codeFor_ne_nil hB) (hstream.symm ▸ hroom)
  have hpack := mustEach_append_error hprep hpush
  rw [← packCommands_eq] at hpack
  simp only [compress, hload, hpack]

theorem compress_count_error {B : List Byte} {v : Byte} (h : 2 ^ 32 ≤ B.count v) (s : State) :
    compress B s = .error (abandonWith .capacity) := by
  simp only [compress, histLoad_error h]

/-- Settles O55: the PUSHSYMs succeed exactly where all the codes fit, and what COMPRESS then reads back is the code
table of the counts and the stream with zeros behind it. -/
theorem compressSucceedsWhenTheStreamFits : Obligations.CompressSucceedsWhenTheStreamFits := by
  refine ⟨fun B s h hB hfit => ?_, fun B s h hB hroom => h.compress_error hB hroom,
    fun B s v hv => compress_count_error hv s⟩
  obtain ⟨u, r, hrun, hu, hbits⟩ := h.compress_ok hB hfit
  refine ⟨_, _, _, hrun, fun e => ?_, ?_, ?_⟩
  · simp only [mem_codeEntries, hu.ctRead_eq]
  · rw [packedBytes_length, hbits]
  · rw [packedBytes_bits hu.inv.padding, hbits]

end Sys2Proof.Machine
end

section
/-! Huffman's theorem for the code table of a state of the invariant (R120, R131): the symbols present are those of the
arena's leaves, the lengths of their codes are the leaves' depths, and `Arena.optimal` bounds the cost of those. -/

namespace Sys2Proof.Machine

/-- The weighted length that R120 minimises: the sum over all symbols of count × code length. -/
def codeCost (ft : Vector Data 256) (C : SymbolId → Code) : ℕ :=
  ((List.finRange 257).map fun n => (ftAt ft n).toNat * (C n).length).sum

/-- The sentinel's single bit is the shortest code it can have, and with no other code nothing else costs (R142). -/
theorem codeCost_single_le (ft : Vector Data 256) {T C : SymbolId → Code}
    (hT : ∀ n, T n = if n = Config.eos then [false] else []) (heos : C Config.eos ≠ []) :
    codeCost ft T ≤ codeCost ft C := by
  refine List.sum_le_sum fun n _ => Nat.mul_le_mul_left _ ?_
  rw [hT]
  split
  · next e => exact e ▸ List.length_pos_iff.mpr heos
  · exact Nat.zero_le _

/-! ### The leaves -/

/-- The indices of the leaves, which stand before all other nodes (R125). -/
def leafIndices (ft : Vector Data 256) : Finset ℕ := Finset.range (presentSymbols ft).length

/-- The symbol of leaf `j` (R125). -/
def leafSymbol (ft : Vector Data 256) (j : ℕ) : SymbolId := (presentSymbols ft).getD j Config.eos

section
variable {ft : Vector Data 256} {nodes : List Node} {q : List Nat} {C : SymbolId → Code}

theorem mem_leafIndices {j : ℕ} : j ∈ leafIndices ft ↔ j < (presentSymbols ft).length := Finset.mem_range

theorem Arena.isLeaf_leafSymbol (h : Arena ft nodes q) {j : ℕ} (hj : j ∈ leafIndices ft) :
    IsLeaf nodes j (leafSymbol ft j) := by
  have hlt := mem_leafIndices.mp hj
  rw [h.isLeaf_iff, leafSymbol, List.getD_eq_getElem _ _ hlt, List.getElem?_eq_getElem hlt]

theorem Arena.leafSymbol_injOn (h : Arena ft nodes q) : Set.InjOn (leafSymbol ft) (leafIndices ft) := fun _ hj _ hk e =>
  h.leaf_index_unique (h.isLeaf_leafSymbol hj) (e ▸ h.isLeaf_leafSymbol hk)

/-- Only the symbols of leaves cost anything, each its leaf's frequency for every bit of its code. -/
theorem Arena.codeCost_eq (h : Arena ft nodes q) (C : SymbolId → Code) :
    codeCost ft C = ∑ j ∈ leafIndices ft, freqAt nodes j * (C (leafSymbol ft j)).length := by
  rw [codeCost, ← Fin.sum_univ_def]
  symm
  refine Finset.sum_of_injOn (leafSymbol ft) h.leafSymbol_injOn (fun _ _ => Finset.mem_coe.mpr (Finset.mem_univ _))
    (fun n _ hn => ?_) (fun j hj => ?_)
  · have hzero : ftAt ft n = 0 := by
      by_contra hne
      obtain ⟨j, hl⟩ := h.exists_leaf hne
      have hj := mem_leafIndices.mpr (h.leaf_lt hl)
      exact hn ⟨j, hj, (h.isLeaf_leafSymbol hj).unique hl⟩
    simp [hzero]
  · obtain ⟨n, hl, hfreq⟩ := h.leaf_freq (mem_leafIndices.mp hj)
    rw [hfreq, hl.unique (h.isLeaf_leafSymbol hj)]

/-- When the first merge is made, exactly the leaves are queued (R124). -/
theorem Arena.queued_leaves (h : Arena ft nodes q) : queued nodes (presentSymbols ft).length = leafIndices ft := by
  ext j
  rw [mem_queued, mem_leafIndices]
  refine ⟨And.left, fun hj => ⟨hj, fun p hp => ?_⟩⟩
  obtain ⟨_, _, l, r, hi, _⟩ := h.child j p hp
  exact h.internal_ge hi

/-- The codes that an assignment of the kind of R43 (b) gives the leaves satisfy Kraft's inequality. -/
theorem Arena.kraftAt_of_prefixFree (h : Arena ft nodes q) (hC : PrefixFree C) (hne : ∀ n, ftAt ft n ≠ 0 → C n ≠ []) :
    ∃ L, KraftAt (leafIndices ft) (fun j => (C (leafSymbol ft j)).length) L := by
  have hcode (j : ℕ) (hj : j ∈ leafIndices ft) : C (leafSymbol ft j) ≠ [] :=
    hne _ (h.ne_zero_of_leaf (h.isLeaf_leafSymbol hj))
  have hbound (j : ℕ) (hj : j ∈ leafIndices ft) :
      (C (leafSymbol ft j)).length ≤ (leafIndices ft).sup fun k => (C (leafSymbol ft k)).length :=
    Finset.le_sup (f := fun k => (C (leafSymbol ft k)).length) hj
  refine ⟨_, hbound, kraft_of_prefixFree _ (fun j => C (leafSymbol ft j)) hcode (fun i hi j hj hij => ?_) _ hbound⟩
  exact hC _ _ (fun e => hij (h.leafSymbol_injOn hi hj e)) (hcode i hi) (hcode j hj)

/-- The leaves' depths cost no more than the codes of any assignment of that kind (R131). -/
theorem Arena.depth_cost_le {root : ℕ} (h : Arena ft nodes [root]) (hC : PrefixFree C)
    (hne : ∀ n, ftAt ft n ≠ 0 → C n ≠ []) :
    ∑ j ∈ leafIndices ft, freqAt nodes j * depthAt nodes root j ≤ codeCost ft C := by
  obtain ⟨L, hkraft⟩ := h.kraftAt_of_prefixFree hC hne
  have hcount := h.count
  have hsize := h.root_eq
  rw [List.length_singleton] at hcount
  rw [h.codeCost_eq]
  rw [← h.queued_leaves] at hkraft ⊢
  exact h.optimal (nodes.length - (presentSymbols ft).length) _ (by omega) le_rfl _ L hkraft

end

/-! ### The code table -/

/-- Settles O31: a single leaf's code is as short as can be; in a larger tree the code lengths are the leaves' depths,
and those cost no more than any lengths that satisfy Kraft's inequality. -/
theorem huffmanCodeIsOptimal : Obligations.HuffmanCodeIsOptimal := by
  intro s C h hv hC hne
  change codeCost s.ft s.ctRead ≤ codeCost s.ft C
  have ha := h.tree.arena (h.flags.ctNeedsTree hv)
  rcases h.codesArePaths hv with ⟨_, hsingle⟩ | hpath
  · exact codeCost_single_le _ hsingle (hne _ (by rw [ftRead_eq, ftAt_eos]; decide))
  · have hdepth (j : ℕ) (hj : j ∈ leafIndices s.ft) :
        (s.ctRead (leafSymbol s.ft j)).length = depthAt s.nodes s.root.toNat j := by
      have hleaf := ha.isLeaf_leafSymbol hj
      obtain ⟨i, hfollow, hi, _⟩ := (hpath _).resolve_right fun hz => ha.ne_zero_of_leaf hleaf hz.2
      rw [← ha.depthAt_eq hfollow, ha.leaf_index_unique hleaf hi]
    calc codeCost s.ft s.ctRead
        = ∑ j ∈ leafIndices s.ft, freqAt s.nodes j * depthAt s.nodes s.root.toNat j := by
          rw [ha.codeCost_eq]
          exact Finset.sum_congr rfl fun j hj => by rw [hdepth j hj]
      _ ≤ codeCost s.ft C := ha.depth_cost_le hC hne

end Sys2Proof.Machine
end

section
/-! What BUILD does, from any state: it always completes, and what it stores is the tree of the present FT (R124, R129,
R133). -/

namespace Sys2Proof.Machine

/-- The sentinel's leaf is always there, so the input is never empty (R129). -/
theorem exec_build_ok (s : State) : exec .build s = respond 0 { s with
    nodes := (buildTree s.ft).1, root := BitVec.ofNat 32 (rootOf (buildTree s.ft).2)
    nleaf := BitVec.ofNat 32 (leaves s.ft).length, nnode := BitVec.ofNat 32 (buildTree s.ft).1.length
    treeValid := true, ctValid := false } :=
  if_neg (by simp [leaves])

/-- Settles O22: the present symbols are those of non-zero count, and the arena holds at most 513 nodes. -/
theorem buildCompletesAndWritesOnlyTheTree : Obligations.BuildCompletesAndWritesOnlyTheTree := by
  refine ⟨rfl, fun s => ⟨_, exec_build_ok s, ?_⟩⟩
  obtain ⟨htree, hv, _⟩ := exec_build_tree (exec_build_ok s)
  obtain ⟨_, _, _, hnode⟩ := htree hv
  obtain ⟨_, _, hmax⟩ := buildTree_size s.ft
  exact ⟨htree.nleaf_eq hv, hnode, hmax, rfl⟩

/-- Settles O25: after BUILD the four are those of the tree of FT, which it does not write. -/
theorem buildDependsOnTheFrequencyTableAlone : Obligations.BuildDependsOnTheFrequencyTableAlone := by
  intro s t s' t' hft hs ht
  obtain ⟨hs', hsv, hsft⟩ := exec_build_tree hs
  obtain ⟨ht', htv, htft⟩ := exec_build_tree ht
  obtain ⟨snodes, sroot, sleaf, snode⟩ := hs' hsv
  obtain ⟨tnodes, troot, tleaf, tnode⟩ := ht' htv
  have hft' : s'.ft = t'.ft := hsft.trans (hft.trans htft.symm)
  rw [hft'] at snodes sroot sleaf
  have hnodes : s'.nodes = t'.nodes := snodes.trans tnodes.symm
  exact ⟨hnodes, BitVec.eq_of_toNat_eq (sroot.trans troot.symm), BitVec.eq_of_toNat_eq (sleaf.trans tleaf.symm),
    BitVec.eq_of_toNat_eq (snode.trans (hnodes ▸ tnode.symm))⟩

end Sys2Proof.Machine
end

section
/-! The frequency table's commands: CLRFREQ, SETFREQ and RDFREQ (R121 to R123). -/

namespace Sys2Proof

/-- A word of a command without operands that sets a field is illegal (R91, R102). -/
theorem formatZ_error {w : CommandWord} (h : w ≠ assemble (opField w) 0 0 0) (i : Instr) :
    formatZ w i = .error (.nonzeroUnusedField (opField w)) :=
  if_neg fun ⟨hs, hi, hd⟩ => h (assemble_eq rfl hs hi hd).symm

end Sys2Proof

namespace Sys2Proof.Machine

/-! ### CLRFREQ -/

/-- The cleared table: the sentinel's count stays 1 (R21, R121). -/
theorem ftRead_zeroFt_eq {s : State} (h : s.ft = zeroFt) (n : SymbolId) :
    s.ftRead n = if n = Config.eos then 1 else 0 := by
  split
  · next e => rw [e, ftRead_eq, ftAt_eos]
  · next e => exact ftRead_of_zeroFt h e

theorem decode_of_opField_clrfreq {w : CommandWord} (h : opField w = 0x10#8) : decode w = formatZ w .clrfreq := by
  simp [decode, h]

/-- Settles O19: every count is cleared but the sentinel's, which is not stored. -/
theorem clrfreqClearsTheTableAndInvalidates : Obligations.ClrfreqClearsTheTableAndInvalidates := by
  refine ⟨rfl, fun s => ⟨_, rfl, ftRead_zeroFt_eq rfl, rfl⟩, fun w hop hw => ?_⟩
  change opField w = 0x10#8 at hop
  rw [decode_of_opField_clrfreq hop, formatZ_error (by rw [hop]; exact hw), hop]

/-! ### SETFREQ -/

/-- A count after a write of another, or of the same (R22). -/
theorem ftRead_ftWrite (s : State) (b : Fin 256) (d : Data) (n : SymbolId) :
    (s.ftWrite b d).ftRead n = if n.val = b.val then d else s.ftRead n := by
  by_cases hn : n.val < 256
  · simp [State.ftRead, hn, Vector.getElem_set, eq_comm]
  · have hne : n.val ≠ b.val := by omega
    simp [State.ftRead, hn, hne]

theorem exec_setfreq_ok {i : BitVec 16} (hi : i.toNat < 256) (d : Data) (s : State) :
    exec (.setfreq i d) s = respond 0 (invalidate (s.ftWrite ⟨i.toNat, hi⟩ d)) := by
  simp [exec, execSetfreq, byteSymbolOf_eq_some hi]

/-- Settles O20: an index field below 256 names the count written, any other names none. -/
theorem setfreqWritesOneCountAndInvalidates : Obligations.SetfreqWritesOneCountAndInvalidates := by
  refine ⟨fun i d => ?_, fun i d s hi => ?_, fun i d s hi => ?_⟩
  · simp [encode, assemble_eq_or]
  · have hi' : i.toNat < 256 := by omega
    exact ⟨_, exec_setfreq_ok hi' d s, ftRead_ftWrite s ⟨i.toNat, hi'⟩ d, rfl⟩
  · simp [exec, execSetfreq, byteSymbolOf_eq_none hi, raise]

/-! ### RDFREQ -/

theorem exec_rdfreq_ok (s : State) (n : SymbolId) :
    exec (.rdfreq (BitVec.ofNat 16 n.val)) s = respond (s.ftRead n) s := by
  simp [exec, execRdfreq, symbolOf_val]

/-- Settles O21: an index field up to 256 names the symbol read, any other names none. -/
theorem rdfreqReturnsTheCount : Obligations.RdfreqReturnsTheCount := by
  refine ⟨fun i => ?_, exec_rdfreq_ok, fun s => exec_rdfreq_ok s Config.eos, fun s i hi => ?_⟩
  · simp [encode, assemble_eq_or]
  · simp [exec, execRdfreq, symbolOf_eq_none hi, raise]

end Sys2Proof.Machine
end

section
/-! RDNODE (R132): what it answers for each selector, and its checks. -/

namespace Sys2Proof.Machine

section
variable {s : State} {sel : BitVec 8} {i : BitVec 16} {nd : Node} {v : Data}

/-- Only the selectors 0 to 6 select a field (R99). -/
theorem nodeField_sel_le {n : Nat} {isRoot : Bool} (h : nodeField n nd isRoot = some v) : n ≤ 6 := by
  by_contra hn
  obtain ⟨k, rfl⟩ : ∃ k, n = k + 7 := ⟨n - 7, by omega⟩
  cases h

theorem exec_rdnode_ok (hv : s.treeValid = true) (hi : i.toNat < s.nnode.toNat) (hnd : s.nodes[i.toNat]? = some nd)
    (hfield : nodeField sel.toNat nd (decide (i.toNat = s.root.toNat)) = some v) :
    exec (.rdnode sel i) s = respond v s := by
  have hsel := nodeField_sel_le hfield
  simp [exec, execRdnode, hv, hnd, hfield, Nat.not_lt_of_le hsel, Nat.not_le_of_lt hi]

/-- FREQ_LO is the frequency modulo 2³² (R132). -/
theorem freqLo_eq (f : NodeFreq) : f.extractLsb' 0 32 = BitVec.ofNat 32 f.toNat := by
  apply BitVec.eq_of_toNat_eq
  simp

/-- FREQ_HI is the frequency divided by 2³² (R132). -/
theorem freqHi_eq (f : NodeFreq) : (f.extractLsb' 32 9).zeroExtend 32 = BitVec.ofNat 32 (f.toNat / 2 ^ 32) := by
  have hf := f.isLt
  apply BitVec.eq_of_toNat_eq
  simp only [BitVec.truncate_eq_setWidth, BitVec.toNat_setWidth, BitVec.extractLsb'_toNat, BitVec.toNat_ofNat,
    Nat.shiftRight_eq_div_pow]
  omega

/-- A leaf's frequency is a count, which fits 32 bits (R125). -/
theorem Arena.leaf_freq_lt {ft : Vector Data 256} {nodes : List Node} {q : List Nat} (h : Arena ft nodes q) {j : Nat}
    {n : SymbolId} (hl : IsLeaf nodes j n) : freqAt nodes j < 2 ^ 32 := by
  obtain ⟨m, _, hfreq⟩ := h.leaf_freq (h.leaf_lt hl)
  exact hfreq ▸ (ftAt _ m).isLt

/-- Settles O26: a success reads the field that `nodeField` gives, and each clause of the checks is a branch of the
command. -/
theorem rdnodeReturnsTheFieldOfTheNode : Obligations.RdnodeReturnsTheFieldOfTheNode := by
  refine ⟨fun sel i => ?_, fun s i nd hv hi hnd => ?_, fun s i n htree hv hi hl => ?_, fun s sel i => ?_⟩
  · simp [encode, assemble_eq_or]
  · have read {sel : BitVec 8} {v : Data} := exec_rdnode_ok (sel := sel) (v := v) hv hi hnd
    refine ⟨fun n hb => ?_, fun l r hb => ?_, read (congrArg some (freqLo_eq _)), read (congrArg some (freqHi_eq _)),
      fun hroot => read (by simp [nodeField, hroot, Config.noneWord]),
      fun p hroot hp => read (by simp [nodeField, hroot, hp, linkData])⟩
    · refine ⟨read ?_, read ?_, read ?_, read ?_⟩ <;> simp [nodeField, hb, Config.noneWord]
    · refine ⟨read ?_, read ?_, read ?_, read ?_⟩ <;> simp [nodeField, hb, linkData, Config.noneWord]
  · have ⟨nd, hnd, _⟩ := hl
    have hlt := (htree.arena hv).leaf_freq_lt hl
    rw [freqAt_of_getElem? hnd] at hlt
    refine exec_rdnode_ok hv hi hnd (congrArg some ?_)
    rw [freqHi_eq, Nat.div_eq_of_lt hlt]
    rfl
  · refine ⟨fun hsel => if_pos hsel, fun hsel hv => ?_, fun hsel hv hi => ?_⟩
    · simp [exec, execRdnode, Nat.not_lt_of_le hsel, hv, raise]
    · simp [exec, execRdnode, Nat.not_lt_of_le hsel, hv, hi, raise]

end

end Sys2Proof.Machine
end

section
/-! The code table's commands: what GENCODES makes of a valid tree (R141, R142), and how RDCLEN and RDCODE read the table
back (R145, R146). -/

namespace Sys2Proof.Machine

/-! ### GENCODES -/

/-- Settles O27: a valid tree has a code table, and GENCODES stores it. -/
theorem gencodesCompletesAndWritesOnlyTheTable : Obligations.GencodesCompletesAndWritesOnlyTheTable := by
  refine ⟨rfl, fun s htree hv => ?_, fun s hv => if_pos hv⟩
  obtain ⟨ct, hexec⟩ := exec_gencodes_ok htree hv
  exact ⟨_, hexec, rfl⟩

theorem exec_gencodes_of_genCodes {s : State} {ct : Vector Code 257} (hv : s.treeValid = true)
    (hct : genCodes s.nodes s.root.toNat = .ok ct) :
    exec .gencodes s = respond 0 { s with ct := ct, ctValid := true } := by
  simp [exec, execGencodes, hv, hct]

/-- A code that is the path to its symbol's leaf, or empty for an absent symbol, is the only sequence that leads there: a
symbol has one leaf, and a leaf one path. -/
theorem Arena.code_eq_iff {ft : Vector Data 256} {nodes : List Node} {root : Nat} (h : Arena ft nodes [root])
    {n : SymbolId} {code c : Code}
    (hcode : (∃ i, follow nodes root code = some i ∧ IsLeaf nodes i n ∧ code ≠ []) ∨ (code = [] ∧ ftAt ft n = 0))
    (hc : c ≠ []) : code = c ↔ ∃ j, follow nodes root c = some j ∧ IsLeaf nodes j n := by
  rcases hcode with ⟨i, hfollow, hleaf, _⟩ | ⟨rfl, hzero⟩
  · refine ⟨fun hcc => ⟨i, hcc ▸ hfollow, hleaf⟩, fun ⟨j, hj, hjleaf⟩ => ?_⟩
    obtain rfl := h.leaf_index_unique hleaf hjleaf
    exact h.follow_unique code c i hfollow hj
  · exact iff_of_false hc.symm fun ⟨_, _, hjleaf⟩ => h.ne_zero_of_leaf hjleaf hzero

/-- Settles O28: the table that `genCodes` makes of the finished arena is the one GENCODES stores. -/
theorem gencodesGivesEachLeafItsPath : Obligations.GencodesGivesEachLeafItsPath := by
  intro s t htree hv hexec
  have ha := htree.arena hv
  obtain ⟨ct, hct, hone, hmore⟩ := ha.genCodes_spec
  obtain rfl := Host.Outcome.next.inj ((exec_gencodes_of_genCodes hv hct).symm.trans hexec)
  rw [htree.nleaf_eq hv]
  refine ⟨fun hN n c hc => ha.code_eq_iff (hmore hN n) hc, fun hN n => ?_⟩
  obtain rfl := hone hN
  exact emptyTable_set_getElem Config.eos n [false]

/-! ### RDCLEN and RDCODE -/

/-- An index field up to 256 names a symbol (R97). -/
theorem exists_symbolOf_eq_some {i : BitVec 16} (hi : i.toNat ≤ 256) : ∃ n, symbolOf i = some n :=
  ⟨⟨i.toNat, by omega⟩, symbolOf_eq_some rfl⟩

/-- Settles O32: an index field up to 256 names the symbol read, any other names none. -/
theorem rdclenReturnsTheCodeLength : Obligations.RdclenReturnsTheCodeLength := by
  refine ⟨fun i => ?_, fun s n hv => exec_rdclen_ok hv n, fun s i hi => ?_, fun s i hi hv => ?_⟩
  · simp [encode, assemble_eq_or]
  · simp [exec, execRdclen, symbolOf_eq_none hi, raise]
  · obtain ⟨n, hn⟩ := exists_symbolOf_eq_some hi
    simp [exec, execRdclen, hn, hv, raise]

section
variable {s : State} {sel : BitVec 8} {i : BitVec 16}

/-- The operands are checked before the state, the symbol before the word number; both answer the same (R206, R213). -/
theorem exec_rdcode_badOperand (h : 256 < i.toNat ∨ 7 < sel.toNat) :
    exec (.rdcode sel i) s = raise .badOperand (.rdcode sel i) s := by
  by_cases hi : i.toNat ≤ 256
  · obtain ⟨n, hn⟩ := exists_symbolOf_eq_some hi
    have hsel : 7 < sel.toNat := by omega
    simp [exec, execRdcode, hn, hsel]
  · simp [exec, execRdcode, symbolOf_eq_none (Nat.lt_of_not_le hi)]

theorem exec_rdcode_sequence (hi : i.toNat ≤ 256) (hsel : sel.toNat ≤ 7) (hv : s.ctValid = false) :
    exec (.rdcode sel i) s = raise .sequence (.rdcode sel i) s := by
  obtain ⟨n, hn⟩ := exists_symbolOf_eq_some hi
  simp [exec, execRdcode, hn, Nat.not_lt_of_le hsel, hv]

theorem exec_rdcode_noCode {n : SymbolId} (hi : i.toNat = n.val) (hsel : sel.toNat ≤ 7) (hv : s.ctValid = true)
    (hn : s.ctRead n = []) : exec (.rdcode sel i) s = raise .noCode (.rdcode sel i) s := by
  simp [exec, execRdcode, symbolOf_eq_some hi, Nat.not_lt_of_le hsel, hv, hn]

end

/-- Settles O33: the word read is `codeWord`, and the errors are the checks in their order. -/
theorem rdcodeReturnsTheCodeWord : Obligations.RdcodeReturnsTheCodeWord := by
  refine ⟨fun sel i => ?_, fun s sel n hsel hv hn => ?_, fun s sel i =>
    ⟨exec_rdcode_badOperand, exec_rdcode_sequence, fun n => exec_rdcode_noCode⟩⟩
  · simp [encode, assemble_eq_or]
  · have hexec := exec_rdcode_ok hv hn hsel
    rw [BitVec.ofNat_toNat, BitVec.setWidth_eq] at hexec
    exact ⟨_, hexec, fun k hk => codeWord_getLsbD _ _ hk⟩

end Sys2Proof.Machine
end

section
/-! The packer's commands (R151 to R154): what PUSHBIT, PUSHSYM and RDPK answer in each case of their checks, and the byte
that PUSHBIT writes. -/

namespace Sys2Proof.Machine

section
variable {s : State}

/-! ### PUSHBIT -/

section
variable {d : BitVec 32}

theorem exec_pushbit_ok (hd : d.toNat ≤ 1) (hroom : s.pkBitcnt.toNat < 8 * s.params.pbufBytes) :
    exec (.pushbit d) s = respond 0 (appended (decide (d.toNat = 1)) s) := by
  simp only [exec, execPushbit, if_neg (Nat.not_lt_of_le hd), if_neg hroom.ne, pkAppend_ok _ hroom, orFault]

theorem exec_pushbit_badOperand (hd : 2 ≤ d.toNat) : exec (.pushbit d) s = raise .badOperand (.pushbit d) s :=
  if_pos hd

theorem exec_pushbit_capacity (hd : d.toNat ≤ 1) (hfull : s.pkBitcnt.toNat = 8 * s.params.pbufBytes) :
    exec (.pushbit d) s = raise .capacity (.pushbit d) s := by
  simp only [exec, execPushbit, if_neg (Nat.not_lt_of_le hd), if_pos hfull]

end

/-- R156's `b << pos` as arithmetic on the bit's value. -/
theorem bitAt_eq_ofNat {n : Nat} (hn : n ≤ 1) (pos : Nat) :
    bitAt (decide (n = 1)) pos = BitVec.ofNat 8 (n * 2 ^ pos) := by
  apply BitVec.eq_of_toNat_eq
  obtain rfl | rfl : n = 0 ∨ n = 1 := by omega
  · simp [bitAt]
  · simp [bitAt, Nat.shiftLeft_eq]

/-- The byte that PUSHBIT writes (R152): the bit alone where it starts a byte, and else or-ed into the byte there. -/
theorem appendedByte_eq_ofNat {n : Nat} (hn : n ≤ 1) (s : State) : appendedByte (decide (n = 1)) s =
    if s.pkBitcnt.toNat % 8 = 0 then BitVec.ofNat 8 (n * 2 ^ 7)
    else Memory.read s.pmem (s.pkBitcnt.toNat / 8) ||| BitVec.ofNat 8 (n * 2 ^ (7 - s.pkBitcnt.toNat % 8)) := by
  simp only [appendedByte, bitAt_eq_ofNat hn, streamAddr, streamPos]

/-! ### PUSHSYM -/

section
variable {i : BitVec 16} {n : SymbolId}

/-- PUSHSYM is the append of its symbol's whole code, where that fits (R153). -/
theorem exec_pushsym_ok {t : State} (hv : s.ctValid = true) (hn : s.ctRead n ≠ [])
    (hroom : s.pkBitcnt.toNat + (s.ctRead n).length ≤ 8 * s.params.pbufBytes)
    (ht : pkAppendAll (s.ctRead n) s = .ok t) : exec (.pushsym (BitVec.ofNat 16 n.val)) s = respond 0 t := by
  simp [exec, execPushsym, symbolOf_val, hv, hn, Nat.not_lt_of_le hroom, ht, orFault]

theorem exec_pushsym_badOperand (hi : 257 ≤ i.toNat) : exec (.pushsym i) s = raise .badOperand (.pushsym i) s := by
  simp [exec, execPushsym, symbolOf_eq_none hi]

theorem exec_pushsym_sequence (hi : i.toNat ≤ 256) (hv : s.ctValid = false) :
    exec (.pushsym i) s = raise .sequence (.pushsym i) s := by
  obtain ⟨n, hn⟩ := exists_symbolOf_eq_some hi
  simp [exec, execPushsym, hn, hv]

theorem exec_pushsym_noCode (hi : i.toNat = n.val) (hv : s.ctValid = true) (hn : s.ctRead n = []) :
    exec (.pushsym i) s = raise .noCode (.pushsym i) s := by
  simp [exec, execPushsym, symbolOf_eq_some hi, hv, hn]

theorem exec_pushsym_capacity (hi : i.toNat = n.val) (hv : s.ctValid = true) (hn : s.ctRead n ≠ [])
    (hfull : 8 * s.params.pbufBytes < s.pkBitcnt.toNat + (s.ctRead n).length) :
    exec (.pushsym i) s = raise .capacity (.pushsym i) s := by
  simp [exec, execPushsym, symbolOf_eq_some hi, hv, hn, hfull]

end

/-! ### RDPK -/

/-- At or past PK_BYTELEN there is no packed byte (R154). -/
theorem exec_rdpk_badOperand {d : BitVec 32} (h : s.pkByteLen ≤ d.toNat) :
    exec (.rdpk d) s = raise .badOperand (.rdpk d) s := if_pos h

end

/-! ### The four commands -/

/-- Settles O35: the success is the state `appended`, whose byte, stream, padding and count are known; the errors are
the checks in their order. -/
theorem pushbitAppendsOneBit : Obligations.PushbitAppendsOneBit := by
  refine ⟨fun d => ?_, fun s d hs hm hpad hd hroom => ?_, fun _ _ => exec_pushbit_badOperand,
    fun _ _ => exec_pushbit_capacity⟩
  · simp [encode, assemble_eq_or]
  · have hread := appended_read (decide (d.toNat = 1)) hm.pmem
    refine ⟨_, exec_pushbit_ok hd hroom, ?_, fun a ha => (hread a).trans (if_neg ha),
      packedBits_appended _ hs.params hm.pmem hpad hroom, appended_padding _ hs.params hm.pmem hpad hroom,
      appended_pkBitcnt (decide (d.toNat = 1)) hs.params hroom, rfl⟩
    exact ((hread _).trans (if_pos rfl)).trans (appendedByte_eq_ofNat hd s)

/-- Settles O36: `pkAppendAll_ok` says what the append of a whole code does, and the errors are the checks in their
order. -/
theorem pushsymAppendsTheWholeCode : Obligations.PushsymAppendsTheWholeCode := by
  refine ⟨fun i => ?_, fun s n hs hm hpad hv hn hroom => ?_, fun s i => ⟨exec_pushsym_badOperand,
    exec_pushsym_sequence, fun n => exec_pushsym_noCode, fun n => exec_pushsym_capacity⟩⟩
  · simp [encode, assemble_eq_or]
  · obtain ⟨t, ht, hframe, hbits, htpad, _, hcnt, hread⟩ := pkAppendAll_ok _ s hs.params hm.pmem hpad hroom
    refine ⟨_, exec_pushsym_ok hv hn hroom ht, hbits, htpad, fun a ha => hread a (hcnt ▸ ha), hcnt, ?_⟩
    exact congrArg (fun u : State => { u with resp := some { err := 0, rdata := 0 } }) hframe

/-- Settles O34: with PK_BITCNT at 0 PK_BYTELEN is 0, so no address is below it. -/
theorem pkresetEmptiesThePacker : Obligations.PkresetEmptiesThePacker := by
  refine ⟨rfl, fun s => ?_⟩
  have hlen : State.pkByteLen { s with pkBitcnt := 0, resp := some { err := 0, rdata := 0 } } = 0 :=
    pkByteLen_of_empty rfl
  exact ⟨_, rfl, rfl, hlen, fun d => exec_rdpk_badOperand (hlen.trans_le d.toNat.zero_le)⟩

/-- Settles O37: below PK_BYTELEN the byte there is read, at or past it there is none. -/
theorem rdpkReturnsThePackedByte : Obligations.RdpkReturnsThePackedByte := by
  refine ⟨fun d => ?_, fun _ _ hs => exec_rdpk_ok hs, fun _ _ => exec_rdpk_badOperand⟩
  simp [encode, assemble_eq_or]

end Sys2Proof.Machine
end

section
/-! The unpacker's commands (R161 to R164): what UPBYTE and NEXTBIT answer in each case of their checks, and which
command answers with the code of a failed NEXTBIT. -/

namespace Sys2Proof.Machine

section
variable {s : State}

/-! ### UPBYTE -/

section
variable {d : BitVec 32}

/-- The low eight bits of the operand are the byte it names (R162). -/
theorem operandByte_eq (d : BitVec 32) : d.extractLsb' 0 8 = BitVec.ofNat 8 d.toNat := rfl

theorem exec_upbyte_ok (hd : d.toNat ≤ 255) (hroom : s.upLen.toNat < s.params.ubufBytes) :
    exec (.upbyte d) s = respond 0 (loaded (BitVec.ofNat 8 d.toNat) s) := by
  simp only [exec, execUpbyte, if_neg (Nat.not_lt_of_le hd), if_neg hroom.ne, umemWrite_ok _ hroom, orFault, loaded,
    operandByte_eq]

theorem exec_upbyte_badOperand (hd : 256 ≤ d.toNat) : exec (.upbyte d) s = raise .badOperand (.upbyte d) s :=
  if_pos hd

theorem exec_upbyte_capacity (hd : d.toNat ≤ 255) (hfull : s.upLen.toNat = s.params.ubufBytes) :
    exec (.upbyte d) s = raise .capacity (.upbyte d) s := by
  simp only [exec, execUpbyte, if_neg (Nat.not_lt_of_le hd), if_pos hfull]

end

/-! ### The end of the stream -/

/-- At or past the end of the loaded stream there is no bit (R164). -/
theorem exec_nextbit_outOfRange (h : 8 * s.upLen.toNat ≤ s.upPos.toNat) :
    exec .nextbit s = raise .outOfRange .nextbit s := if_pos h

/-- NEXTBIT alone raises E_OUT_OF_RANGE (R200, R202). -/
theorem eq_nextbit_of_outOfRange_mem {i : Instr} (h : .outOfRange ∈ raisedBy i) : i = .nextbit := by
  cases i with
  | nextbit => rfl
  | _ => simp [raisedBy] at h

end

/-! ### The four commands -/

/-- Settles O40: the success is the state `loaded`, whose byte, stream and count are known; the errors are the checks in
their order. -/
theorem upbyteAppendsOneByte : Obligations.UpbyteAppendsOneByte := by
  refine ⟨fun d => ?_, fun s d hs hm hd hroom => ?_, fun _ _ => exec_upbyte_badOperand,
    fun _ _ => exec_upbyte_capacity⟩
  · simp [encode, assemble_eq_or]
  · have hread := loaded_read (BitVec.ofNat 8 d.toNat) hm.umem
    exact ⟨_, exec_upbyte_ok hd hroom, (hread _).trans (if_pos rfl), fun a ha => (hread a).trans (if_neg ha),
      loadedBits_loaded (BitVec.ofNat 8 d.toNat) hs.params hm.umem hroom,
      loaded_upLen (BitVec.ofNat 8 d.toNat) hs.params hroom, rfl⟩

/-- Settles O42: a success is the state `afterNextbit`, the error is the check, and code 2 belongs to the one error that
no other command raises. -/
theorem nextbitReturnsTheNextBit : Obligations.NextbitReturnsTheNextBit := by
  refine ⟨rfl, fun s hs hlt => ?_, fun _ => exec_nextbit_outOfRange, fun i s t r h hr herr => ?_⟩
  · exact ⟨_, _, exec_nextbit_ok hs hlt, remainingBits_afterNextbit hs hlt, afterNextbit_upPos hs hlt, rfl⟩
  · rcases exec_cases h with ⟨e, he, rfl⟩ | ⟨v, u, rfl, _⟩
    · obtain rfl := Option.some.inj hr
      obtain rfl : e = .outOfRange := ErrCode.code_injective herr
      exact eq_nextbit_of_outOfRange_mem he
    · obtain rfl := Option.some.inj hr
      exact absurd herr (show (0 : BitVec 8) ≠ 2 by decide)

/-- Settles O39: with UP_LEN and UP_POS at 0 the position is at the end of the stream, which STATUS bit 3 and NEXTBIT
both report. -/
theorem upresetEmptiesTheUnpacker : Obligations.UpresetEmptiesTheUnpacker := by
  refine ⟨rfl, fun s => ⟨_, rfl, rfl, ⟨_, rfl, ?_⟩, exec_nextbit_outOfRange (Nat.zero_le _)⟩⟩
  obtain ⟨_, _, _, hexhausted⟩ := statusWord_fields { s with upLen := 0, upPos := 0 }
  exact hexhausted

/-- Settles O41: from position 0 the bits still to come are all the bits loaded. -/
theorem uprewindRestartsTheSequence : Obligations.UprewindRestartsTheSequence :=
  ⟨rfl, fun _ => ⟨_, rfl, rfl, List.drop_zero⟩⟩

end Sys2Proof.Machine
end

section
/-! The system commands NOP, RDSR and RESET (R170 to R172). -/

namespace Sys2Proof.Machine

/-! ### NOP -/

theorem decode_of_opField_nop {w : CommandWord} (h : opField w = 0x00#8) : decode w = formatZ w .nop := by
  simp [decode, h]

/-- Settles O16: NOP answers 0 and does nothing else, and its row uses no field. -/
theorem nopDoesNothing : Obligations.NopDoesNothing := by
  refine ⟨rfl, fun _ => rfl, fun w hop hw => ?_⟩
  change opField w = 0x00#8 at hop
  rw [decode_of_opField_nop hop, formatZ_error (by rw [hop]; exact hw), hop]

/-! ### RDSR -/

section
variable {s : State} {i : BitVec 16} {v : Data}

theorem exec_rdsr_ok (h : s.srRead i.toNat = some v) : exec (.rdsr i) s = respond v s := by
  simp only [exec, execRdsr, h]

/-- The status registers are numbered 0 to 14 (R25). -/
theorem srRead_eq_none {n : Nat} (h : 15 ≤ n) : s.srRead n = none := by
  obtain ⟨k, rfl⟩ : ∃ k, n = k + 15 := ⟨n - 15, by omega⟩
  rfl

theorem exec_rdsr_badOperand (h : 15 ≤ i.toNat) : exec (.rdsr i) s = raise .badOperand (.rdsr i) s := by
  simp only [exec, execRdsr, srRead_eq_none h]

theorem errAny_iff : errAny s = true ↔ s.errflags ≠ 0 := bne_iff_ne

theorem upExhausted_iff : upExhausted s = true ↔ s.upPos.toNat = 8 * s.upLen.toNat := beq_iff_eq

end

/-- Settles O17: each of the fifteen numbers names its register, STATUS is its four fields, and no other number names
one. -/
theorem rdsrReturnsTheStatusRegister : Obligations.RdsrReturnsTheStatusRegister := by
  refine ⟨fun i => ?_, fun s => ?_, fun s i hi => exec_rdsr_badOperand hi⟩
  · simp [encode, assemble_eq_or]
  · obtain ⟨htree, hct, herr, hexhausted⟩ := statusWord_fields s
    exact ⟨exec_rdsr_ok rfl,
      ⟨_, exec_rdsr_ok rfl, htree, hct, herr ▸ errAny_iff, hexhausted ▸ upExhausted_iff, statusWord_high s⟩,
      exec_rdsr_ok rfl, exec_rdsr_ok rfl, exec_rdsr_ok rfl, exec_rdsr_ok rfl, exec_rdsr_ok rfl, exec_rdsr_ok rfl,
      exec_rdsr_ok rfl, exec_rdsr_ok rfl, exec_rdsr_ok rfl, exec_rdsr_ok rfl, exec_rdsr_ok rfl, exec_rdsr_ok rfl,
      exec_rdsr_ok rfl⟩

/-! ### RESET -/

/-- A command but RESET clears no error register: an error sets a flag and a code that is not 0, and a success writes
neither register (R28, R29, R215). -/
theorem errors_ne_zero_of_exec {i : Instr} {s t : State} (hi : i ≠ .reset) (h : exec i s = .next t) :
    (s.errflags ≠ 0 → t.errflags ≠ 0) ∧ (s.lasterr ≠ 0 → t.lasterr ≠ 0) := by
  rcases exec_cases h with ⟨e, _, rfl⟩ | ⟨v, u, rfl, hs⟩
  · exact ⟨fun hf h0 => hf (BitVec.or_eq_zero_iff.mp h0).1, fun _ => e.code_ne_zero⟩
  · obtain ⟨hflags, hlast, _⟩ := hs.writesOnlyItsOwn.errors.resolve_right hi
    exact ⟨fun hf => hflags ▸ hf, fun hl => hlast ▸ hl⟩

theorem decode_of_opField_reset {w : CommandWord} (h : opField w = 0x02#8) : decode w = formatZ w .reset := by
  simp [decode, h]

/-- Settles O18: RESET answers 0 from the state that a hard reset leaves too, no other command clears an error register,
and its row uses no field. -/
theorem resetCommandRestoresTheResetValues : Obligations.ResetCommandRestoresTheResetValues := by
  refine ⟨rfl, fun s => ?_, fun i s t h hclear => ?_, fun w hop hw => ?_⟩
  · exact ⟨_, rfl, (resetState_hasResetValues s).withResp _, rfl, rfl, rfl, rfl⟩
  · by_contra hi
    obtain ⟨hflags, hlast⟩ := errors_ne_zero_of_exec hi h
    rcases hclear with ⟨hne, h0⟩ | ⟨hne, h0⟩
    · exact hflags hne h0
    · exact hlast hne h0
  · change opField w = 0x02#8 at hop
    rw [decode_of_opField_reset hop, formatZ_error (by rw [hop]; exact hw), hop]

end Sys2Proof.Machine
end

section
/-! The host sequences HISTLOAD, GETTABLE and COMPRESS (R182 to R184): what the block holds after them, and how they
can end. -/

namespace Sys2Proof.Machine

/-- Settles O52: the counts written are those of the histogram, and a count that does not fit is refused by the plan. -/
theorem histloadLoadsTheHistogram : Obligations.HistloadLoadsTheHistogram := by
  refine ⟨fun B s hB => ?_, fun B v hv => ⟨histPlan_error hv, histLoad_error hv⟩⟩
  obtain ⟨r, hload⟩ := histLoad_ok hB s
  refine ⟨_, hload, fun v => ?_, rfl, rfl⟩
  rw [histogramTable_read (withCounts_ft _ r s), BitVec.toNat_ofNat, Nat.mod_eq_of_lt (hB v)]

/-! ### TABLECHECK -/

/-- What TABLECHECK tests, in the order of R185. -/
theorem tableCheck_iff {T : CodeMap} : tableCheck T = true ↔
    (∃ c, (256, c) ∈ T) ∧ (∀ e ∈ T, ∀ f ∈ T, e.1 ≠ f.1 → ¬ IsPrefixOf e.2 f.2) ∧
    (∀ e ∈ T, e.1 ≤ 256 ∧ 1 ≤ e.2.length ∧ e.2.length ≤ 256) := by
  have hpair (e f : Nat × Code) : (e.1 == f.1 || !startsWith e.2 f.2) = true ↔
      (e.1 ≠ f.1 → ¬ IsPrefixOf e.2 f.2) := by
    rw [← startsWith_iff, Bool.or_eq_true, beq_iff_eq, Bool.not_eq_true', Bool.not_eq_true, or_iff_not_imp_left]
  have heos : (∃ e ∈ T, e.1 = Config.eos.val) ↔ ∃ c, (256, c) ∈ T :=
    ⟨fun ⟨⟨n, c⟩, he, (hn : n = 256)⟩ => ⟨c, hn ▸ he⟩, fun ⟨_, h⟩ => ⟨_, h, rfl⟩⟩
  simp only [tableCheck, Bool.and_eq_true, List.any_eq_true, List.all_eq_true, beq_iff_eq, decide_eq_true_eq, heos,
    hpair, and_assoc]
  rfl

theorem decompress_invalidTable {T : CodeMap} (h : tableCheck T = false) (P : List Byte) (s : State) :
    decompress T P s = .error (abandonWith .invalidTable) := if_pos h

/-- Settles O57: the three tests are the three conditions, whether or not a symbol stands twice. -/
theorem tablecheckAcceptsExactlyTheCodeTables : Obligations.TablecheckAcceptsExactlyTheCodeTables :=
  ⟨fun _ _ => tableCheck_iff, fun _ P s _ h => decompress_invalidTable h P s⟩

/-! ### GETTABLE -/

section
variable {s : State}

/-- The code table of a state of the invariant passes TABLECHECK (R43, R191). -/
theorem StateInv.tableCheck_codeEntries (h : StateInv s) (hv : s.ctValid = true) :
    tableCheck (codeEntries s (List.finRange 257)) = true := by
  have hlen := codeLengthsAreBounded s h hv
  simp only [tableCheck_iff, mem_codeEntries]
  refine ⟨?_, ?_, ?_⟩
  · obtain ⟨_, _, _, heos⟩ := hlen Config.eos
    exact ⟨_, Config.eos, List.length_pos_iff.mp heos, rfl⟩
  · rintro _ ⟨m, hm, rfl⟩ _ ⟨n, hn, rfl⟩ hmn
    exact (h.codesArePaths hv).prefixFree m n (fun e => hmn (congrArg Fin.val e)) hm hn
  · rintro _ ⟨n, hn, rfl⟩
    obtain ⟨_, _, hmax, _⟩ := hlen n
    exact ⟨Nat.le_of_lt_succ n.isLt, List.length_pos_iff.mpr hn, hmax⟩

/-- A code table has one entry for a symbol (R181). -/
theorem codeEntries_symbols_nodup (s : State) : ((codeEntries s (List.finRange 257)).map (·.1)).Nodup := by
  rw [codeEntries, List.map_map]
  exact ((List.nodup_finRange 257).filter _).map Fin.val_injective

end

/-- Settles O53: the table read is `codeEntries`, which the invariant makes prefix-free with a code for the sentinel. -/
theorem gettableReadsTheCodeTable : Obligations.GettableReadsTheCodeTable := by
  intro s h hv
  obtain ⟨r, hrun⟩ := h.getTable_ok hv
  exact ⟨_, _, hrun, rfl, h.tableCheck_codeEntries hv, rfl⟩

/-! ### COMPRESS -/

/-- How COMPRESS ends: with E_CAPACITY, or with the code table of the counts and the packing of the whole stream. -/
theorem StateInv.compress_cases {s : State} (h : StateInv s) (B : List Byte) :
    compress B s = .error (abandonWith .capacity) ∨
    ((∀ v : Byte, B.count v < 2 ^ 32) ∧ ∃ u r,
      compress B s = .ok ((codeEntries u (List.finRange 257), packedBytes u), { u with resp := r }) ∧
      ReadyToPack (histogramTable B) s.params u ∧ packedBits u = encodedStream B) := by
  by_cases hB : ∀ v : Byte, B.count v < 2 ^ 32
  · rcases Nat.lt_or_ge (8 * s.params.pbufBytes) (encodedStream B).length with hroom | hfit
    · exact .inl (h.compress_error hB hroom)
    · exact .inr ⟨hB, h.compress_ok hB hfit⟩
  · obtain ⟨v, hv⟩ := not_forall.mp hB
    exact .inl (compress_count_error (Nat.le_of_not_lt hv) s)

/-- Settles O56: the one way of ending that is no success is E_CAPACITY. -/
theorem compressReportsOnlyCapacity : Obligations.CompressReportsOnlyCapacity := by
  intro B s e h herr
  rcases h.compress_cases B with hcap | ⟨_, _, _, hrun, _⟩
  · exact Except.error.inj (herr.symm.trans hcap)
  · cases herr.symm.trans hrun

end Sys2Proof.Machine
end

section
/-! DECOMPRESS in the block (R186 to R189): UPRESET and the UPBYTEs load the packed bytes, and the decode loop, which
asks STATUS and then takes a bit, does to the bits that remain what `decodeBits` does to a list of bits. -/

namespace Sys2Proof.Machine

/-! ### Loading -/

@[simp] theorem flatMap_byteBits_length (P : List Byte) : (P.flatMap byteBits).length = 8 * P.length := by
  simp [List.length_flatMap, Nat.mul_comm]

/-- A state of the invariant, with parameters `p`, whose unpacker holds the bytes of `P`, none of them read. -/
structure HoldsUnread (P : List Byte) (p : Params) (s : State) : Prop where
  inv : StateInv s
  params : s.params = p
  upPos : s.upPos = 0
  bits : loadedBits s = P.flatMap byteBits

/-- DECOMPRESS's command for a packed byte. -/
def loadCommand (v : Byte) : Instr := .upbyte (v.zeroExtend 32)

section
variable {P : List Byte} {p : Params} {s : State}

theorem HoldsUnread.upLen (h : HoldsUnread P p s) : s.upLen.toNat = P.length := by
  have hlen := congrArg List.length h.bits
  rw [loadedBits_length, flatMap_byteBits_length] at hlen
  omega

theorem HoldsUnread.remainingBits_eq (h : HoldsUnread P p s) : remainingBits s = P.flatMap byteBits := by
  rw [remainingBits, h.upPos, h.bits]
  rfl

theorem StateInv.must_upreset (h : StateInv s) : ∃ t, must .upreset s = .ok (0, t) ∧ HoldsUnread [] s.params t := by
  have hexec : Machine.exec .upreset s = respond 0 { s with upLen := 0, upPos := 0 } := rfl
  exact ⟨_, must_ok hexec, h.exec hexec, rfl, rfl, rfl⟩

theorem loadCommand_operand_le (v : Byte) : (v.zeroExtend 32).toNat ≤ 255 := by
  have := v.isLt
  simp only [BitVec.truncate_eq_setWidth, BitVec.toNat_setWidth]
  omega

theorem HoldsUnread.load_ok (h : HoldsUnread P p s) (v : Byte) (hroom : P.length < p.ubufBytes) :
    ∃ t, must (loadCommand v) s = .ok (0, t) ∧ HoldsUnread (P ++ [v]) p t := by
  rw [← h.upLen, ← h.params] at hroom
  have hexec := exec_upbyte_ok (loadCommand_operand_le v) hroom
  have hbyte : BitVec.ofNat 8 (v.zeroExtend 32).toNat = v := by
    rw [← operandByte_eq]
    exact (BitVec.extractLsb'_setWidth_of_le (by decide)).trans BitVec.extractLsb'_eq_self
  rw [hbyte] at hexec
  refine ⟨_, must_ok hexec, h.inv.exec hexec, h.params, h.upPos, ?_⟩
  have hbits := loadedBits_loaded v h.inv.counters.params h.inv.memories.umem hroom
  rw [h.bits] at hbits
  rw [List.flatMap_append, List.flatMap_singleton, ← hbits]
  rfl

theorem HoldsUnread.load_error (h : HoldsUnread P p s) (v : Byte) (hfull : P.length = p.ubufBytes) :
    must (loadCommand v) s = .error (abandonWith .capacity) := by
  rw [← h.upLen, ← h.params] at hfull
  exact must_error (exec_upbyte_capacity (loadCommand_operand_le v) hfull)

/-- UPBYTE after UPBYTE loads the bytes in order, where all of them fit. -/
theorem HoldsUnread.loads_ok (Q : List Byte) (h : HoldsUnread P p s) (hroom : (P ++ Q).length ≤ p.ubufBytes) :
    ∃ xs t, mustEach (Q.map loadCommand) s = .ok (xs, t) ∧ HoldsUnread (P ++ Q) p t := by
  induction Q generalizing P s with
  | nil => exact ⟨[], s, rfl, (List.append_nil P).symm ▸ h⟩
  | cons v Q ih =>
    have hfirst : P.length < p.ubufBytes := by
      rw [List.length_append, List.length_cons] at hroom
      omega
    rw [List.append_cons] at hroom ⊢
    obtain ⟨u, hload, hu⟩ := h.load_ok v hfirst
    obtain ⟨xs, t, hrest, ht⟩ := ih hu hroom
    exact ⟨_, t, mustEach_cons_of hload hrest, ht⟩

/-- Where the bytes do not all fit, the first that does not ends the sequence with E_CAPACITY. -/
theorem HoldsUnread.loads_error (Q : List Byte) (h : HoldsUnread P p s) (hroom : p.ubufBytes < (P ++ Q).length) :
    mustEach (Q.map loadCommand) s = .error (abandonWith .capacity) := by
  have hle : P.length ≤ p.ubufBytes := h.upLen ▸ h.params ▸ h.inv.counters.upLen
  induction Q generalizing P s with
  | nil =>
    rw [List.append_nil] at hroom
    exact absurd hle (Nat.not_le_of_lt hroom)
  | cons v Q ih =>
    rcases Nat.lt_or_eq_of_le hle with hlt | hfull
    · obtain ⟨u, hload, hu⟩ := h.load_ok v hlt
      rw [List.append_cons] at hroom
      have hrest := ih hu hroom (by rwa [List.length_append, List.length_singleton])
      rw [List.map_cons, mustEach_cons, hload]
      simp only [hrest]
    · exact mustEach_cons_error (h.load_error v hfull)

end

/-! ### The decode loop -/

/-- The decode loop on a list of bits: the bytes decoded and the bits after the sentinel's code, or none where the bits
end before it (R186, R189). -/
def decodeBits (T : CodeMap) : Code → Code → List Byte → Option (List Byte × Code)
  | [], _, _ => none
  | b :: bits, cand, out =>
    match symbolFor T (cand ++ [b]) with
    | none => decodeBits T bits (cand ++ [b]) out
    | some t => if t = Config.eos.val then some (out, bits) else decodeBits T bits [] (out ++ [BitVec.ofNat 8 t])

section
variable {T : CodeMap} {s : State} {b : Bool} {bits cand : Code} {out : List Byte}

theorem decodeBits_cons_none (h : symbolFor T (cand ++ [b]) = none) :
    decodeBits T (b :: bits) cand out = decodeBits T bits (cand ++ [b]) out := by
  simp only [decodeBits, h]

theorem decodeBits_cons_some {t : Nat} (h : symbolFor T (cand ++ [b]) = some t) : decodeBits T (b :: bits) cand out =
    if t = Config.eos.val then some (out, bits) else decodeBits T bits [] (out ++ [BitVec.ofNat 8 t]) := by
  simp only [decodeBits, h]

/-- What the host gets where the bits decode to this: the bytes with the bits not yet read, or E_TRUNCATED. -/
def decodeResult (o : Option (List Byte × Code)) : Except Abandon (List Byte × Code) :=
  o.elim (.error (abandonWith .truncated)) .ok

/-- The bytes a decoding returns, with the bits it leaves unread. -/
def withRemaining (r : Except Abandon (List Byte × State)) : Except Abandon (List Byte × Code) :=
  r.map fun q => (q.1, remainingBits q.2)

/-- The state after RDSR of STATUS (R171). -/
def afterStatus (s : State) : State := { s with resp := some { err := 0, rdata := statusWord s } }

theorem must_rdsr_status (s : State) : must (.rdsr 1#16) s = .ok (statusWord s, afterStatus s) := must_ok rfl

theorem statusWord_exhausted (s : State) : (statusWord s).getLsbD 3 = upExhausted s := by
  obtain ⟨_, _, _, hexhausted⟩ := statusWord_fields s
  exact hexhausted

theorem bitData_getLsbD_zero (b : Bool) : (bitData b).getLsbD 0 = b := by cases b <;> rfl

theorem remainingBits_length (s : State) : (remainingBits s).length = 8 * s.upLen.toNat - s.upPos.toNat := by
  simp [remainingBits]

/-- With no bit left STATUS says exhausted, and the pass ends the loop (R189). -/
theorem decodeLoop_exhausted (hs : CountersInBounds s) (h : remainingBits s = []) (fuel : Nat) :
    decodeLoop T (fuel + 1) cand out s = .error (abandonWith .truncated) := by
  have hpos := hs.upPos
  have hlen := remainingBits_length s
  rw [h, List.length_nil] at hlen
  have hex : upExhausted s = true := upExhausted_iff.mpr (by omega)
  simp only [decodeLoop, must_rdsr_status, statusWord_exhausted, hex, if_true]

/-- With a bit left a pass takes it, and looks up the code that it ends. -/
theorem decodeLoop_bit (hs : CountersInBounds s) (h : remainingBits s = b :: bits) : ∃ u, CountersInBounds u ∧
    remainingBits u = bits ∧ ∀ fuel,
      (symbolFor T (cand ++ [b]) = none →
        decodeLoop T (fuel + 1) cand out s = decodeLoop T fuel (cand ++ [b]) out u) ∧
      (∀ t, symbolFor T (cand ++ [b]) = some t → decodeLoop T (fuel + 1) cand out s =
        if t = Config.eos.val then .ok (out, u) else decodeLoop T fuel [] (out ++ [BitVec.ofNat 8 t]) u) := by
  have hlen := remainingBits_length s
  rw [h, List.length_cons] at hlen
  have hlt : s.upPos.toNat < 8 * s.upLen.toNat := by omega
  have hex : upExhausted s = false := Bool.eq_false_iff.mpr fun h0 => (upExhausted_iff.mp h0).not_lt hlt
  have hs1 : CountersInBounds (afterStatus s) := { hs with }
  have hbits : remainingBits (afterStatus s) = _ := remainingBits_afterNextbit hs1 hlt
  obtain ⟨hb, hrest⟩ := List.cons.inj (h.symm.trans hbits)
  refine ⟨_, afterNextbit_countersInBounds hs1 hlt, hrest.symm, fun fuel => ?_⟩
  have hnext := must_nextbit_ok hs1 hlt
  rw [← hb] at hnext
  refine ⟨fun hsym => ?_, fun t hsym => ?_⟩ <;>
    simp only [decodeLoop, must_rdsr_status, statusWord_exhausted, hex, Bool.false_eq_true, if_false, hnext,
      bitData_getLsbD_zero, hsym]

/-- Each pass takes a bit, so with more passes than bits the loop does to the bits that remain what `decodeBits` does
(R188). -/
theorem decodeLoop_eq (T : CodeMap) (bits : Code) : ∀ {fuel : Nat} {cand : Code} {out : List Byte} {s : State},
    CountersInBounds s → remainingBits s = bits → bits.length < fuel →
    withRemaining (decodeLoop T fuel cand out s) = decodeResult (decodeBits T bits cand out) := by
  induction bits with
  | nil =>
    intro fuel cand out s hs h hfuel
    obtain ⟨fuel, rfl⟩ := Nat.exists_eq_succ_of_ne_zero (Nat.ne_of_gt hfuel)
    rw [decodeLoop_exhausted hs h]
    rfl
  | cons b bits ih =>
    intro fuel cand out s hs h hfuel
    obtain ⟨fuel, rfl⟩ := Nat.exists_eq_succ_of_ne_zero (Nat.ne_zero_of_lt hfuel)
    have hfuel := Nat.lt_of_succ_lt_succ hfuel
    obtain ⟨u, hu, hrest, hpass⟩ := decodeLoop_bit hs h
    obtain ⟨hnone, hsome⟩ := hpass fuel
    cases hsym : symbolFor T (cand ++ [b]) with
    | none =>
      rw [hnone hsym, decodeBits_cons_none hsym]
      exact ih hu hrest hfuel
    | some t =>
      rw [hsome t hsym, decodeBits_cons_some hsym]
      by_cases ht : t = Config.eos.val
      · rw [if_pos ht, if_pos ht, ← hrest]
        rfl
      · rw [if_neg ht, if_neg ht]
        exact ih hu hrest hfuel

end

/-! ### The whole sequence -/

section
variable {T : CodeMap} {P : List Byte} {s : State}

theorem StateInv.mustEach_loads_ok (h : StateInv s) (hroom : P.length ≤ s.params.ubufBytes) :
    ∃ xs t, mustEach (.upreset :: P.map loadCommand) s = .ok (xs, t) ∧ HoldsUnread P s.params t := by
  obtain ⟨u, hreset, hu⟩ := h.must_upreset
  obtain ⟨xs, t, hloads, ht⟩ := hu.loads_ok P hroom
  exact ⟨_, t, mustEach_cons_of hreset hloads, ht⟩

theorem StateInv.mustEach_loads_error (h : StateInv s) (hroom : s.params.ubufBytes < P.length) :
    mustEach (.upreset :: P.map loadCommand) s = .error (abandonWith .capacity) := by
  obtain ⟨u, hreset, hu⟩ := h.must_upreset
  rw [mustEach_cons, hreset]
  simp only [hu.loads_error P hroom]

theorem decompress_of_loads (hT : tableCheck T = true) {xs : List Data} {t : State}
    (hload : mustEach (.upreset :: P.map loadCommand) s = .ok (xs, t)) :
    decompress T P s = decodeLoop T (8 * P.length + 1) [] [] t := by
  have hload : mustEach (.upreset :: P.map fun v => .upbyte (v.zeroExtend 32)) s = .ok (xs, t) := hload
  simp only [decompress, hT, hload, Bool.true_eq_false, if_false]

theorem decompress_of_loads_error (hT : tableCheck T = true) {e : Abandon}
    (hload : mustEach (.upreset :: P.map loadCommand) s = .error e) : decompress T P s = .error e := by
  have hload : mustEach (.upreset :: P.map fun v => .upbyte (v.zeroExtend 32)) s = .error e := hload
  simp only [decompress, hT, hload, Bool.true_eq_false, if_false]

/-- Where the packed bytes fit UMEM, DECOMPRESS decodes their bits (R186). -/
theorem StateInv.decompress_ok (h : StateInv s) (hT : tableCheck T = true) (hroom : P.length ≤ s.params.ubufBytes) :
    withRemaining (decompress T P s) = decodeResult (decodeBits T (P.flatMap byteBits) [] []) := by
  obtain ⟨xs, t, hload, ht⟩ := h.mustEach_loads_ok hroom
  rw [decompress_of_loads hT hload]
  exact decodeLoop_eq T _ ht.inv.counters ht.remainingBits_eq (by rw [flatMap_byteBits_length]; omega)

theorem StateInv.decompress_capacity (h : StateInv s) (hT : tableCheck T = true)
    (hroom : s.params.ubufBytes < P.length) : decompress T P s = .error (abandonWith .capacity) :=
  decompress_of_loads_error hT (h.mustEach_loads_error hroom)

theorem StateInv.decompress_of_none (h : StateInv s) (hT : tableCheck T = true)
    (hroom : P.length ≤ s.params.ubufBytes) (hbits : decodeBits T (P.flatMap byteBits) [] [] = none) :
    decompress T P s = .error (abandonWith .truncated) := by
  have hrun := h.decompress_ok hT hroom
  rw [hbits] at hrun
  cases hd : decompress T P s with
  | error e => rw [hd] at hrun; exact congrArg _ (Except.error.inj hrun)
  | ok r => rw [hd] at hrun; cases hrun

theorem StateInv.decompress_of_some (h : StateInv s) (hT : tableCheck T = true)
    (hroom : P.length ≤ s.params.ubufBytes) {B : List Byte} {rest : Code}
    (hbits : decodeBits T (P.flatMap byteBits) [] [] = some (B, rest)) :
    ∃ t, decompress T P s = .ok (B, t) := by
  have hrun := h.decompress_ok hT hroom
  rw [hbits] at hrun
  cases hd : decompress T P s with
  | error e => rw [hd] at hrun; cases hrun
  | ok r =>
    rw [hd] at hrun
    obtain rfl : r.1 = B := congrArg Prod.fst (Except.ok.inj hrun)
    exact ⟨r.2, rfl⟩

end

/-- Settles O58: the bits either decode up to the sentinel's code or end before it. -/
theorem decompressAlwaysEnds : Obligations.DecompressAlwaysEnds := by
  refine fun T P s h hT => ⟨fun hroom => ?_, h.decompress_capacity hT⟩
  cases hbits : decodeBits T (P.flatMap byteBits) [] [] with
  | none => exact .inr (h.decompress_of_none hT hroom hbits)
  | some r => exact .inl ⟨r.1, h.decompress_of_some hT hroom hbits⟩

end Sys2Proof.Machine
end

section
/-! The round trip (R190, R192) and the truncated stream (R196): with a prefix-free table `decodeBits` gives back the
input of an encoded stream and stops at its last bit, so a shorter stream ends before the sentinel's code does. -/

namespace Sys2Proof.Machine

/-! ### Decoding an encoded stream -/

theorem symbolFor_eq_none {T : CodeMap} {c : Code} (h : ∀ e ∈ T, e.2 ≠ c) : symbolFor T c = none := by
  simpa [symbolFor] using h

section
variable {T : CodeMap} (hT : tableCheck T = true)
include hT

/-- Two symbols do not share a code (R188). -/
theorem symbolFor_eq_some {n : Nat} {c : Code} (h : (n, c) ∈ T) : symbolFor T c = some n := by
  obtain ⟨_, hfree, _⟩ := tableCheck_iff.mp hT
  have hfound : (T.find? fun e => e.2 == c).isSome := List.find?_isSome.mpr ⟨_, h, beq_self_eq_true c⟩
  obtain ⟨e, he⟩ := Option.isSome_iff_exists.mp hfound
  have hec : e.2 = c := by simpa using List.find?_some he
  have hen : e.1 = n := by
    by_contra hne
    exact hfree e (List.mem_of_find?_eq_some he) _ h hne ⟨[], by rw [hec, List.append_nil]⟩
  rw [symbolFor, he, Option.map_some, hen]

variable (hmap : (T.map (·.1)).Nodup)
include hmap

/-- A code with its last bits missing is no code: not of another symbol, nor of its own, which has one. -/
theorem symbolFor_proper_prefix {n : Nat} {c d : Code} (h : (n, c ++ d) ∈ T) (hd : d ≠ []) :
    symbolFor T c = none := by
  obtain ⟨_, hfree, _⟩ := tableCheck_iff.mp hT
  refine symbolFor_eq_none fun e he hec => ?_
  by_cases hen : e.1 = n
  · have hsame : e = (n, c ++ d) := List.inj_on_of_nodup_map hmap he h hen
    rw [hsame] at hec
    exact hd (List.append_right_eq_self.mp hec)
  · exact hfree e he _ h hen ⟨d, by rw [hec]⟩

/-- From the first bits of a symbol's code, the rest of that code decodes to the symbol. -/
theorem decodeBits_rest_of_code {n : Nat} (rest : Code) (out : List Byte) : ∀ (d c : Code), (n, c ++ d) ∈ T →
    d ≠ [] → decodeBits T (d ++ rest) c out =
      if n = Config.eos.val then some (out, rest) else decodeBits T rest [] (out ++ [BitVec.ofNat 8 n])
  | [], _, _, hd => absurd rfl hd
  | [b], _, h, _ => decodeBits_cons_some (symbolFor_eq_some hT h)
  | b :: b' :: d, c, h, _ => by
    rw [List.append_cons] at h
    rw [List.cons_append, decodeBits_cons_none (symbolFor_proper_prefix hT hmap h (List.cons_ne_nil b' d))]
    exact decodeBits_rest_of_code rest out (b' :: d) _ h (List.cons_ne_nil b' d)

theorem decodeBits_code {n : Nat} {c : Code} (h : (n, c) ∈ T) (rest : Code) (out : List Byte) :
    decodeBits T (c ++ rest) [] out =
      if n = Config.eos.val then some (out, rest) else decodeBits T rest [] (out ++ [BitVec.ofNat 8 n]) := by
  obtain ⟨_, _, hbounds⟩ := tableCheck_iff.mp hT
  obtain ⟨_, hlen, _⟩ := hbounds _ h
  exact decodeBits_rest_of_code hT hmap rest out c [] h (List.length_pos_iff.mp hlen)

/-- The codes of an input's symbols decode to the input, and the bits behind the sentinel's are not read (R190). -/
theorem decodeBits_inputSymbols {C : SymbolId → Code} (rest : Code) (B : List Byte) (out : List Byte)
    (hC : ∀ n ∈ inputSymbols B, (n.val, C n) ∈ T) :
    decodeBits T ((inputSymbols B).flatMap C ++ rest) [] out = some (out ++ B, rest) := by
  induction B generalizing out with
  | nil =>
    have heos : (Config.eos.val, C Config.eos) ∈ T := hC _ List.mem_cons_self
    rw [List.append_nil]
    simpa [inputSymbols] using decodeBits_code hT hmap heos rest out
  | cons v B ih =>
    have hsyms : inputSymbols (v :: B) = byteSymbol v :: inputSymbols B := rfl
    rw [hsyms] at hC ⊢
    have hne : (byteSymbol v).val ≠ Config.eos.val := Nat.ne_of_lt v.isLt
    have hbyte : BitVec.ofNat 8 (byteSymbol v).val = v := by simp [byteSymbol]
    rw [List.flatMap_cons, List.append_assoc, decodeBits_code hT hmap (hC _ List.mem_cons_self), if_neg hne, hbyte,
      ih _ fun n hn => hC n (List.mem_cons_of_mem _ hn), ← List.append_cons]

end

/-- Bits behind a stream that decodes are left unread. -/
theorem decodeBits_append {T : CodeMap} {B : List Byte} {rest : Code} (more : Code) (bits : Code) :
    ∀ {cand : Code} {out : List Byte}, decodeBits T bits cand out = some (B, rest) →
      decodeBits T (bits ++ more) cand out = some (B, rest ++ more) := by
  induction bits with
  | nil => exact fun h => nomatch h
  | cons b bits ih =>
    intro cand out h
    rw [List.cons_append]
    cases hsym : symbolFor T (cand ++ [b]) with
    | none =>
      rw [decodeBits_cons_none hsym] at h ⊢
      exact ih h
    | some t =>
      rw [decodeBits_cons_some hsym] at h ⊢
      by_cases ht : t = Config.eos.val
      · rw [if_pos ht] at h ⊢
        obtain ⟨rfl, rfl⟩ := Prod.mk.inj (Option.some.inj h)
        rfl
      · rw [if_neg ht] at h ⊢
        exact ih h

/-- A stream that decodes up to its last bit does not decode without its last bits. -/
theorem decodeBits_proper_prefix {T : CodeMap} {B : List Byte} {bits more cand : Code} {out : List Byte}
    (h : decodeBits T (bits ++ more) cand out = some (B, [])) (hmore : more ≠ []) :
    decodeBits T bits cand out = none := by
  refine Option.eq_none_iff_forall_not_mem.mpr fun ⟨B', rest⟩ hshort => ?_
  obtain ⟨_, hrest⟩ := Prod.mk.inj (Option.some.inj ((decodeBits_append more bits hshort).symm.trans h))
  exact hmore (List.append_eq_nil_iff.mp hrest).2

/-! ### What COMPRESS made -/

/-- What a COMPRESS that succeeded gives (R105, R184): the state left, a table that DECOMPRESS accepts, the stream in
whole bytes, and that the table decodes that stream to the input. -/
structure CompressedTo (B : List Byte) (s t : State) (T : CodeMap) (P : List Byte) : Prop where
  inv : StateInv t
  params : t.params = s.params
  table : tableCheck T = true
  length : P.length = ((encodedStream B).length + 7) / 8
  bits : ∃ pad, P.flatMap byteBits = encodedStream B ++ pad
  decodes : ∀ rest, decodeBits T (encodedStream B ++ rest) [] [] = some (B, rest)

/-- The table that COMPRESS reads back decodes the stream that it packs. -/
theorem ReadyToPack.decodeBits_encodedStream {B : List Byte} {p : Params} {u : State}
    (h : ReadyToPack (histogramTable B) p u) (hB : ∀ v : Byte, B.count v < 2 ^ 32) (rest : Code) :
    decodeBits (codeEntries u (List.finRange 257)) (encodedStream B ++ rest) [] [] = some (B, rest) := by
  have hT := h.inv.tableCheck_codeEntries h.ctValid
  rw [encodedStream_eq]
  refine decodeBits_inputSymbols hT (codeEntries_symbols_nodup u) rest B [] fun n hn => ?_
  have hcode := h.codeFor_ne_nil hB n hn
  rw [← h.ctRead_eq] at hcode ⊢
  exact mem_codeEntries.mpr ⟨n, hcode, rfl⟩

theorem StateInv.compressedTo {B : List Byte} {s t : State} {T : CodeMap} {P : List Byte} (h : StateInv s)
    (hrun : compress B s = .ok ((T, P), t)) : CompressedTo B s t T P := by
  rcases h.compress_cases B with herr | ⟨hB, u, r, hok, hu, hbits⟩
  · cases hrun.symm.trans herr
  · have hpacked := packedBytes_bits hu.inv.padding
    rw [hbits] at hpacked
    cases hok.symm.trans hrun
    exact {
      inv := hu.inv.withPort u.input r
      params := hu.params
      table := hu.inv.tableCheck_codeEntries hu.ctValid
      length := by rw [packedBytes_length, hbits]
      bits := ⟨_, hpacked⟩
      decodes := hu.decodeBits_encodedStream hB }

section
variable {B : List Byte} {s t : State} {T : CodeMap} {P : List Byte} (h : CompressedTo B s t T P)
include h

theorem CompressedTo.encodedStream_ne_nil : encodedStream B ≠ [] := by
  intro h0
  have hdec := h.decodes []
  rw [h0] at hdec
  cases hdec

theorem CompressedTo.ne_nil : P ≠ [] := by
  have hpos := List.length_pos_iff.mpr h.encodedStream_ne_nil
  have hlen := h.length
  exact List.length_pos_iff.mp (by omega)

/-- Without the last byte there are too few bits for the stream (R196). -/
theorem CompressedTo.encodedStream_eq_append :
    ∃ more, encodedStream B = P.dropLast.flatMap byteBits ++ more ∧ more ≠ [] := by
  have hpos := List.length_pos_iff.mpr h.encodedStream_ne_nil
  have hlen := h.length
  have hshort : (P.dropLast.flatMap byteBits).length < (encodedStream B).length := by
    rw [flatMap_byteBits_length, List.length_dropLast]
    omega
  obtain ⟨pad, hbits⟩ := h.bits
  have hdrop : P.dropLast.flatMap byteBits <+: encodedStream B ++ pad := by
    refine ⟨byteBits (P.getLast h.ne_nil), ?_⟩
    rw [← hbits, ← List.flatMap_singleton byteBits, ← List.flatMap_append, List.dropLast_append_getLast]
  obtain ⟨more, hmore⟩ := List.prefix_of_prefix_length_le hdrop (List.prefix_append _ _) hshort.le
  refine ⟨more, hmore.symm, fun h0 => ?_⟩
  rw [h0, List.append_nil] at hmore
  exact hshort.ne (congrArg List.length hmore)

end

/-- Settles O54: the packed bits are the encoded stream and zeros, which decode to the input. -/
theorem decompressUndoesCompress : Obligations.DecompressUndoesCompress := by
  intro B s t T P h hrun hroom
  have hc := h.compressedTo hrun
  obtain ⟨pad, hbits⟩ := hc.bits
  exact hc.inv.decompress_of_some hc.table (hc.params ▸ hroom) (hbits ▸ hc.decodes pad)

/-- Settles O59: the stream decodes up to its last bit, so without its last bits it ends before the sentinel's code
does. -/
theorem truncatedStreamIsDetected : Obligations.TruncatedStreamIsDetected := by
  intro B s t T P h hrun hroom
  have hc := h.compressedTo hrun
  obtain ⟨more, hsplit, hmore⟩ := hc.encodedStream_eq_append
  have hdec := hc.decodes []
  rw [List.append_nil, hsplit] at hdec
  have hshort : P.dropLast.length ≤ t.params.ubufBytes := by
    rw [hc.params, List.length_dropLast]
    omega
  exact ⟨hc.ne_nil, hc.inv.decompress_of_none hc.table hshort (decodeBits_proper_prefix hdec hmore)⟩

end Sys2Proof.Machine
end

section
/-! The errors (R200 to R213): which codes a command answers with, that an operand outside its fixed range is reported in
every state, and exactly when a missing tree or code table is. -/

namespace Sys2Proof.Machine

/-! ### The codes of a command -/

/-- An answer's code is 0, or that of an error the command raises (R93, R200). -/
theorem err_of_exec {i : Instr} {s t : State} {r : Response} (h : exec i s = .next t) (hr : t.resp = some r) :
    r.err = 0 ∨ r.err ∈ (raisedBy i).map ErrCode.code := by
  rcases exec_cases h with ⟨e, he, rfl⟩ | ⟨v, u, rfl, _⟩
  · obtain rfl := Option.some.inj hr
    exact .inr (List.mem_map_of_mem he)
  · obtain rfl := Option.some.inj hr
    exact .inl rfl

/-- Settles O12: the codes listed for a command are those of the errors it raises. -/
theorem commandsRaiseOnlyTheirCodes : Obligations.CommandsRaiseOnlyTheirCodes := by
  intro i s t r h hr
  refine (err_of_exec h hr).imp_right fun hmem => ?_
  cases i with
  | nop | reset | clrfreq | build | pkreset | upreset | uprewind => exact List.not_mem_nil hmem
  | _ => simpa [raisedBy, ErrCode.code] using hmem

/-! ### Operands outside their fixed range -/

/-- An operand for which `Instr.wellFormed`'s test fails is above the test's bound. -/
theorem lt_of_not_decide_le {n bound : Nat} (h : ¬ decide (n ≤ bound) = true) : bound < n := by simpa using h

/-- Each command checks its operands before anything else (R206, R213). -/
theorem exec_badOperand_of_not_wellFormed {i : Instr} (h : ¬ i.WellFormed) (s : State) :
    exec i s = raise .badOperand i s := by
  cases i with
  | nop | reset | clrfreq | build | gencodes | pkreset | rdpk | upreset | uprewind | nextbit => exact absurd rfl h
  | rdsr n => exact exec_rdsr_badOperand (lt_of_not_decide_le h)
  | setfreq n d =>
    obtain ⟨_, _, hbad⟩ := setfreqWritesOneCountAndInvalidates
    exact hbad n d s (lt_of_not_decide_le h)
  | rdfreq n =>
    obtain ⟨_, _, _, hbad⟩ := rdfreqReturnsTheCount
    exact hbad s n (lt_of_not_decide_le h)
  | rdnode sel n =>
    obtain ⟨_, _, _, herr⟩ := rdnodeReturnsTheFieldOfTheNode
    obtain ⟨hbad, _⟩ := herr s sel n
    exact hbad (lt_of_not_decide_le h)
  | rdclen n =>
    obtain ⟨_, _, hbad, _⟩ := rdclenReturnsTheCodeLength
    exact hbad s n (lt_of_not_decide_le h)
  | rdcode sel n => exact exec_rdcode_badOperand (by simpa [Instr.wellFormed, or_iff_not_imp_left] using h)
  | pushbit d => exact exec_pushbit_badOperand (lt_of_not_decide_le h)
  | pushsym n => exact exec_pushsym_badOperand (lt_of_not_decide_le h)
  | upbyte d => exact exec_upbyte_badOperand (lt_of_not_decide_le h)

/-- Settles O13: the error entry of `raise`, with its code and flag written out. -/
theorem operandOutsideItsFixedRangeIsBadOperand : Obligations.OperandOutsideItsFixedRangeIsBadOperand :=
  fun _ s h => exec_badOperand_of_not_wellFormed h s

/-! ### The missing tree or code table -/

section
variable {s : State} {i : Instr} {e : ErrCode}

@[simp] theorem raise_inj {e' : ErrCode} : raise e i s = raise e' i s ↔ e = e' :=
  ⟨fun h => ErrCode.code_injective (congrArg State.lasterr (Host.Outcome.next.inj h)), fun h => h ▸ rfl⟩

/-- A success is no error: it answers with code 0 (R93). -/
@[simp] theorem respond_ne_raise {v : Data} {u : State} : respond v u ≠ raise e i s := fun h =>
  e.code_ne_zero (congrArg Response.err (Option.some.inj (congrArg State.resp (Host.Outcome.next.inj h)))).symm

@[simp] theorem fault_ne_raise {f : Fault} : .fault f ≠ raise e i s := nofun

@[simp] theorem orFault_respond_ne_raise {r : Except Fault State} {v : Data} :
    orFault r (respond v) ≠ raise e i s := by
  cases r with
  | ok t => exact respond_ne_raise
  | error f => exact fault_ne_raise

theorem mem_raisedBy_of_exec (h : exec i s = raise e i s) : e ∈ raisedBy i := by
  rcases exec_cases h with ⟨e', he', heq⟩ | ⟨v, u, heq, _⟩
  · rwa [raise_inj.mp (congrArg Host.Outcome.next heq)]
  · exact absurd (congrArg Host.Outcome.next heq).symm (respond_ne_raise (v := v) (u := u))

end

section
variable {s : State} {sel : BitVec 8} {i : BitVec 16}

theorem exec_gencodes_sequence_iff : exec .gencodes s = raise .sequence .gencodes s ↔ s.treeValid = false := by
  refine ⟨fun h => ?_, fun hv => if_pos hv⟩
  by_contra hv
  simp only [exec, execGencodes, if_neg hv] at h
  split at h
  · exact fault_ne_raise h
  · exact respond_ne_raise h

theorem exec_rdnode_sequence_iff (hsel : sel.toNat ≤ 6) :
    exec (.rdnode sel i) s = raise .sequence (.rdnode sel i) s ↔ s.treeValid = false := by
  simp only [exec, execRdnode, if_neg (Nat.not_lt_of_le hsel)]
  refine ⟨fun h => ?_, fun hv => if_pos hv⟩
  by_contra hv
  rw [if_neg hv] at h
  split at h
  · simp at h
  split at h
  · exact fault_ne_raise h
  split at h
  · simp at h
  · exact respond_ne_raise h

theorem exec_rdclen_sequence_iff (hi : i.toNat ≤ 256) :
    exec (.rdclen i) s = raise .sequence (.rdclen i) s ↔ s.ctValid = false := by
  obtain ⟨n, hn⟩ := exists_symbolOf_eq_some hi
  simp [exec, execRdclen, hn]

theorem exec_rdcode_sequence_iff (hi : i.toNat ≤ 256) (hsel : sel.toNat ≤ 7) :
    exec (.rdcode sel i) s = raise .sequence (.rdcode sel i) s ↔ s.ctValid = false := by
  obtain ⟨n, hn⟩ := exists_symbolOf_eq_some hi
  refine ⟨fun h => ?_, exec_rdcode_sequence hi hsel⟩
  by_contra hv
  simp only [exec, execRdcode, hn, if_neg (Nat.not_lt_of_le hsel), if_neg hv] at h
  split at h
  · simp at h
  · exact respond_ne_raise h

theorem exec_pushsym_sequence_iff (hi : i.toNat ≤ 256) :
    exec (.pushsym i) s = raise .sequence (.pushsym i) s ↔ s.ctValid = false := by
  obtain ⟨n, hn⟩ := exists_symbolOf_eq_some hi
  refine ⟨fun h => ?_, exec_pushsym_sequence hi⟩
  by_contra hv
  simp only [exec, execPushsym, hn, if_neg hv] at h
  split at h
  · simp at h
  split at h
  · simp at h
  · exact orFault_respond_ne_raise h

end

/-- Settles O14: five commands check for the tree or the code table right after their operands, and no other command
raises the error. -/
theorem sequenceErrorExactlyWithoutTreeOrTable : Obligations.SequenceErrorExactlyWithoutTreeOrTable := by
  intro i s h
  change exec i s = raise .sequence i s ↔ _
  cases i with
  | gencodes => simp [exec_gencodes_sequence_iff]
  | rdnode => simp [exec_rdnode_sequence_iff (of_decide_eq_true h)]
  | rdclen => simp [exec_rdclen_sequence_iff (of_decide_eq_true h)]
  | rdcode =>
    obtain ⟨hi, hsel⟩ := Bool.and_eq_true_iff.mp h
    simp [exec_rdcode_sequence_iff (of_decide_eq_true hi) (of_decide_eq_true hsel)]
  | pushsym => simp [exec_pushsym_sequence_iff (of_decide_eq_true h)]
  | _ => exact iff_of_false (fun herr => by simpa [raisedBy] using mem_raisedBy_of_exec herr) (by simp)

end Sys2Proof.Machine
end

section
/-! The port with nothing on it (R231): the block waits. -/

namespace Sys2Proof.Machine

/-- Settles O8: an empty port has no event to take, and a step without an event answers the state it was given. -/
theorem stepWithNothingPresentedWaits : Obligations.StepWithNothingPresentedWaits := fun _ => step_idle

end Sys2Proof.Machine
end
